-- ==== Sys2Proof/Word.lean ====
section
/-! DEFINITION. The word types of the block: the widths rules R10, R30 and R91 name. -/

namespace Sys2Proof

/-- A byte of `IN`, `OUT` or `LENTAB` (R60, R62, R63). -/
abbrev Byte := BitVec 8

/-- A refill word, a length word, a `DECTAB` entry (R7: `REFILL_W`, `TENTRY_W`). -/
abbrev Half := BitVec 16

/-- The bit register and a host-visible register (R7: `BR_W`; R42). -/
abbrev Word := BitVec 32

end Sys2Proof
end

