-- ==== Sys2Proof/Config.lean ====
section
/-! DEFINITION. What an implementation of the block fixes (rule R8), and the free values: the values the spec says
are any value (93_implementation_defined.md section 2). -/

namespace Sys2Proof

/-- The open parameters of rule R8. The model carries them in `State.cfg`, which no step changes, so a statement about
every state is a statement about every choice of them (log entry 1). -/
structure Config where
  /-- `IN_MAX`: input capacity in bytes. -/
  inMax : Nat
  /-- `OUT_MAX`: output capacity in bytes. -/
  outMax : Nat
  /-- `LEN_EXT_FIRST`: true when the length-extension bytes are read before the offset bits (R189). -/
  lenExtFirst : Bool
  /-- `BLOCK_BASE`: platform address of the register block. -/
  blockBase : Nat
  /-- `IN_BASE`: platform address of the `IN` window. -/
  inBase : Nat
  /-- `OUT_BASE`: platform address of the `OUT` window. -/
  outBase : Nat
  deriving DecidableEq, Repr

namespace Config

/-- The capacities fit the 32-bit registers that count them (R9, R30: `INLEN` and `OLEN` are 32 bits wide). -/
def fits (c : Config) : Bool := decide (c.inMax < 2 ^ 32) && decide (c.outMax < 2 ^ 32)

/-- DESIGN CHOICE (log entry 1): the parameters `State.reset` carries. The spec leaves all six open; no statement rests
on these numbers. -/
def reference : Config where
  inMax := 131072
  outMax := 131072
  lenExtFirst := false
  blockBase := 0
  inBase := 0x10000000
  outBase := 0x20000000

/-- Free value: what a 32-bit register read returns when the spec says any value (R46, R47, R285; U2). -/
opaque freeWord : Nat → Word

/-- Free value: what a byte of the `OUT` window reads as when the spec says any value (R229, R285; U1, U3). -/
opaque freeByte : Nat → Byte

/-- Free value: entry `i` of `DECTAB` after the failed build number `n` (R153; U4). -/
opaque freeEntry : Nat → Nat → Half

end Config

end Sys2Proof
end

