-- ==== Sys2Proof/Machine/Constants.lean ====
section
/-! DEFINITION. The parameters the source fixes (rule R7), one name each, so that a corrected literal changes one
definition (93_implementation_defined.md section 6). -/

namespace Sys2Proof.Machine

/-- `NSYM`: number of symbols. -/
abbrev nsym : Nat := 512
/-- `LENTAB_BYTES`: bytes of the code-length table. -/
abbrev lentabBytes : Nat := 256
/-- `MAXLEN`: longest code, in bits. -/
abbrev maxLen : Nat := 15
/-- `TBITS`: width of the table index. -/
abbrev tbits : Nat := 15
/-- `TSIZE`: slots of the decoding table. -/
abbrev tsize : Nat := 32768
/-- `BR_W`: width of the bit register. -/
abbrev brWidth : Nat := 32
/-- `REFILL_W`: width of a refill word. -/
abbrev refillWidth : Nat := 16
/-- `LIT_LIMIT`: symbols below it are literals. -/
abbrev litLimit : Nat := 256
/-- `EOB_SYM`: the end marker. -/
abbrev eobSym : BitVec 9 := 0x100#9
/-- `MIN_MATCH`: the shortest match. -/
abbrev minMatch : Nat := 3
/-- `NIBBLE_ESC`: the length nibble that calls for an extension byte, and the constant added then. -/
abbrev nibbleEsc : Nat := 15
/-- `BYTE_ESC`: the extension byte that calls for a length word. -/
abbrev byteEsc : Byte := 0xFF#8
/-- `EXT16_MIN`: the smallest legal length word. -/
abbrev ext16Min : Nat := 15

end Sys2Proof.Machine
end

