-- ==== Sys2Proof/Syntax.lean ====
section
/-! DEFINITION. The instructions: one constructor per row of spec/opcode_table.json (rule R3: the tokens of the
compressed stream, and the two host commands). -/

namespace Sys2Proof

/-- A token (fields of the 9-bit symbol, R91) or a host command (R43). The offset bits, the extension byte and the
length word of a match are stream data: its meaning reads them through the cursor, as rules R184 to R188 do. -/
inductive Instr where
  /-- LIT (R181): `SYM` in 0..255; `value` is `SYM[7:0]`. -/
  | lit (value : Byte)
  /-- EOB (R182): `SYM = 256` with no input byte left. -/
  | eob
  /-- MATCH (R186): `obl` is `SYM[7:4]`, `ln` is `SYM[3:0]`, which is not 15. -/
  | matchPlain (obl ln : BitVec 4)
  /-- MATCH_X8 (R187): `SYM[3:0] = 15`, extension byte not 0xFF; `obl` is `SYM[7:4]`. -/
  | matchX8 (obl : BitVec 4)
  /-- MATCH_X16 (R188): `SYM[3:0] = 15`, extension byte 0xFF; `obl` is `SYM[7:4]`. -/
  | matchX16 (obl : BitVec 4)
  /-- START (R221): a write of 1 to `CTRL[0]` with `CTRL[1]` 0. -/
  | start
  /-- RESET (R222): a write of 1 to `CTRL[1]`. -/
  | reset
  deriving DecidableEq, Repr

end Sys2Proof
end

