-- ==== Sys2Proof/WellFormed.lean ====
section
/-! DEFINITION. Which terms of `Instr` are instructions of the block. -/

namespace Sys2Proof

/-- The operand checks of rule R100. Only MATCH has one: its length nibble is not 0xF (row 3), since 0xF selects
MATCH_X8 or MATCH_X16. Every other operand is bounded by its type. -/
def Instr.wellFormed : Instr → Bool
  | .lit _ => true
  | .eob => true
  | .matchPlain _ ln => decide (ln ≠ 15)
  | .matchX8 _ => true
  | .matchX16 _ => true
  | .start => true
  | .reset => true

end Sys2Proof
end

