-- ==== Sys2Proof/Decode.lean ====
section
/-! DEFINITION. Decoding: the symbol word (R91), the selection of a token (R100), a write to `CTRL` (R43), and the
token image in bytes. After it the encoder, and the encoder mapping of rule R104. -/

namespace Sys2Proof

open Machine

/-- Why bits are no instruction. -/
inductive DecodeError where
  /-- Fewer bytes than the symbol word or the `CTRL` word has. -/
  | shortWord
  /-- A `DECTAB` entry with a bit of [15:9] set (R101 (a), X4: BUILD_TABLE never writes one). -/
  | reservedEntryBits
  /-- A write to `CTRL` with `START` and `RESET` both 0: no command (R43). -/
  | noCommandBit
  deriving DecidableEq, Repr

/-- The field `OBL = SYM[7:4]` (R91). -/
def symObl (sym : BitVec 9) : BitVec 4 := sym.extractLsb' 4 4

/-- The field `LN = SYM[3:0]` (R91). -/
def symLn (sym : BitVec 9) : BitVec 4 := sym.extractLsb' 0 4

/-- The selection table of rule R100: the first row that matches. `rem` is `INLEN - POS` after the symbol's CONSUME;
`ext` is the byte the match reads as its extension byte, `none` when no such byte exists (then either extended form
raises `TruncatedInput` at the same read; log entry 15). -/
def selectToken (sym : BitVec 9) (rem : Nat) (ext : Option Byte) : Instr :=
  if sym.getLsbD 8 = false then .lit (sym.setWidth 8)
  else if sym = eobSym ∧ rem = 0 then .eob
  else if symLn sym ≠ 15 then .matchPlain (symObl sym) (symLn sym)
  else if ext = some byteEsc then .matchX16 (symObl sym)
  else .matchX8 (symObl sym)

/-- A token from a 16-bit table entry (R91: bits [15:9] are 0) and the bytes that follow in the byte stream. -/
def decodeEntry (entry : Half) (rest : List Byte) : Except DecodeError Instr :=
  if entry.extractLsb' 9 7 = 0 then .ok (selectToken (entry.setWidth 9) rest.length rest.head?)
  else .error .reservedEntryBits

/-- A token image: the table entry in two little-endian bytes, then the byte stream. -/
def decodeToken : List Byte → Except DecodeError Instr
  | lo :: hi :: rest => decodeEntry (hi ++ lo) rest
  | _ => .error .shortWord

/-- The command of a write to `CTRL` (R43). Bits [31:2] are ignored, and RESET wins over START. -/
def decodeCtrl (v : Word) : Except DecodeError Instr :=
  if v.getLsbD 1 then .ok .reset
  else if v.getLsbD 0 then .ok .start
  else .error .noCommandBit

/-- A `CTRL` word as four little-endian bytes. -/
def decodeCommand : List Byte → Except DecodeError Instr
  | b0 :: b1 :: b2 :: b3 :: _ => decodeCtrl (b3 ++ b2 ++ b1 ++ b0)
  | _ => .error .shortWord

/-- Is a word of `nbits` bits a token image? A token has at least the 9 bits of a symbol; a `CTRL` word has 32. -/
def isTokenWidth (nbits : Nat) : Bool := decide (8 < nbits) && decide (nbits ≠ 32)

/-- The symbol of a token word whose bits are `w` (bits 8..0). -/
def tableSym (w : Nat) : BitVec 9 := BitVec.ofNat 9 w

/-- The extension bytes of a token word: none but for `SYM[8] = 1` and `LN = 15`; then bits 23..16 are the extension
byte, and where that is 0xFF bits 39..24 are the length word. -/
def tableExt (w : Nat) : List Byte :=
  let sym := tableSym w
  let b := BitVec.ofNat 8 (w / 2 ^ 16)
  if sym.getLsbD 8 = true ∧ symLn sym = 15 then
    if b = byteEsc then [b, BitVec.ofNat 8 (w / 2 ^ 24), BitVec.ofNat 8 (w / 2 ^ 32)] else [b]
  else []

/-- The bits of a table row, laid out as the hardware holds them and given to the decoder. A token ends with its last
part, so `SYM = 256` stands with no byte after it and is EOB (R100, row 2; log entry 17). -/
def decodeTableWord (nbits w : Nat) : Option Instr :=
  let read :=
    if isTokenWidth nbits then
      decodeToken (BitVec.ofNat 8 w :: BitVec.ofNat 8 (w / 2 ^ 8) :: tableExt w)
    else
      decodeCommand [BitVec.ofNat 8 w, BitVec.ofNat 8 (w / 2 ^ 8), BitVec.ofNat 8 (w / 2 ^ 16),
        BitVec.ofNat 8 (w / 2 ^ 24)]
  match read with
  | .ok i => some i
  | .error _ => none

/-! ### The encoder -/

/-- The 9-bit symbol with bit 8 set and the two nibbles (R91). -/
def matchSym (obl ln : BitVec 4) : BitVec 9 := 1#1 ++ obl ++ ln

/-- The symbol of a token (R91, R100); `none` for a host command. -/
def encodeSym : Instr → Option (BitVec 9)
  | .lit v => some (0#1 ++ v)
  | .eob => some eobSym
  | .matchPlain obl ln => some (matchSym obl ln)
  | .matchX8 obl => some (matchSym obl 15)
  | .matchX16 obl => some (matchSym obl 15)
  | .start => none
  | .reset => none

/-- The bytes of a symbol's table entry: zero-extended to 16 bits (R91), low byte first. -/
def entryBytes (sym : BitVec 9) : List Byte :=
  [(sym.setWidth 16).extractLsb' 0 8, (sym.setWidth 16).extractLsb' 8 8]

/-- `CTRL` words (R43), four little-endian bytes with the reserved bits 0. -/
def ctrlBytes (v : Word) : List Byte :=
  [v.extractLsb' 0 8, v.extractLsb' 8 8, v.extractLsb' 16 8, v.extractLsb' 24 8]

/-- What follows the symbol word of a token: the byte stream from the extension byte on. It is admissible for the
instruction when R100 selects that row with it: EOB has no byte left, `SYM = 256` as a MATCH has one, MATCH_X8 has an
extension byte other than 0xFF, MATCH_X16 has 0xFF. -/
def Instr.admits (i : Instr) (rest : List Byte) : Bool :=
  match i with
  | .eob => rest.isEmpty
  | .matchPlain obl ln => decide (obl ≠ 0 ∨ ln ≠ 0) || !rest.isEmpty
  | .matchX8 _ => decide (rest ≠ []) && decide (rest.head? ≠ some byteEsc)
  | .matchX16 _ => decide (rest.head? = some byteEsc)
  | .lit _ | .start | .reset => true

/-- The words of an instruction: the symbol's entry, or the `CTRL` word. A token's image is `encode i` and then a byte
stream the instruction admits. -/
def encode (i : Instr) : List Byte :=
  match encodeSym i with
  | some sym => entryBytes sym
  | none => ctrlBytes (if i = .reset then 2#32 else 1#32)

/-- Does the instruction come through the `CTRL` register, and not through the compressed stream (R3)? -/
def Instr.isCommand (i : Instr) : Bool := (encodeSym i).isNone

/-- The decoder of the two ports an instruction comes through: a `CTRL` write, or the compressed stream. -/
def decodeBytes (command : Bool) (bytes : List Byte) : Except DecodeError Instr :=
  if command then decodeCommand bytes else decodeToken bytes

/-! ### The encoder mapping of rule R104 -/

/-- The parts of a match token (R90): symbol, offset field of `obl` bits, extension bytes. -/
structure MatchParts where
  sym : BitVec 9
  obl : Nat
  field : Nat
  ext : List Byte
  deriving DecidableEq, Repr

/-- `SYM = 256 + 16*OBL + LN` (R104). -/
def expandSym (off ln : Nat) : BitVec 9 := BitVec.ofNat 9 (256 + 16 * Nat.log2 off + ln)

/-- A length word `v = len - 3` behind the byte 0xFF (R104, last branch). -/
def expandX16Bytes (len : Nat) : List Byte :=
  [byteEsc, BitVec.ofNat 8 ((len - 3) % 256), BitVec.ofNat 8 ((len - 3) / 256)]

/-- `MATCH len, off` in the shortest tier (R103, R104). -/
def expandMatch (len off : Nat) : MatchParts :=
  let obl := Nat.log2 off
  let field := off - 2 ^ obl
  if len - 3 ≤ 14 then ⟨expandSym off (len - 3), obl, field, []⟩
  else if len - 18 ≤ 254 then ⟨expandSym off 15, obl, field, [BitVec.ofNat 8 (len - 18)]⟩
  else ⟨expandSym off 15, obl, field, expandX16Bytes len⟩

/-- `MATCH.X16 len, off`: the same match forced into the 16-bit tier (R103, R104); `len` is at least 18. -/
def expandMatchX16 (len off : Nat) : MatchParts :=
  ⟨expandSym off 15, Nat.log2 off, off - 2 ^ Nat.log2 off, expandX16Bytes len⟩

end Sys2Proof
end

