-- ==== Sys2Proof/Machine/State.lean ====
section
/-! DEFINITION. The state: the fifteen fields of rule R30 (`Block`), and beside them the model's own fields (the
configuration, the host's pending moves and what they leave behind). The reset state; the reasons a step can stop. -/

namespace Sys2Proof.Machine

/-- `STATE` (R31). The codes 5 to 7 are never written, so they have no constructor. -/
inductive ControlState where
  | idle
  | setup
  | decoding
  | done
  | failed
  deriving DecidableEq, Repr

/-- `ERR` (R32, R250, R251). `unsupportedCompressedBlock` is reserved and never raised (R252); code 7 has no
constructor. -/
inductive ErrKind where
  | noError
  | truncatedInput
  | invalidFormat
  | invalidHuffmanTable
  | huffmanTableUnderflow
  | unsupportedCompressedBlock
  | outputOverflow
  deriving DecidableEq, Repr

/-- A byte memory (R60, R62, R63): address and byte pairs, addresses strictly rising, no zero byte listed. An unlisted
address reads as 0 (DESIGN CHOICE, log entry 3). -/
abbrev Memory := List Host.Cell

/-- `len` consecutive `DECTAB` entries that hold the same 16-bit word. -/
structure Run where
  entry : Half
  len : Nat
  deriving DecidableEq, Repr

/-- `DECTAB` (R38, R64), 32768 entries of 16 bits, in run-length form: no run is empty and neighbours differ, so equal
tables are equal lists (log entry 18). -/
abbrev DecTab := List Run

/-- The block's state: one field per row of the table of rule R30, in its order, and nothing else. Counters that never
wrap (R48, R195) are numbers; their ranges are the invariant of Safety.lean. -/
structure Block where
  /-- `STATE`, 3 bits. -/
  state : ControlState
  /-- `ERR`, 3 bits. -/
  err : ErrKind
  /-- `IN`, `IN_MAX` bytes. -/
  inp : Memory
  /-- `INLEN`, 32 bits. -/
  inLen : Nat
  /-- `POS`, 32 bits, 0..`INLEN`. -/
  pos : Nat
  /-- `BR`, 32 bits. -/
  br : Word
  /-- `EXTRA`, signed, -15..16. -/
  extra : Int
  /-- `LENTAB`, 256 bytes. -/
  lentab : Memory
  /-- `DECTAB`, 32768 entries of 16 bits. -/
  dectab : DecTab
  /-- `FC`, 0..32768. -/
  fc : Nat
  /-- `OUT`, `OUT_MAX` bytes. -/
  out : Memory
  /-- `OLEN`, 32 bits, 0..`OUT_MAX`. -/
  olen : Nat
  /-- `SYM`, 9 bits. -/
  sym : BitVec 9
  /-- `MLEN`, 17 bits. -/
  mlen : Nat
  /-- `MOFF`, 16 bits. -/
  moff : Nat
  deriving DecidableEq, Repr

/-- The registers of the host's map (R42): five, and the reserved words at offset 0x14 and above. -/
inductive HostReg where
  | ctrl
  | status
  | inLen
  | outLen
  | inPos
  /-- The reserved word at offset `0x14 + 4 * index`. -/
  | reserved (index : Nat)
  deriving DecidableEq, Repr

/-- One move of the host between two steps of the block (R229, R42, R222). -/
inductive HostMove where
  /-- The host makes no access; the block takes its own step. -/
  | run
  /-- A 32-bit write to a register. -/
  | writeReg (r : HostReg) (value : Word)
  /-- A 32-bit read of a register. -/
  | readReg (r : HostReg)
  /-- A write to byte `index` of the `IN` window. -/
  | writeIn (index : Nat) (value : Byte)
  /-- A read of byte `index` of the `IN` window. -/
  | readIn (index : Nat)
  /-- A write to byte `index` of the `OUT` window, which is read-only. -/
  | writeOut (index : Nat) (value : Byte)
  /-- A read of byte `index` of the `OUT` window. -/
  | readOut (index : Nat)
  /-- The block's reset input is asserted (R222). -/
  | assertReset
  deriving DecidableEq, Repr

/-- The machine: the block (R30), and the model's own fields (log entries 1 and 2). -/
structure State where
  /-- The block's own state. -/
  blk : Block
  /-- The open parameters (R8); no step changes them. -/
  cfg : Config
  /-- The host's moves to come, the next one first. With none left the host makes no access. -/
  host : List HostMove
  /-- What the host's latest read returned. -/
  rdata : Word
  /-- Free values drawn so far: the argument of the next one. -/
  draw : Nat
  /-- The latest START was refused (R221: "a model marks the launch refused"). -/
  launchRefused : Bool
  deriving DecidableEq, Repr

/-- Where the machine stops with a fault. No instruction's meaning raises one. -/
inductive Fault where
  /-- A host access to the `IN` window at an index of `IN_MAX` or above: no such address (R42). Safe. -/
  | outsideInWindow
  /-- A host access to the `OUT` window at an index of `OUT_MAX` or above: no such address (R42). Safe. -/
  | outsideOutWindow
  deriving DecidableEq, Repr

/-- Where the model gives no meaning. -/
inductive Refusal where
  /-- `exec`, for an instruction without a meaning. No arm uses it. Safe. -/
  | notModelled (mnemonic : String)
  /-- A host write to `IN` while `BUSY = 1`: "The spec gives such a write no meaning" (R75, R230, R284; X5). Safe for
  hosts that keep the duty; the model says nothing about the others. -/
  | inputWriteWhileBusy
  deriving DecidableEq, Repr

/-- The block after reset (R51, R280). `IN`, `OUT`, `LENTAB`, `DECTAB`, `FC`, `SYM`, `MLEN` and `MOFF` are unspecified
there: DESIGN CHOICE zero (log entry 4). -/
def Block.reset : Block where
  state := .idle
  err := .noError
  inp := []
  inLen := 0
  pos := 0
  br := 0
  extra := 0
  lentab := []
  dectab := [⟨0, 32768⟩]
  fc := 0
  out := []
  olen := 0
  sym := 0
  mlen := 0
  moff := 0

/-- The machine after reset, for every choice of the open parameters. -/
def State.resetWith (c : Config) : State where
  blk := Block.reset
  cfg := c
  host := []
  rdata := 0
  draw := 0
  launchRefused := false

/-- The machine right after reset, with the reference parameters (log entry 1). -/
def State.reset : State := State.resetWith Config.reference

end Sys2Proof.Machine
end

