-- ==== Sys2Proof/Machine/Flags.lean ====
section
/-! DEFINITION. The status the host sees. The block has no condition flags (R49): its only status is `STATE` and `ERR`,
with `BUSY` and the `done` output computed from `STATE`. -/

namespace Sys2Proof.Machine

/-- The code of `STATE` (R31). -/
def ControlState.code : ControlState → BitVec 3
  | .idle => 0
  | .setup => 1
  | .decoding => 2
  | .done => 3
  | .failed => 4

/-- The code of `ERR` (R251). -/
def ErrKind.code : ErrKind → BitVec 3
  | .noError => 0
  | .truncatedInput => 1
  | .invalidFormat => 2
  | .invalidHuffmanTable => 3
  | .huffmanTableUnderflow => 4
  | .unsupportedCompressedBlock => 5
  | .outputOverflow => 6

/-- `BUSY` (R44): `STATE` is `SETUP` or `DECODING`. -/
def ControlState.busy : ControlState → Bool
  | .setup => true
  | .decoding => true
  | .idle => false
  | .done => false
  | .failed => false

/-- The level output `done` (R262). -/
def Block.doneOut (b : Block) : Bool := decide (b.state = .done ∨ b.state = .failed)

/-- `STATUS` (R44): `STATE` in [2:0], `BUSY` in [3], `ERR` in [6:4], 0 above. -/
def Block.status (b : Block) : Word :=
  0#25 ++ b.err.code ++ BitVec.ofBool b.state.busy ++ b.state.code

end Sys2Proof.Machine
end

