-- ==== Sys2Proof/Machine/Commands.lean ====
section
/-! DEFINITION. The meanings of the host commands (43_control.md rules R221 and R222). -/

namespace Sys2Proof.Machine

/-- The block an accepted START leaves (R221). -/
def Block.launch (b : Block) : Block :=
  { b with pos := 0, olen := 0, err := .noError, state := .setup }

/-- START (R221): ignored while busy; refused, with no state of the block changed, when `INLEN` is above `IN_MAX`. -/
def execStart (s : State) : Host.Outcome State Fault Refusal :=
  if s.blk.state.busy then .next s
  else if s.blk.inLen > s.cfg.inMax then .next { s with launchRefused := true }
  else .next { s with blk := s.blk.launch, launchRefused := false }

/-- RESET (R222, R281): one transition from any state to the reset state. The model's own fields that are not the
block's (the parameters, the host's moves and reads, the free values drawn) stay. -/
def execReset (s : State) : Host.Outcome State Fault Refusal :=
  .next { s with blk := Block.reset, launchRefused := false }

end Sys2Proof.Machine
end

