-- ==== Sys2Proof/Machine/Ops.lean ====
section
/-! DEFINITION. The named operations over memory and registers: the primitives of rules R12 and R13, the cursor and the
bit register (40_bitstream.md), and the appends and the copy engine (42_tokens.md). -/

namespace Sys2Proof.Machine

/-! ### Byte memories -/

/-- One byte; an unlisted address reads as 0. -/
def Memory.read : Memory → Nat → Byte
  | [], _ => 0
  | (k, v) :: rest, a => if k = a then v else Memory.read rest a

/-- Write one byte, keeping the canonical form: writing 0 removes the entry. -/
def Memory.write : Memory → Nat → Byte → Memory
  | [], a, v => if v = 0 then [] else [(a, v)]
  | (k, w) :: rest, a, v =>
    if a < k then (if v = 0 then (k, w) :: rest else (a, v) :: (k, w) :: rest)
    else if a = k then (if v = 0 then rest else (a, v) :: rest)
    else (k, w) :: Memory.write rest a v

/-- The bytes at `p .. p+n-1`, moved to `0 .. n-1`. -/
def Memory.slice : Memory → Nat → Nat → Memory
  | [], _, _ => []
  | (k, v) :: rest, p, n =>
    if p ≤ k ∧ k < p + n then (k - p, v) :: Memory.slice rest p n else Memory.slice rest p n

/-- The canonical form: addresses strictly rise and no zero byte is listed. -/
abbrev Memory.wf (m : Memory) : Prop :=
  m.Pairwise (fun c d => c.1 < d.1) ∧ ∀ c ∈ m, c.2 ≠ 0

/-- Every listed address is below `n`. -/
abbrev Memory.below (m : Memory) (n : Nat) : Prop := ∀ c ∈ m, c.1 < n

/-- `MemRead(a, 1)` (R12). -/
def Memory.read8 (m : Memory) (a : Nat) : Byte := m.read a

/-- `MemRead(a, 2)`, little-endian (R12, R65). -/
def Memory.read16 (m : Memory) (a : Nat) : Half := m.read (a + 1) ++ m.read a

/-- `MemRead(a, 4)`, little-endian (R12, R65). -/
def Memory.read32 (m : Memory) (a : Nat) : Word :=
  m.read (a + 3) ++ m.read (a + 2) ++ m.read (a + 1) ++ m.read a

/-! ### The decoding table -/

/-- `Tab(i)`: entry `i` (R12). -/
def DecTab.read : DecTab → Nat → Half
  | [], _ => 0
  | r :: rest, i => if i < r.len then r.entry else DecTab.read rest (i - r.len)

/-- How many entries the runs hold. -/
def DecTab.size : DecTab → Nat
  | [] => 0
  | r :: rest => r.len + DecTab.size rest

/-- Put one entry in front, merging it into the first run where the words are equal. -/
def DecTab.cons (v : Half) : DecTab → DecTab
  | [] => [⟨v, 1⟩]
  | r :: rest => if r.entry = v then ⟨v, r.len + 1⟩ :: rest else ⟨v, 1⟩ :: r :: rest

/-- The run-length form of a list of entries. -/
def DecTab.ofEntries : List Half → DecTab
  | [] => []
  | v :: rest => DecTab.cons v (DecTab.ofEntries rest)

/-- The free table number `n`: every entry is any value (R153, U4). -/
def DecTab.free (n : Nat) : DecTab :=
  DecTab.ofEntries ((List.range tsize).map (Config.freeEntry n))

/-- The canonical run-length form of a whole table. -/
abbrev DecTab.wf (t : DecTab) : Prop :=
  t.size = tsize ∧ (∀ r ∈ t, 0 < r.len) ∧ t.IsChain (fun r q => r.entry ≠ q.entry)

/-! ### Results and failure -/

/-- The result of an operation that can raise: it answers a value and the block, or it has raised and the block is the
failed one (R13: "It never returns"). -/
inductive Res (α : Type) where
  | ok (value : α) (b : Block)
  | raised (b : Block)
  deriving DecidableEq, Repr

/-- The next operation of a rule runs on what the one before it left (R14). -/
def Res.bind {α β : Type} (r : Res α) (f : α → Block → Res β) : Res β :=
  match r with
  | .ok a b => f a b
  | .raised b => .raised b

/-- The block an operation leaves, raised or not. -/
def Res.block {α : Type} : Res α → Block
  | .ok _ b => b
  | .raised b => b

/-- Failure entry (R13, R258): `ERR` and `STATE` are written, and everything else keeps its value. -/
def Block.fail (e : ErrKind) (b : Block) : Block := { b with err := e, state := .failed }

/-- `raise E` (R13). -/
def raise {α : Type} (e : ErrKind) (b : Block) : Res α := .raised (b.fail e)

/-! ### The cursor (R121 to R126) -/

/-- REMAINING (R121). -/
def Block.remaining (b : Block) : Nat := b.inLen - b.pos

/-- READ_BYTE (R122). -/
def Block.readByte (b : Block) : Res Byte :=
  if b.remaining < 1 then raise .truncatedInput b
  else .ok (b.inp.read8 b.pos) { b with pos := b.pos + 1 }

/-- READ_U16 (R123). -/
def Block.readU16 (b : Block) : Res Half :=
  if b.remaining < 2 then raise .truncatedInput b
  else .ok (b.inp.read16 b.pos) { b with pos := b.pos + 2 }

/-- READ_RAW(n) (R124). The bytes are delivered as a memory of their own, from address 0. -/
def Block.readRaw (n : Nat) (b : Block) : Res Memory :=
  if b.remaining < n then raise .truncatedInput b
  else .ok (b.inp.slice b.pos n) { b with pos := b.pos + n }

/-- READ_U32 (R125). No rule of the block invokes it (D26). -/
def Block.readU32 (b : Block) : Res Word :=
  if b.remaining < 4 then raise .truncatedInput b
  else .ok (b.inp.read32 b.pos) { b with pos := b.pos + 4 }

/-! ### The bit register (R127 to R131) -/

/-- PEEK15 (R127): `BR[31:17]`. -/
def Block.peek15 (b : Block) : Nat := (b.br >>> 17).toNat

/-- REFILL (R129), invoked when `EXTRA` is negative. -/
def Block.refill (b : Block) : Res Unit :=
  b.readU16.bind fun w b =>
    .ok () { b with
      br := b.br ||| (w.setWidth brWidth <<< (-b.extra).toNat)
      extra := b.extra + refillWidth }

/-- The first two statements of CONSUME(n) (R128): shift and subtract. -/
def Block.shiftOut (n : Nat) (b : Block) : Block := { b with br := b.br <<< n, extra := b.extra - n }

/-- CONSUME(n) (R128). -/
def Block.consume (n : Nat) (b : Block) : Res Unit :=
  if (b.shiftOut n).extra < 0 then (b.shiftOut n).refill else .ok () (b.shiftOut n)

/-- The top `n` bits of `BR`, as a number (R130). -/
def Block.topBits (n : Nat) (b : Block) : Nat :=
  if n = 0 then 0 else (b.br >>> (brWidth - n)).toNat

/-- READ_BITS(n) (R130): the bits are taken before the CONSUME. -/
def Block.readBits (n : Nat) (b : Block) : Res Nat :=
  (b.consume n).bind fun _ b' => .ok (b.topBits n) b'

/-- PRIME (R131): the first word is the high half. -/
def Block.prime (b : Block) : Res Unit :=
  b.readU16.bind fun w0 b =>
    b.readU16.bind fun w1 b =>
      .ok () { b with br := w0 ++ w1, extra := 16 }

/-! ### The output and the copy engine (R12, R190 to R192) -/

/-- `OutRead(i)` (R12). -/
def Block.outRead (b : Block) (i : Nat) : Byte := b.out.read i

/-- `OutAppend(b)` (R12). -/
def Block.outAppend (b : Block) (v : Byte) : Block :=
  { b with out := b.out.write b.olen v, olen := b.olen + 1 }

/-- CHECK_BOUNDS (R191). -/
def Block.checkBounds (b : Block) : Res Unit :=
  if b.moff > b.olen then raise .invalidFormat b else .ok () b

/-- CHECK_CAPACITY(n) (R192). -/
def Block.checkCapacity (c : Config) (n : Nat) (b : Block) : Res Unit :=
  if b.olen + n > c.outMax then raise .outputOverflow b else .ok () b

/-- COPY (R190), `n` more bytes: each is read at the current end less `MOFF` and appended before the next is read. -/
def Block.copy : Nat → Block → Block
  | 0, b => b
  | n + 1, b => Block.copy n (b.outAppend (b.outRead (b.olen - b.moff)))

end Sys2Proof.Machine
end

