-- ==== Sys2Proof/Machine/Operands.lean ====
section
/-! DEFINITION. The operand forms of a match: the offset field (R184), the length and its extensions (R185), their order
(R189), and what every match form shares (R183). -/

namespace Sys2Proof.Machine

/-- OFFSET(OBL) (R184). -/
def Block.offset (obl : BitVec 4) (b : Block) : Res Unit :=
  (b.readBits obl.toNat).bind fun field b => .ok () { b with moff := field + 2 ^ obl.toNat }

/-- The length word of R185: `e = v - 15`, which must not be negative. -/
def Block.lengthWord (b : Block) : Res Nat :=
  b.readU16.bind fun v b =>
    if v.toNat < ext16Min then raise .invalidFormat b else .ok (v.toNat - ext16Min) b

/-- The extension of R185: the byte, or the word behind a byte of 255. -/
def Block.lengthExt (b : Block) : Res Nat :=
  b.readByte.bind fun e b => if e = byteEsc then b.lengthWord else .ok e.toNat b

/-- LENGTH(LN) (R185). -/
def Block.length (ln : BitVec 4) (b : Block) : Res Unit :=
  if ln.toNat < nibbleEsc then .ok () { b with mlen := ln.toNat + minMatch }
  else b.lengthExt.bind fun e b => .ok () { b with mlen := e + nibbleEsc + minMatch }

/-- The operand reads of a match in the order `LEN_EXT_FIRST` fixes (R183, R189). -/
def Block.matchOperands (c : Config) (obl ln : BitVec 4) (b : Block) : Res Unit :=
  if c.lenExtFirst then (b.length ln).bind fun _ b => b.offset obl
  else (b.offset obl).bind fun _ b => b.length ln

/-- The checks and the copy that end a match (R183): bounds, then capacity, then COPY. -/
def Block.matchCopy (c : Config) (b : Block) : Res Unit :=
  b.checkBounds.bind fun _ b =>
    (b.checkCapacity c b.mlen).bind fun _ b => .ok () (b.copy b.mlen)

/-- MATCH_COMMON (R183). -/
def Block.matchCommon (c : Config) (obl ln : BitVec 4) (b : Block) : Res Unit :=
  (b.matchOperands c obl ln).bind fun _ b => b.matchCopy c

/-- Where a match reads its extension byte: at `POS`, but two bytes on when the offset bits are taken first and their
CONSUME refills (R189). -/
def Block.extPos (c : Config) (obl : BitVec 4) (b : Block) : Nat :=
  if c.lenExtFirst then b.pos
  else if b.extra - obl.toNat < 0 then b.pos + 2
  else b.pos

/-- The byte that tells MATCH_X8 from MATCH_X16 (R100), where the input holds it. -/
def Block.extByte (c : Config) (obl : BitVec 4) (b : Block) : Option Byte :=
  if b.extPos c obl < b.inLen then some (b.inp.read8 (b.extPos c obl)) else none

end Sys2Proof.Machine
end

