-- ==== Sys2Proof/Machine/Tokens.lean ====
section
/-! DEFINITION. The meanings of the tokens (42_tokens.md), one definition each. A `raise` is a next state too: `STATE` is
`FAILED` in it (R13, R258). -/

namespace Sys2Proof.Machine

/-- A block operation as a step of the machine. -/
def State.finish (s : State) (r : Res Unit) : Host.Outcome State Fault Refusal :=
  .next { s with blk := r.block }

/-- LIT (R181). -/
def execLit (value : Byte) (s : State) : Host.Outcome State Fault Refusal :=
  s.finish ((s.blk.checkCapacity s.cfg 1).bind fun _ b => .ok () (b.outAppend value))

/-- EOB (R182). -/
def execEob (s : State) : Host.Outcome State Fault Refusal :=
  s.finish (.ok () { s.blk with state := .done })

/-- MATCH (R186). -/
def execMatchPlain (obl ln : BitVec 4) (s : State) : Host.Outcome State Fault Refusal :=
  s.finish (s.blk.matchCommon s.cfg obl ln)

/-- MATCH_X8 (R187): MATCH_COMMON with the length nibble 15; the byte its LENGTH reads is not 255. -/
def execMatchX8 (obl : BitVec 4) (s : State) : Host.Outcome State Fault Refusal :=
  s.finish (s.blk.matchCommon s.cfg obl 15)

/-- MATCH_X16 (R188): MATCH_COMMON with the length nibble 15; the byte its LENGTH reads is 255. -/
def execMatchX16 (obl : BitVec 4) (s : State) : Host.Outcome State Fault Refusal :=
  s.finish (s.blk.matchCommon s.cfg obl 15)

end Sys2Proof.Machine
end

