-- ==== Sys2Proof/Machine/Dispatch.lean ====
section
/-! DEFINITION. One arm per instruction. -/

namespace Sys2Proof.Machine

def exec (i : Instr) (s : State) : Host.Outcome State Fault Refusal :=
  match i with
  | .lit value => Sys2Proof.Machine.execLit value s
  | .eob => Sys2Proof.Machine.execEob s
  | .matchPlain obl ln => Sys2Proof.Machine.execMatchPlain obl ln s
  | .matchX8 obl => Sys2Proof.Machine.execMatchX8 obl s
  | .matchX16 obl => Sys2Proof.Machine.execMatchX16 obl s
  | .start => Sys2Proof.Machine.execStart s
  | .reset => Sys2Proof.Machine.execReset s

end Sys2Proof.Machine
end

