-- ==== Sys2Proof/Machine/Table.lean ====
section
/-! DEFINITION. The code lengths, the table builder and the symbol decoder (41_huffman_table.md). -/

namespace Sys2Proof.Machine

/-- LenOf(s) (R150): the low nibble of byte `s div 2` for an even symbol, the high nibble for an odd one. -/
def lenOf (lt : Memory) (s : Nat) : Nat :=
  if s % 2 = 0 then ((lt.read (s / 2)).extractLsb' 0 4).toNat
  else ((lt.read (s / 2)).extractLsb' 4 4).toNat

/-- LOAD_LENTAB (R151). -/
def Block.loadLentab (b : Block) : Res Unit :=
  (b.readRaw lentabBytes).bind fun t b => .ok () { b with lentab := t }

/-- The builder's progress (R152): the fill cursor and the slots `0 .. FC-1` written so far, or the overflow of rule
R153 with the cursor it was found at. -/
inductive Build where
  | filling (fc : Nat) (slots : DecTab)
  | overflow (fc : Nat)
  deriving DecidableEq, Repr

/-- The slots a code of length `len` fills (R152). -/
def runLen (len : Nat) : Nat := 2 ^ (maxLen - len)

/-- The body of the two loops for the pair `L`, `s` (R152), with the check of rule R153 before the run is written. The
slots are written in order from the cursor, so a run goes to the end of the slots written. -/
def fillSymbol (lt : Memory) (len s : Nat) : Build → Build
  | .overflow fc => .overflow fc
  | .filling fc slots =>
    if lenOf lt s = len then
      if fc + runLen len > tsize then .overflow fc
      else .filling (fc + runLen len) (slots ++ [⟨BitVec.ofNat 16 s, runLen len⟩])
    else .filling fc slots

/-- The inner loop (R152) over the symbols that are left, for one length; an overflow ends it at once (R13). -/
def fillSymbols (lt : Memory) (len : Nat) : List Nat → Build → Build
  | [], acc => acc
  | s :: rest, acc =>
    match fillSymbol lt len s acc with
    | .overflow fc => .overflow fc
    | .filling fc slots => fillSymbols lt len rest (.filling fc slots)

/-- The outer loop (R152) over the lengths that are left: for each, every symbol of `syms` in turn. -/
def fillLengths (lt : Memory) (syms : List Nat) : List Nat → Build → Build
  | [], acc => acc
  | len :: rest, acc =>
    match fillSymbols lt len syms acc with
    | .overflow fc => .overflow fc
    | .filling fc slots => fillLengths lt syms rest (.filling fc slots)

/-- The two loops of BUILD_TABLE (R152): lengths 1 to 15 ascending, symbols 0 to 511 ascending, from `FC = 0`. -/
def fillTable (lt : Memory) : Build := fillLengths lt (List.range nsym) (List.range' 1 maxLen) (.filling 0 [])

/-- The end of BUILD_TABLE (R152 to R154): the table stands, or one of the two errors is raised. After a failed build
`DECTAB` is any value (R153): the free table number `draw`. -/
def Block.installTable (draw : Nat) (b : Block) : Build → Res Unit
  | .overflow fc => raise .invalidHuffmanTable { b with fc := fc, dectab := DecTab.free draw }
  | .filling fc slots =>
    if fc = tsize then .ok () { b with fc := fc, dectab := slots }
    else raise .huffmanTableUnderflow { b with fc := fc, dectab := DecTab.free draw }

/-- BUILD_TABLE (R152). -/
def Block.buildTable (draw : Nat) (b : Block) : Res Unit := b.installTable draw (fillTable b.lentab)

/-- DECODE_SYMBOL (R155): `SYM <- DECTAB[IDX][8:0]`, then CONSUME of its code length. -/
def Block.decodeSymbol (b : Block) : Res Unit :=
  let sym := (b.dectab.read b.peek15).setWidth 9
  ({ b with sym := sym }).consume (lenOf b.lentab sym.toNat)

end Sys2Proof.Machine
end

