-- ==== Sys2Proof/Machine/Control.lean ====
section
/-! DEFINITION. The control state machine (43_control.md): what the block does in each state, what a move of the host does,
and how a word is placed where the next instruction is fetched. -/

namespace Sys2Proof.Machine

/-! ### The block's own step -/

/-- SETUP (R223): LOAD_LENTAB, BUILD_TABLE, PRIME, then `DECODING`. -/
def Block.setup (draw : Nat) (b : Block) : Res Unit :=
  b.loadLentab.bind fun _ b =>
    (b.buildTable draw).bind fun _ b =>
      b.prime.bind fun _ b => .ok () { b with state := .decoding }

/-- The SETUP sequence as one transition (R232; log entry 8). A free value may have been drawn. -/
def setupStep (s : State) : State :=
  { s with blk := (s.blk.setup s.draw).block, draw := s.draw + 1 }

/-- The fetch of a token: DECODE_SYMBOL (R155), then the selection of rule R100. -/
def Block.fetchToken (c : Config) (b : Block) : Res Instr :=
  b.decodeSymbol.bind fun _ b =>
    .ok (selectToken b.sym b.remaining (b.extByte c (symObl b.sym))) b

/-- TOKEN_STEP (R180): fetch one token and run it. DEDUCED (log entry 26): the token may be any of rule R100's, for an
input of 260 bytes too (programs P1, P2, P8), although the remark after rule R224's table says that its first token must be
the EOB symbol; C7 of 90_conflicts.md settles only that 260 bytes is the shortest input. -/
def tokenStep (s : State) : Host.Outcome State Fault Refusal :=
  match s.blk.fetchToken s.cfg with
  | .raised b => .next { s with blk := b }
  | .ok i b => exec i { s with blk := b }

/-- One step of the block (R220, R225 to R227): it waits in `IDLE`, `DONE` and `FAILED`. -/
def blockStep (s : State) : Host.Outcome State Fault Refusal :=
  match s.blk.state with
  | .idle => .next s
  | .setup => .next (setupStep s)
  | .decoding => tokenStep s
  | .done => .next s
  | .failed => .next s

/-! ### The host's moves -/

/-- The offset of a register from `BLOCK_BASE` (R42). -/
def HostReg.offset : HostReg → Nat
  | .ctrl => 0x00
  | .status => 0x04
  | .inLen => 0x08
  | .outLen => 0x0C
  | .inPos => 0x10
  | .reserved k => 0x14 + 4 * k

/-- The register at an offset from `BLOCK_BASE` (R42), where a 32-bit register starts there. -/
def HostReg.ofOffset (off : Nat) : Option HostReg :=
  if off % 4 ≠ 0 then none
  else match off / 4 with
    | 0 => some .ctrl
    | 1 => some .status
    | 2 => some .inLen
    | 3 => some .outLen
    | 4 => some .inPos
    | k + 5 => some (.reserved k)

/-- The platform address of a move (R8, R71): a base and an offset or index. No rule depends on it. -/
def HostMove.address (c : Config) : HostMove → Option Nat
  | .run => none
  | .writeReg r _ => some (c.blockBase + r.offset)
  | .readReg r => some (c.blockBase + r.offset)
  | .writeIn i _ => some (c.inBase + i)
  | .readIn i => some (c.inBase + i)
  | .writeOut i _ => some (c.outBase + i)
  | .readOut i => some (c.outBase + i)
  | .assertReset => none

/-- What a register reads as (R42 to R47). While `BUSY = 1`, `OUT_LEN` and `IN_POS` read any value (R285). -/
def State.readReg (s : State) : HostReg → Word
  | .ctrl => 0
  | .status => s.blk.status
  | .inLen => BitVec.ofNat 32 s.blk.inLen
  | .outLen => if s.blk.state.busy then Config.freeWord s.draw else BitVec.ofNat 32 s.blk.olen
  | .inPos => if s.blk.state.busy then Config.freeWord s.draw else BitVec.ofNat 32 s.blk.pos
  | .reserved _ => 0

/-- What byte `i` of the `OUT` window reads as (R229): exact below `OLEN` once `BUSY = 0`, any value otherwise. -/
def State.readOutWindow (s : State) (i : Nat) : Byte :=
  if s.blk.state.busy = false ∧ i < s.blk.olen then s.blk.out.read i else Config.freeByte s.draw

/-- A read of the host returns `v`; the next free value is a fresh one. -/
def State.deliver (s : State) (v : Word) : State := { s with rdata := v, draw := s.draw + 1 }

/-- A write to `CTRL` (R43): the command it holds, and no effect where it holds none. -/
def writeCtrl (v : Word) (s : State) : Host.Outcome State Fault Refusal :=
  match decodeCtrl v with
  | .ok i => exec i s
  | .error _ => .next s

/-- A register write (R42 to R47). `IN_LEN` takes it only while `BUSY = 0` (R45, R230); a read-only or reserved
register ignores it (log entry 11). -/
def State.writeReg (r : HostReg) (v : Word) (s : State) : Host.Outcome State Fault Refusal :=
  match r with
  | .ctrl => writeCtrl v s
  | .inLen =>
    if s.blk.state.busy then .next s
    else .next { s with blk := { s.blk with inLen := v.toNat } }
  | .status => .next s
  | .outLen => .next s
  | .inPos => .next s
  | .reserved _ => .next s

/-- A host write to `IN` (R36, R229): a move of the host only while `BUSY = 0`. -/
def State.writeInWindow (i : Nat) (v : Byte) (s : State) : Host.Outcome State Fault Refusal :=
  if i < s.cfg.inMax then
    if s.blk.state.busy then .refused .inputWriteWhileBusy
    else .next { s with blk := { s.blk with inp := s.blk.inp.write i v } }
  else .fault .outsideInWindow

/-- One move of the host (R229). -/
def hostStep (m : HostMove) (s : State) : Host.Outcome State Fault Refusal :=
  match m with
  | .run => blockStep s
  | .writeReg r v => s.writeReg r v
  | .readReg r => .next (s.deliver (s.readReg r))
  | .writeIn i v => s.writeInWindow i v
  | .readIn i =>
    if i < s.cfg.inMax then .next (s.deliver ((s.blk.inp.read i).setWidth 32)) else .fault .outsideInWindow
  | .writeOut i _ => if i < s.cfg.outMax then .next s else .fault .outsideOutWindow
  | .readOut i =>
    if i < s.cfg.outMax then .next (s.deliver ((s.readOutWindow i).setWidth 32)) else .fault .outsideOutWindow
  | .assertReset => exec .reset s

/-- The next move of the host, if it has one to make, and otherwise the block's own step. -/
def machineStep (s : State) : Host.Outcome State Fault Refusal :=
  match s.host with
  | [] => blockStep s
  | m :: rest => hostStep m { s with host := rest }

/-! ### How a program comes to run -/

/-- The host's launch (R282): the bytes into `IN` from 0 on, their count into `IN_LEN`, then START. -/
def launchMoves (bytes : List Byte) : List HostMove :=
  (bytes.zipIdx.map fun (v, i) => HostMove.writeIn i v) ++
    [.writeReg .inLen (BitVec.ofNat 32 bytes.length), .writeReg .ctrl 1#32]

/-- Bytes written one after the other from address `a` on. -/
def Memory.writeBytes (m : Memory) (a : Nat) : List Byte → Memory
  | [] => m
  | v :: rest => Memory.writeBytes (m.write a v) (a + 1) rest

/-- A block in `DECODING` whose next token is the symbol `sym`: the code lengths are 1 for `sym` and for its neighbour in
the same `LENTAB` byte, so `DECTAB` has two halves and the code of `sym` is its lowest bit (R97, R98, R152). The
extension bytes stand at `POS` and end the input (R99; log entry 17). -/
def Block.holdToken (sym : BitVec 9) (ext : List Byte) (b : Block) : Block :=
  let low := BitVec.ofNat 16 (2 * (sym.toNat / 2))
  { b with
    state := .decoding
    err := .noError
    inp := b.inp.writeBytes b.pos ext
    inLen := b.pos + ext.length
    br := BitVec.ofNat 32 (sym.toNat % 2) <<< 31
    extra := 16
    lentab := [(sym.toNat / 2, 0x11#8)]
    dectab := [⟨low, 16384⟩, ⟨low + 1, 16384⟩]
    fc := tsize }

/-- A token word where the next step fetches its token. -/
def State.placeToken (w : Nat) (s : State) : State :=
  { s with blk := s.blk.holdToken (tableSym w) (tableExt w), host := .run :: s.host }

/-- A `CTRL` word where the next step takes its move of the host. -/
def State.placeCommand (w : Nat) (s : State) : State :=
  { s with host := .writeReg .ctrl (BitVec.ofNat 32 w) :: s.host }

end Sys2Proof.Machine
end

