-- ==== Sys2Proof/Machine/Step.lean ====
section
/-! DEFINITION. The step, and the placing of an instruction's word where the step fetches it. -/

namespace Sys2Proof.Machine

/-- One step of the machine: the host's next move, or the block's own step. -/
def step (s : State) : Host.Outcome State Fault Refusal := machineStep s

/-- The state whose next step fetches and runs the instruction of the bits `w`. -/
def State.withFetchWord (s : State) (nbits w : Nat) : State :=
  if isTokenWidth nbits then s.placeToken w else s.placeCommand w

end Sys2Proof.Machine
end

