-- ==== Sys2Proof/Safety.lean ====
section
/-! DEFINITION. What claims are stated in: the observation of a run (R228), the invariants of rule R50 and of the reset and
control rules, and when two states are in the same decode (R52, R234). -/

namespace Sys2Proof.Machine

/-- The kinds this block raises (R13, R251). -/
def ErrKind.isRaised : ErrKind → Bool
  | .truncatedInput => true
  | .invalidFormat => true
  | .invalidHuffmanTable => true
  | .huffmanTableUnderflow => true
  | .outputOverflow => true
  | .noError => false
  | .unsupportedCompressedBlock => false

/-- `OUT[0 .. OLEN-1]`. -/
def Block.output (b : Block) : List Byte := (List.range b.olen).map b.out.read

/-- What a run that has ended shows (R228). -/
structure Observation where
  state : ControlState
  err : ErrKind
  olen : Nat
  out : List Byte
  pos : Nat
  deriving DecidableEq, Repr

/-- The observation of rule R228. -/
def Block.observe (b : Block) : Observation := ⟨b.state, b.err, b.olen, b.output, b.pos⟩

/-- The state of a block has ended its run (R228). -/
def ControlState.ended (c : ControlState) : Bool := decide (c = .done ∨ c = .failed)

/-- Rule R50, clauses (a) to (e): what holds at every token boundary. -/
structure TokenBoundary (c : Config) (b : Block) : Prop where
  /-- (a) -/
  extraRange : 0 ≤ b.extra ∧ b.extra ≤ 16
  /-- (b): bits [15 - EXTRA : 0] of `BR` are 0. -/
  lowBits : ∀ i : Nat, (i : Int) + b.extra < 16 → b.br.getLsbD i = false
  /-- (c) -/
  posLe : b.pos ≤ b.inLen
  /-- (d) -/
  olenLe : b.olen ≤ c.outMax
  /-- (e) -/
  entries : ∀ i, i < tsize →
    (b.dectab.read i).toNat < nsym ∧
    1 ≤ lenOf b.lentab (b.dectab.read i).toNat ∧ lenOf b.lentab (b.dectab.read i).toNat ≤ maxLen

/-- The invariant every step keeps: canonical memories inside their windows (R30, R60 to R64), `ERR` and `STATE` in
agreement (R32), the ranges and widths of the counters (R30, R195), and rule R50 while `STATE = DECODING`. -/
structure Inv (s : State) : Prop where
  inpWf : s.blk.inp.wf
  inpBelow : s.blk.inp.below s.cfg.inMax
  outWf : s.blk.out.wf
  outBelow : s.blk.out.below s.cfg.outMax
  lentabWf : s.blk.lentab.wf
  lentabBelow : s.blk.lentab.below lentabBytes
  dectabWf : s.blk.dectab.wf
  errNone : s.blk.state ≠ .failed → s.blk.err = .noError
  errRaised : s.blk.state = .failed → s.blk.err.isRaised = true
  olenLe : s.blk.olen ≤ s.cfg.outMax
  inLenLt : s.blk.inLen < 2 ^ 32
  posLt : s.blk.pos < 2 ^ 32
  extraRange : -15 ≤ s.blk.extra ∧ s.blk.extra ≤ 16
  fcLe : s.blk.fc ≤ tsize
  mlenLt : s.blk.mlen < 2 ^ 17
  moffLt : s.blk.moff < 2 ^ 16
  inLenLe : s.blk.state.busy = true → s.blk.inLen ≤ s.cfg.inMax
  setupStart : s.blk.state = .setup → s.blk.pos = 0 ∧ s.blk.olen = 0
  boundary : s.blk.state = .decoding → TokenBoundary s.cfg s.blk

/-- Two blocks are at the same point of the same decode: they agree on the input below `INLEN`, on the output below `OLEN`,
on the cursor and the control state, and, once SETUP has run, on the bit register and on what the tables read as. They may
differ in everything else an earlier decode has left (R52). -/
structure SameDecode (a b : Block) : Prop where
  state : a.state = b.state
  err : a.err = b.err
  inLen : a.inLen = b.inLen
  inp : ∀ i, i < a.inLen → a.inp.read i = b.inp.read i
  pos : a.pos = b.pos
  olen : a.olen = b.olen
  out : ∀ i, i < a.olen → a.out.read i = b.out.read i
  bits : a.state = .decoding → a.br = b.br ∧ a.extra = b.extra
  lens : a.state = .decoding → ∀ s, s < nsym → lenOf a.lentab s = lenOf b.lentab s
  table : a.state = .decoding → ∀ i, i < tsize → a.dectab.read i = b.dectab.read i

end Sys2Proof.Machine
end

