-- ==== Sys2Proof/Certificates/Slice0/Obligations.lean ====
section
/-! DEFINITION. The statements for the provers, and the terms they are stated in. -/

namespace Sys2Proof.Claims

open Sys2Proof.Machine

/-- The Kraft sum of rule R157 over the code lengths a memory holds. -/
def kraft (lt : Memory) : Nat :=
  ((List.range 512).map fun s => if 1 ≤ lenOf lt s then 2 ^ (15 - lenOf lt s) else 0).sum

/-- `S(s)` of rule R98: the slots filled before symbol `s`, that is, by every used symbol that is shorter, or equally long
and smaller. -/
def firstSlot (lt : Memory) (s : Nat) : Nat :=
  ((List.range 512).map fun u =>
    if 1 ≤ lenOf lt u ∧ (lenOf lt u < lenOf lt s ∨ (lenOf lt u = lenOf lt s ∧ u < s))
    then 2 ^ (15 - lenOf lt u) else 0).sum

/-- A block step comes next: the host has no move to make, or it lets the block run. `rest` are its moves after that. (That
the host's moves are a list is the model's choice, log entry 19.) -/
def BlockRuns (s : State) (rest : List HostMove) : Prop :=
  (s.host = [] ∧ rest = []) ∨ s.host = .run :: rest

/-- The RESET command comes next: `CTRL[1]` is written, or the reset input is asserted (R222). -/
def ResetComes (s : State) : Prop :=
  (∃ v rest, s.host = .writeReg .ctrl v :: rest ∧ v.getLsbD 1 = true) ∨ ∃ rest, s.host = .assertReset :: rest

/-- The START command comes next: `CTRL[0]` is written and `CTRL[1]` is not (R43). -/
def StartComes (s : State) : Prop :=
  ∃ v rest, s.host = .writeReg .ctrl v :: rest ∧ v.getLsbD 1 = false ∧ v.getLsbD 0 = true

/-- A move of the host that a running decode allows and that leaves it alone (R229): letting the block run, reading a
register or a byte inside a window, and a write to `CTRL` without RESET, which is ignored while `BUSY = 1` (R221, R230). -/
def LeavesDecodeAlone (c : Config) : HostMove → Prop
  | .run => True
  | .readReg _ => True
  | .writeReg r v => r = .ctrl ∧ v.getLsbD 1 = false
  | .readIn i => i < c.inMax
  | .readOut i => i < c.outMax
  | .writeIn _ _ => False
  | .writeOut _ _ => False
  | .assertReset => False

/-- How many of the host's moves are accesses, and so no step of the block. -/
def accesses (moves : List HostMove) : Nat := (moves.filter fun m => decide (m ≠ .run)).length

/-- The failure of rule R258 as seen from before the token: the reason is recorded and the output is as it was. -/
def Failed (s t : State) (e : ErrKind) : Prop :=
  t.blk.state = .failed ∧ t.blk.err = e ∧ t.blk.out = s.blk.out ∧ t.blk.olen = s.blk.olen

/-- The offset a match reads at this point (R184): the top `obl` bits of `BR`, and `2^obl`. -/
def offsetHere (b : Block) (obl : BitVec 4) : Nat := b.br.toNat / 2 ^ (32 - obl.toNat) + 2 ^ obl.toNat

/-- The offset's CONSUME refills (R128). -/
def refills (b : Block) (obl : BitVec 4) : Bool := decide (b.extra < obl.toNat)

/-- Bytes the offset's refill takes. -/
def refillBytes (b : Block) (obl : BitVec 4) : Nat := if refills b obl then 2 else 0

/-- Where the extension byte stands (R189): at `POS`, but behind the refill word when the offset comes first. -/
def extAt (c : Config) (b : Block) (obl : BitVec 4) : Nat :=
  if c.lenExtFirst then b.pos else b.pos + refillBytes b obl

/-- What a match that completes leaves: the offset, the length, the cursor, the bit register, the appended bytes, every
other byte of `OUT` as before, and nothing else changed. `extBytes` are the extension bytes it took, and `wordAt` is where
its refill word stood. -/
structure MatchDone (s t : State) (obl : BitVec 4) (len extBytes wordAt : Nat) : Prop where
  moff : t.blk.moff = offsetHere s.blk obl
  mlen : t.blk.mlen = len
  pos : t.blk.pos = s.blk.pos + extBytes + refillBytes s.blk obl
  extra : t.blk.extra = s.blk.extra - obl.toNat + (if refills s.blk obl then 16 else 0)
  br : t.blk.br = (s.blk.br <<< obl.toNat) |||
    (if refills s.blk obl then (s.blk.inp.read16 wordAt).setWidth 32 <<< (obl.toNat - s.blk.extra).toNat else 0)
  olen : t.blk.olen = s.blk.olen + len
  appended : ∀ i, i < len →
    t.blk.out.read (s.blk.olen + i) =
      s.blk.out.read (s.blk.olen - offsetHere s.blk obl + i % offsetHere s.blk obl)
  kept : ∀ a, a < s.blk.olen ∨ s.blk.olen + len ≤ a → t.blk.out.read a = s.blk.out.read a
  frame : t = { s with blk := { s.blk with
    moff := t.blk.moff, mlen := t.blk.mlen, pos := t.blk.pos, extra := t.blk.extra, br := t.blk.br,
    olen := t.blk.olen, out := t.blk.out } }

/-- The first error of a match's operand reads and checks, in the order of rule R260 (items 2 to 4), with `POS` after the
last successful read; `none` when the match completes. `ln` is its length nibble. -/
def firstMatchError (c : Config) (b : Block) (obl ln : BitVec 4) : Option (ErrKind × Nat) :=
  let p := extAt c b obl
  let ext := decide (ln = 15)
  let long := ext && decide (b.inp.read p = 0xFF#8)
  let v := (b.inp.read16 (p + 1)).toNat
  let extBytes := if long then 3 else if ext then 1 else 0
  let len := if long then v + 3 else if ext then (b.inp.read p).toNat + 18 else ln.toNat + 3
  let noExt : Option (ErrKind × Nat) :=
    if ext && decide (b.inLen < p + 1) then some (.truncatedInput, p)
    else if long && decide (b.inLen < p + 3) then some (.truncatedInput, p + 1)
    else if long && decide (v < 15) then some (.invalidFormat, p + 3)
    else none
  let noWord (q : Nat) : Option (ErrKind × Nat) :=
    if refills b obl && decide (b.inLen < q + 2) then some (.truncatedInput, q) else none
  let reads := if c.lenExtFirst then noExt.or (noWord (b.pos + extBytes)) else (noWord b.pos).or noExt
  let pos := b.pos + extBytes + refillBytes b obl
  reads.or (if offsetHere b obl > b.olen then some (.invalidFormat, pos)
    else if b.olen + len > c.outMax then some (.outputOverflow, pos) else none)

/-- The instruction a match with this length nibble and this extension byte is (R100, rows 3 to 5). -/
def matchInstr (c : Config) (b : Block) (obl ln : BitVec 4) : Instr :=
  if ln ≠ 15 then .matchPlain obl ln
  else if b.inp.read (extAt c b obl) = 0xFF#8 then .matchX16 obl
  else .matchX8 obl

/-- TOKEN_STEP and MATCH_COMMON as rules R180 and R183 write them, over the number `SYM`. -/
def tokenRule (c : Config) (b : Block) : Res Unit :=
  b.decodeSymbol.bind fun _ b =>
    if b.sym.toNat < 256 then
      (b.checkCapacity c 1).bind fun _ b => .ok () (b.outAppend (BitVec.ofNat 8 b.sym.toNat))
    else if b.sym.toNat = 256 ∧ b.inLen - b.pos = 0 then .ok () { b with state := .done }
    else
      let code := b.sym.toNat - 256
      let ln := BitVec.ofNat 4 (code % 16)
      let obl := BitVec.ofNat 4 (code / 16)
      let operands :=
        if c.lenExtFirst then (b.length ln).bind fun _ b => b.offset obl
        else (b.offset obl).bind fun _ b => b.length ln
      operands.bind fun _ b => b.checkBounds.bind fun _ b =>
        (b.checkCapacity c b.mlen).bind fun _ b => .ok () (b.copy b.mlen)

end Sys2Proof.Claims

open Sys2Proof Sys2Proof.Machine Sys2Proof.Claims

/-! ### Encoding -/

/-- R91, R100, R43: words written out from the encodings of the spec decode to the instructions they stand for. The model's
choice (log entry 17), not the spec's: that symbol 0x100 with nothing behind it is EOB here, that an extension byte stands from
bit 16 on and a length word from bit 24 on, and that the width tells a `CTRL` word from a token. -/
def Obligations.TableWordsDecode : Prop :=
  decodeTableWord 16 0x041 = some (.lit 0x41#8) ∧
  decodeTableWord 16 0x100 = some .eob ∧
  decodeTableWord 16 0x102 = some (.matchPlain 0#4 2#4) ∧
  decodeTableWord 16 0x120 = some (.matchPlain 2#4 0#4) ∧
  decodeTableWord 24 0x02011F = some (.matchX8 1#4) ∧
  decodeTableWord 40 0x012DFF010F = some (.matchX16 0#4) ∧
  decodeTableWord 32 0x00000001 = some .start ∧
  decodeTableWord 32 0xFFFFFFFD = some .start ∧
  decodeTableWord 32 0x00000002 = some .reset ∧
  decodeTableWord 32 0x00000003 = some .reset ∧
  decodeTableWord 32 0x00000000 = none ∧
  decodeTableWord 16 0x0200 = none

/-- R91, R100, R43: for every well-formed instruction and every byte stream it admits behind its word, the decoder reads
back the instruction the encoder wrote. (The image in bytes, the table entry low byte first and the stream behind it, is the
model's choice, log entry 17.) -/
def Obligations.DecodeReadsBackEncode : Prop :=
  ∀ (i : Instr) (rest : List Byte), i.wellFormed = true → i.admits rest = true →
    decodeBytes i.isCommand (encode i ++ rest) = .ok i

/-- R100: the five rows, in their order, for every symbol, remaining count and extension byte. -/
def Obligations.SelectionFollowsTheTable : Prop :=
  ∀ (sym : BitVec 9) (rem : Nat) (ext : Byte),
    (sym.toNat < 256 → selectToken sym rem (some ext) = .lit (BitVec.ofNat 8 sym.toNat)) ∧
    (sym = 0x100#9 ∧ rem = 0 → selectToken sym rem (some ext) = .eob) ∧
    (256 ≤ sym.toNat ∧ ¬ (sym = 0x100#9 ∧ rem = 0) ∧ sym.toNat % 16 ≠ 15 →
      selectToken sym rem (some ext) =
        .matchPlain (BitVec.ofNat 4 ((sym.toNat - 256) / 16)) (BitVec.ofNat 4 (sym.toNat % 16))) ∧
    (256 ≤ sym.toNat ∧ sym.toNat % 16 = 15 ∧ ext ≠ 0xFF#8 →
      selectToken sym rem (some ext) = .matchX8 (BitVec.ofNat 4 ((sym.toNat - 256) / 16))) ∧
    (256 ≤ sym.toNat ∧ sym.toNat % 16 = 15 ∧ ext = 0xFF#8 →
      selectToken sym rem (some ext) = .matchX16 (BitVec.ofNat 4 ((sym.toNat - 256) / 16)))

/-- R103, R104: every match `MATCH len, off`, in its shortest tier and forced into the 16-bit tier, is read back by LENGTH
and OFFSET as that length and that offset. -/
def Obligations.MatchExpansionReadsBack : Prop :=
  ∀ (len off : Nat) (p : MatchParts), 3 ≤ len → len ≤ 65538 → 1 ≤ off → off ≤ 65535 →
    (p = expandMatch len off ∨ (18 ≤ len ∧ p = expandMatchX16 len off)) →
    p.obl ≤ 15 ∧ p.field < 2 ^ p.obl ∧ 256 ≤ p.sym.toNat ∧ (symObl p.sym).toNat = p.obl ∧
    (∀ b : Block, b.pos + p.ext.length ≤ b.inLen →
      (∀ k v, p.ext[k]? = some v → b.inp.read (b.pos + k) = v) →
      b.length (symLn p.sym) = .ok () { b with pos := b.pos + p.ext.length, mlen := len }) ∧
    (∀ b b' : Block, b.br.toNat / 2 ^ (32 - p.obl) = p.field → b.offset (symObl p.sym) = .ok () b' → b'.moff = off)

/-! ### The cursor -/

/-- R65, with R122 to R125: a read that the input can serve delivers the bytes at `POS`, little-endian, and advances `POS`
by its width; nothing else changes. -/
def Obligations.CursorReadsDeliver : Prop :=
  ∀ b : Block,
    (b.pos + 1 ≤ b.inLen → b.readByte = .ok (b.inp.read b.pos) { b with pos := b.pos + 1 }) ∧
    (b.pos + 2 ≤ b.inLen → ∃ w, b.readU16 = .ok w { b with pos := b.pos + 2 } ∧
      w.toNat = (b.inp.read b.pos).toNat + 256 * (b.inp.read (b.pos + 1)).toNat) ∧
    (b.pos + 4 ≤ b.inLen → ∃ d, b.readU32 = .ok d { b with pos := b.pos + 4 } ∧
      d.toNat = (b.inp.read b.pos).toNat + 2 ^ 8 * (b.inp.read (b.pos + 1)).toNat +
        2 ^ 16 * (b.inp.read (b.pos + 2)).toNat + 2 ^ 24 * (b.inp.read (b.pos + 3)).toNat) ∧
    (∀ n, b.pos + n ≤ b.inLen → ∃ m, b.readRaw n = .ok m { b with pos := b.pos + n } ∧
      ∀ i, i < n → m.read i = b.inp.read (b.pos + i))

/-- R126: a read wider than what remains raises `TruncatedInput` and leaves `POS` where it was; a read that answers keeps
`POS <= INLEN`. -/
def Obligations.CursorReadsAreBounded : Prop :=
  ∀ (b : Block), b.pos ≤ b.inLen →
    (b.inLen < b.pos + 1 → b.readByte = .raised { b with err := .truncatedInput, state := .failed }) ∧
    (b.inLen < b.pos + 2 → b.readU16 = .raised { b with err := .truncatedInput, state := .failed }) ∧
    (b.inLen < b.pos + 4 → b.readU32 = .raised { b with err := .truncatedInput, state := .failed }) ∧
    (∀ n, b.inLen < b.pos + n → b.readRaw n = .raised { b with err := .truncatedInput, state := .failed }) ∧
    (∀ v b', b.readByte = .ok v b' → b'.pos ≤ b'.inLen) ∧
    (∀ v b', b.readU16 = .ok v b' → b'.pos ≤ b'.inLen) ∧
    (∀ v b', b.readU32 = .ok v b' → b'.pos ≤ b'.inLen) ∧
    (∀ n v b', b.readRaw n = .ok v b' → b'.pos ≤ b'.inLen)

/-- R67: the widths see the same bytes. -/
def Obligations.ReadWidthsAgree : Prop :=
  ∀ (m : Memory) (p : Nat),
    (m.read16 p).toNat = (m.read8 p).toNat + 256 * (m.read8 (p + 1)).toNat ∧
    (m.read32 p).toNat = (m.read16 p).toNat + 65536 * (m.read16 (p + 2)).toNat

/-! ### The bit register -/

/-- R131, R66: PRIME loads the first two words, the first in the high half, so stream bit `k` is bit `15 - k mod 16` of word
`k div 16`; with fewer than four bytes left it raises, after the words it could read. -/
def Obligations.PrimeLoadsTwoWords : Prop :=
  ∀ b : Block, b.pos ≤ b.inLen →
    (b.pos + 4 ≤ b.inLen → ∃ br, b.prime = .ok () { b with pos := b.pos + 4, br := br, extra := 16 } ∧
      ∀ k, k < 32 → br.getLsbD (31 - k) = (b.inp.read16 (b.pos + 2 * (k / 16))).getLsbD (15 - k % 16)) ∧
    (b.pos + 2 ≤ b.inLen ∧ b.inLen < b.pos + 4 →
      b.prime = .raised { b with pos := b.pos + 2, err := .truncatedInput, state := .failed }) ∧
    (b.inLen < b.pos + 2 → b.prime = .raised { b with err := .truncatedInput, state := .failed })

/-- R132, R133: from a register with 16 to 32 valid bits and zeros below them, CONSUME keeps that form; it takes `n` bits off
the count and adds 16 for the one refill it may make, which moves `POS` by two. -/
def Obligations.ConsumeKeepsTheRegisterForm : Prop :=
  ∀ (b b' : Block) (n : Nat), n ≤ 15 → 0 ≤ b.extra → b.extra ≤ 16 →
    (∀ i : Nat, (i : Int) + b.extra < 16 → b.br.getLsbD i = false) →
    b.consume n = .ok () b' →
      0 ≤ b'.extra ∧ b'.extra ≤ 16 ∧ (∀ i : Nat, (i : Int) + b'.extra < 16 → b'.br.getLsbD i = false) ∧
      (b.extra < n → 1 ≤ b'.extra ∧ b'.extra ≤ 15 ∧ b'.extra = b.extra - n + 16 ∧ b'.pos = b.pos + 2) ∧
      ((n : Int) ≤ b.extra → b'.extra = b.extra - n ∧ b'.pos = b.pos)

/-- R128, R129, R66: CONSUME drops the first `n` bits of the stream held in `BR`; the bits after them move to the front, and
a refill word stands directly behind the valid bits, its bit 15 first. -/
def Obligations.ConsumeShiftsTheStream : Prop :=
  ∀ (b b' : Block) (n e : Nat), n ≤ 15 → b.extra = e → e ≤ 16 →
    (∀ i : Nat, i + e < 16 → b.br.getLsbD i = false) →
    b.consume n = .ok () b' →
      (∀ k, k + n < 16 + e → b'.br.getLsbD (31 - k) = b.br.getLsbD (31 - (k + n))) ∧
      (e < n → ∀ j, j < 16 →
        b'.br.getLsbD (31 - (16 + e - n + j)) = (b.inp.read16 b.pos).getLsbD (15 - j))

/-- R128, R129: a CONSUME raises exactly when it needs a word that the input does not hold, and then `BR` and `EXTRA` keep
the values the shift and the subtraction gave them. -/
def Obligations.ConsumeRaisesForAMissingWord : Prop :=
  ∀ (b : Block) (n : Nat), b.pos ≤ b.inLen →
    ((∃ b', b.consume n = .raised b') ↔ b.extra < n ∧ b.inLen < b.pos + 2) ∧
    (b.extra < n ∧ b.inLen < b.pos + 2 →
      b.consume n = .raised { b with
        br := b.br <<< n, extra := b.extra - n, err := .truncatedInput, state := .failed })

/-- R130: READ_BITS gives the top `n` bits, the most significant first, and does what CONSUME does. -/
def Obligations.ReadBitsTakesTheTopBits : Prop :=
  ∀ (b : Block) (n : Nat), n ≤ 15 →
    (∀ b', b.consume n = .ok () b' → b.readBits n = .ok (b.br.toNat / 2 ^ (32 - n)) b') ∧
    (∀ b', b.consume n = .raised b' → b.readBits n = .raised b') ∧
    b.br.toNat / 2 ^ (32 - n) < 2 ^ n ∧
    (0 ≤ b.extra → b.readBits 0 = .ok 0 b)

/-! ### The table -/

/-- R97, R150, R151: LOAD_LENTAB takes 256 bytes; the length of a symbol is then the low nibble of byte `s div 2` for an even
symbol and the high nibble for an odd one. With fewer bytes left it raises and `POS` stays. -/
def Obligations.LengthTableIsLoaded : Prop :=
  ∀ b : Block, b.pos ≤ b.inLen →
    (b.pos + 256 ≤ b.inLen → ∃ lt, b.loadLentab = .ok () { b with pos := b.pos + 256, lentab := lt } ∧
      ∀ s, s < 512 → lenOf lt s =
        if s % 2 = 0 then (b.inp.read (b.pos + s / 2)).toNat % 16 else (b.inp.read (b.pos + s / 2)).toNat / 16) ∧
    (b.inLen < b.pos + 256 → b.loadLentab = .raised { b with err := .truncatedInput, state := .failed })

/-- R157: the Kraft sum decides the outcome of BUILD_TABLE. -/
def Obligations.KraftSumDecidesTheBuild : Prop :=
  ∀ (b : Block) (draw : Nat),
    ((∃ b', b.buildTable draw = .ok () b') ↔ kraft b.lentab = 32768) ∧
    ((∃ b', b.buildTable draw = .raised b' ∧ b'.err = .invalidHuffmanTable) ↔ 32768 < kraft b.lentab) ∧
    ((∃ b', b.buildTable draw = .raised b' ∧ b'.err = .huffmanTableUnderflow) ↔ kraft b.lentab < 32768)

/-- R98, R156: after a build, the slots of a used symbol are those whose first `L` bits are its code; the code is canonical,
that is, its first slot counts the slots of the shorter codes and of the equally long codes of smaller symbols. -/
def Obligations.CodesAreCanonicalPrefixes : Prop :=
  ∀ (b b' : Block) (draw s : Nat), b.buildTable draw = .ok () b' → s < 512 → 1 ≤ lenOf b.lentab s →
    firstSlot b.lentab s % 2 ^ (15 - lenOf b.lentab s) = 0 ∧
    firstSlot b.lentab s + 2 ^ (15 - lenOf b.lentab s) ≤ 32768 ∧
    ∀ i, i < 32768 →
      (b'.dectab.read i = BitVec.ofNat 16 s ↔
        i / 2 ^ (15 - lenOf b.lentab s) = firstSlot b.lentab s / 2 ^ (15 - lenOf b.lentab s))

/-- R152, R38, R50 (e): a build that succeeds writes `FC` and `DECTAB` only; all 32768 slots hold a used symbol, with bits
[15:9] zero. -/
def Obligations.BuildFillsEverySlot : Prop :=
  ∀ (b b' : Block) (draw : Nat), b.buildTable draw = .ok () b' →
    b' = { b with fc := 32768, dectab := b'.dectab } ∧ b'.dectab.wf ∧
    ∀ i, i < 32768 → (b'.dectab.read i).toNat < 512 ∧ (b'.dectab.read i).extractLsb' 9 7 = 0 ∧
      1 ≤ lenOf b.lentab (b'.dectab.read i).toNat ∧ lenOf b.lentab (b'.dectab.read i).toNat ≤ 15

/-- R153, R154, R13: a build that fails writes `FC`, `DECTAB`, `ERR` and `STATE` only. (What it leaves in `DECTAB` is any
value.) -/
def Obligations.FailedBuildFrame : Prop :=
  ∀ (b b' : Block) (draw : Nat), b.buildTable draw = .raised b' →
    b' = { b with fc := b'.fc, dectab := b'.dectab, err := b'.err, state := .failed } ∧ b'.fc ≤ 32768 ∧
    (b'.err = .invalidHuffmanTable ∨ b'.err = .huffmanTableUnderflow)

/-- R156: over a built table, two registers that begin with the same code decode the same symbol. -/
def Obligations.SymbolDependsOnItsCodeOnly : Prop :=
  ∀ (b b' x y : Block) (draw : Nat), b.buildTable draw = .ok () b' →
    x.dectab = b'.dectab → y.dectab = b'.dectab →
    let s := (x.dectab.read x.peek15).toNat
    x.br.toNat / 2 ^ (32 - lenOf b.lentab s) = y.br.toNat / 2 ^ (32 - lenOf b.lentab s) →
    y.dectab.read y.peek15 = x.dectab.read x.peek15

/-- R155: DECODE_SYMBOL reads `DECTAB` at the top 15 bits of `BR`, and consumes the length of the symbol it finds there. -/
def Obligations.DecodeSymbolLooksUpAndConsumes : Prop :=
  ∀ b : Block, ∃ sym : BitVec 9,
    sym.toNat = (b.dectab.read (b.br.toNat / 2 ^ 17)).toNat % 512 ∧
    b.decodeSymbol = ({ b with sym := sym }).consume (lenOf b.lentab sym.toNat)

/-! ### The token step -/

/-- R180, R3: while `DECODING`, a block step runs the token that the decoded symbol selects, on the state DECODE_SYMBOL left;
when the symbol's refill raises, that failure is the step's result. The token is well-formed. -/
def Obligations.StepRunsTheDecodedToken : Prop :=
  ∀ (s : State) (rest : List HostMove), BlockRuns s rest → s.blk.state = .decoding →
    (∀ b, s.blk.decodeSymbol = .ok () b →
      step s = exec (selectToken b.sym b.remaining (b.extByte s.cfg (symObl b.sym))) { s with blk := b, host := rest } ∧
      (selectToken b.sym b.remaining (b.extByte s.cfg (symObl b.sym))).wellFormed = true) ∧
    (∀ b, s.blk.decodeSymbol = .raised b → step s = .next { s with blk := b, host := rest })

/-- R43: a write to `CTRL` runs the command it holds; RESET wins, a write of zeros has no effect, the reserved bits are
ignored, and a read gives 0. -/
def Obligations.StepRunsTheCtrlCommand : Prop :=
  ∀ (s : State) (v : Word) (rest : List HostMove),
    (s.host = .writeReg .ctrl v :: rest →
      (v.getLsbD 1 = true → step s = exec .reset { s with host := rest }) ∧
      (v.getLsbD 1 = false ∧ v.getLsbD 0 = true → step s = exec .start { s with host := rest }) ∧
      (v.getLsbD 1 = false ∧ v.getLsbD 0 = false → step s = .next { s with host := rest })) ∧
    (s.host = .readReg .ctrl :: rest → ∃ t, step s = .next t ∧ t.rdata = 0 ∧ t.blk = s.blk)

/-- R180, R183: a block step in `DECODING` is TOKEN_STEP with MATCH_COMMON as those rules write them. -/
def Obligations.StepIsTheTokenRule : Prop :=
  ∀ s : State, s.host = [] → s.blk.state = .decoding →
    step s = .next { s with blk := (tokenRule s.cfg s.blk).block }

/-- R155, R253, R260: when the symbol's code asks for a word the input does not hold, the step fails with `TruncatedInput`
before the symbol is interpreted. -/
def Obligations.SymbolWithoutRefillWordFails : Prop :=
  ∀ (s : State), s.host = [] → s.blk.state = .decoding → s.blk.pos ≤ s.blk.inLen → s.blk.inLen < s.blk.pos + 2 →
    let sym := (s.blk.dectab.read s.blk.peek15).setWidth 9
    s.blk.extra < lenOf s.blk.lentab sym.toNat →
      ∃ t, step s = .next t ∧ Failed s t .truncatedInput ∧ t.blk.pos = s.blk.pos ∧ t.blk.sym = sym

/-! ### Literals and the end marker -/

/-- R181, R192: LIT appends its byte, and nothing else changes; at `OLEN = OUT_MAX` it fails with `OutputOverflow` and
appends nothing. Every other byte of `OUT` is as before. -/
def Obligations.LiteralAppendsItsByte : Prop :=
  ∀ (s : State) (v : Byte), s.blk.out.wf →
    (s.blk.olen < s.cfg.outMax →
      exec (.lit v) s = .next { s with blk := { s.blk with
        out := s.blk.out.write s.blk.olen v, olen := s.blk.olen + 1 } }) ∧
    (s.cfg.outMax ≤ s.blk.olen →
      exec (.lit v) s = .next { s with blk := { s.blk with err := .outputOverflow, state := .failed } }) ∧
    ∀ a, (s.blk.out.write s.blk.olen v).read a = if a = s.blk.olen then v else s.blk.out.read a

/-- R182, R93: EOB writes `STATE` and nothing else; the step that decodes symbol 256 with no input left is that EOB, whatever
bits `BR` still holds. -/
def Obligations.EndMarkerEndsTheDecode : Prop :=
  (∀ s : State, exec .eob s = .next { s with blk := { s.blk with state := .done } }) ∧
  ∀ (s : State) (b : Block), s.host = [] → s.blk.state = .decoding → s.blk.decodeSymbol = .ok () b →
    b.sym = 256#9 → b.inLen - b.pos = 0 → step s = .next { s with blk := { b with state := .done } }

/-- R182: `DONE` is entered only by an EOB. -/
def Obligations.DoneOnlyThroughEndMarker : Prop :=
  ∀ (s t : State), step s = .next t → t.blk.state = .done → s.blk.state ≠ .done →
    s.blk.state = .decoding ∧ ∃ b, s.blk.decodeSymbol = .ok () b ∧ b.sym = 256#9 ∧ b.inLen - b.pos = 0 ∧
      t.blk = { b with state := .done }

/-! ### Matches -/

/-- R186 (with R184, R190 to R193): a MATCH whose refill word, where it needs one, is in the input, whose offset is within
the output and whose length fits, completes. -/
def Obligations.MatchPlainCompletes : Prop :=
  ∀ (s : State) (obl ln : BitVec 4), s.blk.out.wf → ln.toNat < 15 →
    s.blk.pos + refillBytes s.blk obl ≤ s.blk.inLen →
    offsetHere s.blk obl ≤ s.blk.olen → s.blk.olen + (ln.toNat + 3) ≤ s.cfg.outMax →
    ∃ t, exec (.matchPlain obl ln) s = .next t ∧ MatchDone s t obl (ln.toNat + 3) 0 s.blk.pos

/-- R187 (with R184, R189 to R193): a MATCH_X8 whose bytes are in the input, whose offset is within the output and whose
length fits, completes with the length `b + 15 + 3`, in either order of the operand reads. -/
def Obligations.MatchX8Completes : Prop :=
  ∀ (s : State) (obl : BitVec 4), s.blk.out.wf →
    s.blk.pos + 1 + refillBytes s.blk obl ≤ s.blk.inLen →
    s.blk.inp.read (extAt s.cfg s.blk obl) ≠ 0xFF#8 →
    offsetHere s.blk obl ≤ s.blk.olen →
    s.blk.olen + ((s.blk.inp.read (extAt s.cfg s.blk obl)).toNat + 15 + 3) ≤ s.cfg.outMax →
    ∃ t, exec (.matchX8 obl) s = .next t ∧
      MatchDone s t obl ((s.blk.inp.read (extAt s.cfg s.blk obl)).toNat + 15 + 3) 1
        (if s.cfg.lenExtFirst then s.blk.pos + 1 else s.blk.pos)

/-- R188 (with R184, R189 to R193): a MATCH_X16 whose bytes are in the input, whose length word is at least 15, whose offset
is within the output and whose length fits, completes with the length `(v - 15) + 15 + 3`, in either order. -/
def Obligations.MatchX16Completes : Prop :=
  ∀ (s : State) (obl : BitVec 4), s.blk.out.wf →
    s.blk.pos + 3 + refillBytes s.blk obl ≤ s.blk.inLen →
    s.blk.inp.read (extAt s.cfg s.blk obl) = 0xFF#8 →
    15 ≤ (s.blk.inp.read16 (extAt s.cfg s.blk obl + 1)).toNat →
    offsetHere s.blk obl ≤ s.blk.olen →
    s.blk.olen + ((s.blk.inp.read16 (extAt s.cfg s.blk obl + 1)).toNat - 15 + 15 + 3) ≤ s.cfg.outMax →
    ∃ t, exec (.matchX16 obl) s = .next t ∧
      MatchDone s t obl ((s.blk.inp.read16 (extAt s.cfg s.blk obl + 1)).toNat - 15 + 15 + 3) 3
        (if s.cfg.lenExtFirst then s.blk.pos + 3 else s.blk.pos)

/-- R260 (items 2 to 4), R258, R253, R254, R257: a match of any form, in either order of its reads, reports the first of its
errors and appends nothing, with `POS` after the last successful read; where none holds it stays in `DECODING`. -/
def Obligations.MatchReportsItsFirstError : Prop :=
  ∀ (s : State) (obl ln : BitVec 4), s.blk.pos ≤ s.blk.inLen → s.blk.state = .decoding →
    match firstMatchError s.cfg s.blk obl ln with
    | some (e, pos) => ∃ t, exec (matchInstr s.cfg s.blk obl ln) s = .next t ∧ Failed s t e ∧ t.blk.pos = pos
    | none => ∃ t, exec (matchInstr s.cfg s.blk obl ln) s = .next t ∧ t.blk.state = .decoding ∧
        t.blk.err = s.blk.err ∧ s.blk.olen < t.blk.olen

/-- R184, R95: OFFSET(OBL) gives an offset in `2^OBL .. 2^(OBL+1) - 1`, within 1..65535; with `OBL = 0` it is 1 and nothing
is consumed. -/
def Obligations.OffsetAssembly : Prop :=
  ∀ (b : Block) (obl : BitVec 4),
    (∀ b', b.offset obl = .ok () b' →
      b'.moff = b.br.toNat / 2 ^ (32 - obl.toNat) + 2 ^ obl.toNat ∧
      2 ^ obl.toNat ≤ b'.moff ∧ b'.moff < 2 ^ (obl.toNat + 1) ∧ 1 ≤ b'.moff ∧ b'.moff ≤ 65535) ∧
    (0 ≤ b.extra → b.offset 0#4 = .ok () { b with moff := 1 })

/-- R185: LENGTH(LN), branch by branch. -/
def Obligations.LengthAssembly : Prop :=
  ∀ (b : Block) (ln : BitVec 4), b.pos ≤ b.inLen →
    (ln.toNat < 15 → b.length ln = .ok () { b with mlen := ln.toNat + 3 }) ∧
    (ln.toNat = 15 →
      (b.inLen < b.pos + 1 → b.length ln = .raised { b with err := .truncatedInput, state := .failed }) ∧
      (b.pos + 1 ≤ b.inLen → b.inp.read b.pos ≠ 255#8 →
        b.length ln = .ok () { b with pos := b.pos + 1, mlen := (b.inp.read b.pos).toNat + 15 + 3 }) ∧
      (b.pos + 1 ≤ b.inLen → b.inp.read b.pos = 255#8 →
        (b.inLen < b.pos + 3 →
          b.length ln = .raised { b with pos := b.pos + 1, err := .truncatedInput, state := .failed }) ∧
        (b.pos + 3 ≤ b.inLen → (b.inp.read16 (b.pos + 1)).toNat < 15 →
          b.length ln = .raised { b with pos := b.pos + 3, err := .invalidFormat, state := .failed }) ∧
        (b.pos + 3 ≤ b.inLen → 15 ≤ (b.inp.read16 (b.pos + 1)).toNat →
          b.length ln = .ok () { b with
            pos := b.pos + 3, mlen := (b.inp.read16 (b.pos + 1)).toNat - 15 + 15 + 3 })))

/-- R189: the order of the operand reads shows in no observation unless an extended match refills for its offset. -/
def Obligations.OrderShowsOnlyOnARefill : Prop :=
  ∀ (s t f : State) (i : Instr) (obl ln : BitVec 4),
    (i = .matchPlain obl ln ∧ ln ≠ 15 ∨ ((i = .matchX8 obl ∨ i = .matchX16 obl) ∧ (obl.toNat : Int) ≤ s.blk.extra)) →
    exec i { s with cfg := { s.cfg with lenExtFirst := true } } = .next t →
    exec i { s with cfg := { s.cfg with lenExtFirst := false } } = .next f →
    t.blk.observe = f.blk.observe

/-! ### The copy engine -/

/-- R193, R190: COPY appends the pattern of period `MOFF` that ends the output, and changes nothing but `OUT` and `OLEN`. -/
def Obligations.CopyRepeatsThePattern : Prop :=
  ∀ (b : Block) (n : Nat), b.out.wf → 1 ≤ b.moff → b.moff ≤ b.olen →
    b.copy n = { b with out := (b.copy n).out, olen := b.olen + n } ∧
    (∀ i, i < n → (b.copy n).out.read (b.olen + i) = b.out.read (b.olen - b.moff + i % b.moff)) ∧
    (∀ a, a < b.olen ∨ b.olen + n ≤ a → (b.copy n).out.read a = b.out.read a)

/-- R76: a circular window of 65536 bytes that holds the last bytes of the output gives a copy the same byte as `OUT`, and
still holds them after an append written at `OLEN mod 65536`. -/
def Obligations.CircularWindowServesCopies : Prop :=
  ∀ (b : Block) (w : Nat → Byte), b.out.wf →
    (∀ i, i < b.olen → b.olen ≤ i + 65536 → w (i % 65536) = b.out.read i) →
    (1 ≤ b.moff → b.moff ≤ 65535 → b.moff ≤ b.olen →
      w ((b.olen - b.moff) % 65536) = b.outRead (b.olen - b.moff)) ∧
    ∀ v i, i < (b.outAppend v).olen → (b.outAppend v).olen ≤ i + 65536 →
      (if i % 65536 = b.olen % 65536 then v else w (i % 65536)) = (b.outAppend v).out.read i

/-! ### Control -/

/-- R221: START is ignored while `BUSY = 1`; above `IN_MAX` it is refused and no state of the block
changes (the mark it leaves is the model's, log entry 9); otherwise it sets
`POS`, `OLEN` and `ERR` to 0 and enters `SETUP`. -/
def Obligations.StartBeginsADecode : Prop :=
  ∀ s : State,
    (s.blk.state = .setup ∨ s.blk.state = .decoding → exec .start s = .next s) ∧
    (s.blk.state ≠ .setup ∧ s.blk.state ≠ .decoding → s.cfg.inMax < s.blk.inLen →
      exec .start s = .next { s with launchRefused := true }) ∧
    (s.blk.state ≠ .setup ∧ s.blk.state ≠ .decoding → s.blk.inLen ≤ s.cfg.inMax →
      exec .start s = .next { s with
        blk := { s.blk with pos := 0, olen := 0, err := .noError, state := .setup }, launchRefused := false })

/-- R222, R281: RESET, from any state, gives every register with a stated reset value that value; the parameters and the
host's moves to come are as before. -/
def Obligations.ResetReturnsToIdle : Prop :=
  ∀ s : State, ∃ t, exec .reset s = .next t ∧
    t.blk.state = .idle ∧ t.blk.err = .noError ∧ t.blk.inLen = 0 ∧ t.blk.pos = 0 ∧ t.blk.olen = 0 ∧
    t.blk.br = 0 ∧ t.blk.extra = 0 ∧ t.cfg = s.cfg ∧ t.host = s.host ∧
    (∀ rest, s.host = .assertReset :: rest → step s = exec .reset { s with host := rest })

/-- R51, R280: the reset values the spec states, whatever the parameters. -/
def Obligations.ResetValues : Prop :=
  ∀ c : Config,
    let s := State.resetWith c
    s.blk.state = .idle ∧ s.blk.err = .noError ∧ s.blk.inLen = 0 ∧ s.blk.pos = 0 ∧ s.blk.olen = 0 ∧
    s.blk.br = 0 ∧ s.blk.extra = 0 ∧ s.readReg .ctrl = 0 ∧ s.readReg .status = 0 ∧ s.readReg .inLen = 0 ∧
    s.readReg .outLen = 0 ∧ s.readReg .inPos = 0 ∧ s.blk.doneOut = false

/-- R224, R223: the outcome of SETUP by input length and Kraft sum. The lengths are those of the first 256 bytes of `IN`.
(SETUP is one step, log entry 8.) -/
def Obligations.InputLengthClasses : Prop :=
  ∀ s : State, s.host = [] → s.blk.state = .setup → s.blk.pos = 0 →
    let k := kraft s.blk.inp
    ∃ t, step s = .next t ∧
      t.blk.olen = s.blk.olen ∧ t.blk.out = s.blk.out ∧ t.blk.inp = s.blk.inp ∧ t.blk.inLen = s.blk.inLen ∧
      (s.blk.inLen < 256 → t.blk.state = .failed ∧ t.blk.err = .truncatedInput ∧ t.blk.pos = 0) ∧
      (256 ≤ s.blk.inLen → 32768 < k →
        t.blk.state = .failed ∧ t.blk.err = .invalidHuffmanTable ∧ t.blk.pos = 256) ∧
      (256 ≤ s.blk.inLen → k < 32768 →
        t.blk.state = .failed ∧ t.blk.err = .huffmanTableUnderflow ∧ t.blk.pos = 256) ∧
      (256 ≤ s.blk.inLen → s.blk.inLen ≤ 257 → k = 32768 →
        t.blk.state = .failed ∧ t.blk.err = .truncatedInput ∧ t.blk.pos = 256) ∧
      (258 ≤ s.blk.inLen → s.blk.inLen ≤ 259 → k = 32768 →
        t.blk.state = .failed ∧ t.blk.err = .truncatedInput ∧ t.blk.pos = 258) ∧
      (260 ≤ s.blk.inLen → k = 32768 →
        t.blk.state = .decoding ∧ t.blk.err = s.blk.err ∧ t.blk.pos = 260 ∧ t.blk.extra = 16 ∧
        t.blk.br = s.blk.inp.read16 256 ++ s.blk.inp.read16 258 ∧ t.blk.fc = 32768 ∧
        ∀ u, u < 512 → lenOf t.blk.lentab u = lenOf s.blk.inp u)

/-- R220: the control state machine. Every step that answers leaves `STATE` alone or makes one of the transitions of the
table; a block step always leaves `SETUP`. -/
def Obligations.ControlTransitions : Prop :=
  ∀ (s t : State), step s = .next t →
    (t.blk.state = s.blk.state ∨
      (ResetComes s ∧ t.blk.state = .idle) ∨
      (StartComes s ∧ s.blk.state ≠ .setup ∧ s.blk.state ≠ .decoding ∧ s.blk.inLen ≤ s.cfg.inMax ∧
        t.blk.state = .setup) ∨
      ((∃ rest, BlockRuns s rest) ∧ s.blk.state = .setup ∧ (t.blk.state = .decoding ∨ t.blk.state = .failed)) ∨
      ((∃ rest, BlockRuns s rest) ∧ s.blk.state = .decoding ∧ (t.blk.state = .done ∨ t.blk.state = .failed))) ∧
    (ResetComes s → t.blk.state = .idle) ∧
    ((∃ rest, BlockRuns s rest) → t.blk.state ≠ .setup)

/-- R226, R227, R71: in `DONE`, `FAILED` and `IDLE` the block changes nothing of itself. -/
def Obligations.TerminalStatesWait : Prop :=
  ∀ (s : State) (rest : List HostMove), BlockRuns s rest →
    (s.blk.state = .done ∨ s.blk.state = .failed ∨ s.blk.state = .idle) → step s = .next { s with host := rest }

/-- R259, R258: a token that fails appends nothing; the reason is one of the kinds R13 lists. -/
def Obligations.FailingTokenAppendsNothing : Prop :=
  ∀ (s t : State) (rest : List HostMove), BlockRuns s rest → s.blk.state = .decoding → step s = .next t →
    t.blk.state = .failed →
      Failed s t t.blk.err ∧ t.blk.err.isRaised = true ∧ t.blk.state.busy = false

/-- R39, R62: the output is append-only while decoding: the bytes below `OLEN` stay, `OLEN` never falls, and a step appends
at most 65538 bytes. -/
def Obligations.OutputIsAppendOnly : Prop :=
  ∀ (s t : State) (rest : List HostMove), BlockRuns s rest → s.blk.state = .decoding → s.blk.out.wf → step s = .next t →
    s.blk.olen ≤ t.blk.olen ∧ t.blk.olen ≤ s.blk.olen + 65538 ∧
    (∀ a, a < s.blk.olen ∨ t.blk.olen ≤ a → t.blk.out.read a = s.blk.out.read a)

/-- R60, R75, R64, R158: no block step writes `IN` or `INLEN`; while decoding, none writes `LENTAB`, `DECTAB` or `FC`. -/
def Obligations.InputAndTablesAreReadOnly : Prop :=
  ∀ (s t : State) (rest : List HostMove), BlockRuns s rest → step s = .next t →
    t.blk.inp = s.blk.inp ∧ t.blk.inLen = s.blk.inLen ∧ t.host = rest ∧
    (s.blk.state = .decoding →
      t.blk.lentab = s.blk.lentab ∧ t.blk.dectab = s.blk.dectab ∧ t.blk.fc = s.blk.fc)

/-- R35, R126: a block step never moves `POS` back, and never past `INLEN`. -/
def Obligations.CursorOnlyAdvances : Prop :=
  ∀ (s t : State) (rest : List HostMove), BlockRuns s rest → s.blk.pos ≤ s.blk.inLen → step s = .next t →
    s.blk.pos ≤ t.blk.pos ∧ t.blk.pos ≤ t.blk.inLen

/-- R8: no step changes the parameters. That a step takes exactly the first of the host's moves, where there is one, is the
model's choice (log entry 19), not the spec's. -/
def Obligations.ParametersAreFixed : Prop :=
  ∀ (s t : State), step s = .next t → t.cfg = s.cfg ∧ t.host = s.host.tail

/-- A block step, and every move of the host that keeps to its windows and to its duty, completes (R229). The three stops are
the model's answers (log entries 10 and 12). -/
def Obligations.OnlyTheHostCanStopTheModel : Prop :=
  ∀ s : State, (∃ t, step s = .next t) ∨
    (∃ i v rest, s.host = .writeIn i v :: rest ∧ s.cfg.inMax ≤ i ∧ step s = .fault .outsideInWindow) ∨
    (∃ i rest, s.host = .readIn i :: rest ∧ s.cfg.inMax ≤ i ∧ step s = .fault .outsideInWindow) ∨
    (∃ i v rest, s.host = .writeOut i v :: rest ∧ s.cfg.outMax ≤ i ∧ step s = .fault .outsideOutWindow) ∨
    (∃ i rest, s.host = .readOut i :: rest ∧ s.cfg.outMax ≤ i ∧ step s = .fault .outsideOutWindow) ∨
    (∃ i v rest, s.host = .writeIn i v :: rest ∧ s.blk.state.busy = true ∧ step s = .refused .inputWriteWhileBusy)

/-! ### Invariants, termination, isolation -/

/-- R50, R32: the invariant holds after reset, whatever the parameters. For the memories and temporaries this rests on the
model's reset values (log entry 4). -/
def Obligations.InvariantHoldsAtReset : Prop := ∀ c : Config, Inv (State.resetWith c)

/-- R50, R32: every step keeps the invariant. -/
def Obligations.InvariantIsKept : Prop := ∀ s t : State, Inv s → step s = .next t → Inv t

/-- R231: from an accepted START the block ends after SETUP and at most `8*(INLEN - 256) + 1` TOKEN_STEPs, while the host
makes any moves that leave the decode alone (it polls `STATUS`, say), each a step of the machine beside the block's; and each
TOKEN_STEP appends at most 65538 bytes. The model's choices, not the spec's: that SETUP counts as one step (log entry 8), that a
host access takes a step of its own (log entry 19), and that a read of `IN` is such a move (log entry 21). -/
def Obligations.EveryRunEnds : Prop :=
  (∀ s : State, (∀ m ∈ s.host, LeavesDecodeAlone s.cfg m) → s.blk.state = .setup → s.blk.pos = 0 →
    ∃ n t, n ≤ 8 * (s.blk.inLen - 256) + 2 + accesses s.host ∧ Sys2Proof.core.run n s = .next t ∧
      t.blk.state.ended = true) ∧
  (∀ (s t : State) (rest : List HostMove), BlockRuns s rest → s.blk.state = .decoding → step s = .next t →
    t.blk.olen ≤ s.blk.olen + 65538)

/-- R52, R234: two blocks at the same point of the same decode stay so, whatever else an earlier decode left in them, and
show the same observation; an accepted START with the same input puts any two blocks at the same point. -/
def Obligations.EarlierDecodesDoNotShow : Prop :=
  (∀ s t : State, s.cfg = t.cfg → s.host = [] → t.host = [] → s.blk.out.wf → t.blk.out.wf → SameDecode s.blk t.blk →
    ∃ s' t', step s = .next s' ∧ step t = .next t' ∧ SameDecode s'.blk t'.blk) ∧
  (∀ a b : Block, SameDecode a b → a.observe = b.observe) ∧
  (∀ s t : State, s.cfg = t.cfg → s.blk.inLen = t.blk.inLen →
    (∀ i, i < s.blk.inLen → s.blk.inp.read i = t.blk.inp.read i) →
    s.blk.state.busy = false → t.blk.state.busy = false → s.blk.inLen ≤ s.cfg.inMax →
    ∃ s' t', exec .start s = .next s' ∧ exec .start t = .next t' ∧ SameDecode s'.blk t'.blk)

/-! ### The host's side -/

/-- R44, R31, R251: the fields of `STATUS`. -/
def Obligations.StatusWord : Prop :=
  ∀ b : Block,
    b.status.extractLsb' 0 3 = (match b.state with
      | .idle => 0#3 | .setup => 1#3 | .decoding => 2#3 | .done => 3#3 | .failed => 4#3) ∧
    b.status.getLsbD 3 = decide (b.state = .setup ∨ b.state = .decoding) ∧
    b.status.extractLsb' 4 3 = (match b.err with
      | .noError => 0#3 | .truncatedInput => 1#3 | .invalidFormat => 2#3 | .invalidHuffmanTable => 3#3
      | .huffmanTableUnderflow => 4#3 | .unsupportedCompressedBlock => 5#3 | .outputOverflow => 6#3) ∧
    b.status.extractLsb' 7 25 = 0

/-- R42, R45 to R47: what the host's register reads return. While `BUSY = 1` nothing is said of `OUT_LEN` and `IN_POS`. A read
changes nothing of the block. (The counters are read modulo 2^32, log entry 25.) -/
def Obligations.HostReadsRegisters : Prop :=
  ∀ (s : State) (r : HostReg) (rest : List HostMove), s.host = .readReg r :: rest →
    ∃ t, step s = .next t ∧ t.blk = s.blk ∧ t.host = rest ∧
      (match r with
        | .ctrl => t.rdata = 0
        | .status => t.rdata = s.blk.status
        | .inLen => t.rdata = BitVec.ofNat 32 s.blk.inLen
        | .outLen => s.blk.state.busy = false → t.rdata = BitVec.ofNat 32 s.blk.olen
        | .inPos => s.blk.state.busy = false → t.rdata = BitVec.ofNat 32 s.blk.pos
        | .reserved _ => t.rdata = 0)

/-- R45, R42: `IN_LEN` takes a write while `BUSY = 0`. Derived (log entry 11): a write to a read-only or reserved register
changes nothing. -/
def Obligations.HostWritesRegisters : Prop :=
  ∀ (s : State) (v : Word) (rest : List HostMove),
    (s.host = .writeReg .inLen v :: rest → s.blk.state.busy = false →
      step s = .next { s with blk := { s.blk with inLen := v.toNat }, host := rest }) ∧
    (∀ r, (r = .status ∨ r = .outLen ∨ r = .inPos ∨ ∃ k, r = .reserved k) → s.host = .writeReg r v :: rest →
      step s = .next { s with host := rest })

/-- R230: while `BUSY = 1`, writes to `IN_LEN` and writes to `CTRL` other than RESET are ignored, and a write to `IN` has no
meaning. That the model answers that write with a refusal is the model's choice (log entry 10); rule R230 only calls it outside
the spec. -/
def Obligations.HostWritesWhileBusy : Prop :=
  ∀ (s : State) (rest : List HostMove), s.blk.state.busy = true →
    (∀ v, s.host = .writeReg .inLen v :: rest → step s = .next { s with host := rest }) ∧
    (∀ v, s.host = .writeReg .ctrl v :: rest → v.getLsbD 1 = false → step s = .next { s with host := rest }) ∧
    (∀ i v, s.host = .writeIn i v :: rest → i < s.cfg.inMax → step s = .refused .inputWriteWhileBusy)

/-- R36, R42, R229: the host fills `IN` byte by byte while `BUSY = 0`, and every other byte of `IN` is then as before; it
reads `OUT` exactly below `OLEN` once the decode has ended. R70: no read of a window changes the block, whatever the state and
the index; what a read of `OUT` returns otherwise is not claimed (R285). Derived: a read of `IN` is exact at any time (log entry
21), and a write to `OUT`, which R42 gives as read-only and which only OutAppend writes (R30, R39, R62), changes nothing (log
entry 11). -/
def Obligations.HostWindows : Prop :=
  ∀ (s : State) (i : Nat) (rest : List HostMove), s.blk.inp.wf →
    (∀ v, s.host = .writeIn i v :: rest → i < s.cfg.inMax → s.blk.state.busy = false →
      ∃ t, step s = .next t ∧ t = { s with blk := { s.blk with inp := t.blk.inp }, host := rest } ∧
        ∀ a, t.blk.inp.read a = if a = i then v else s.blk.inp.read a) ∧
    (s.host = .readIn i :: rest → i < s.cfg.inMax →
      ∃ t, step s = .next t ∧ t.blk = s.blk ∧ t.host = rest ∧ t.rdata.toNat = (s.blk.inp.read i).toNat) ∧
    (∀ v, s.host = .writeOut i v :: rest → i < s.cfg.outMax → step s = .next { s with host := rest }) ∧
    (s.host = .readOut i :: rest → i < s.cfg.outMax →
      ∃ t, step s = .next t ∧ t.blk = s.blk ∧ t.host = rest ∧
        (i < s.blk.olen → s.blk.state.ended = true → t.rdata.toNat = (s.blk.out.read i).toNat))

/-- R262: the level output `done` is 1 exactly in `DONE` and `FAILED`, and falls when a START or a RESET is accepted. -/
def Obligations.DoneOutputLevel : Prop :=
  (∀ b : Block, b.doneOut = true ↔ b.state = .done ∨ b.state = .failed) ∧
  (∀ s t : State, s.blk.doneOut = true → s.blk.inLen ≤ s.cfg.inMax → exec .start s = .next t → t.blk.doneOut = false) ∧
  (∀ s t : State, exec .reset s = .next t → t.blk.doneOut = false)

/-- R13: `raise E` writes `ERR` and `STATE`, and nothing else; `BUSY` is 0 then (R258). It never returns: what follows it does
not run. -/
def Obligations.RaiseWritesErrAndState : Prop :=
  ∀ (b : Block) (e : ErrKind), (raise e b : Res Unit) = .raised { b with err := e, state := .failed } ∧
    (b.fail e).state.busy = false ∧ ∀ f : Unit → Block → Res Unit, (raise e b).bind f = raise e b

/-! ### The shortest input -/

/-- R224 after its table, as C7 of 90_conflicts.md settles it: 260 bytes is the shortest input that can decode successfully, since
no run over a shorter one reaches `DONE`; and a 260-byte input whose first token is the EOB symbol (vector SU6) ends at once in
`DONE` with `OLEN = 0`. DEDUCED (log entry 26): the second clause is about inputs whose first token is EOB, and other 260-byte
inputs decode literals and matches first (programs P1, P2, P8). (SETUP is one step, log entry 8.) -/
def Obligations.ShortestInputThatDecodes : Prop :=
  ∀ s : State, s.host = [] → s.blk.state = .setup → s.blk.pos = 0 → s.blk.olen = 0 →
    (s.blk.inLen < 260 → ∀ n t, Sys2Proof.core.run n s = .next t → t.blk.state ≠ .done) ∧
    (s.blk.inLen = 260 → kraft s.blk.inp = 32768 →
      ∃ u, step s = .next u ∧ u.blk.state = .decoding ∧
        ((u.blk.dectab.read u.blk.peek15).toNat = 256 →
          ∃ t, step u = .next t ∧ t.blk.state = .done ∧ t.blk.olen = 0 ∧ t.blk.pos = 260 ∧ t.blk.out = s.blk.out))
end

