-- ==== Sys2Proof/Laws/State.lean ====
section
/-! SUPPORT. One lemma per field per named update of the block and of the machine, so that no proof unfolds an update. -/

namespace Sys2Proof.Machine

/-! ### `Block.fail` (R13) -/

@[simp] theorem Block.fail_state (e : ErrKind) (b : Block) : (b.fail e).state = .failed := rfl
@[simp] theorem Block.fail_err (e : ErrKind) (b : Block) : (b.fail e).err = e := rfl
@[simp] theorem Block.fail_inp (e : ErrKind) (b : Block) : (b.fail e).inp = b.inp := rfl
@[simp] theorem Block.fail_inLen (e : ErrKind) (b : Block) : (b.fail e).inLen = b.inLen := rfl
@[simp] theorem Block.fail_pos (e : ErrKind) (b : Block) : (b.fail e).pos = b.pos := rfl
@[simp] theorem Block.fail_br (e : ErrKind) (b : Block) : (b.fail e).br = b.br := rfl
@[simp] theorem Block.fail_extra (e : ErrKind) (b : Block) : (b.fail e).extra = b.extra := rfl
@[simp] theorem Block.fail_lentab (e : ErrKind) (b : Block) : (b.fail e).lentab = b.lentab := rfl
@[simp] theorem Block.fail_dectab (e : ErrKind) (b : Block) : (b.fail e).dectab = b.dectab := rfl
@[simp] theorem Block.fail_fc (e : ErrKind) (b : Block) : (b.fail e).fc = b.fc := rfl
@[simp] theorem Block.fail_out (e : ErrKind) (b : Block) : (b.fail e).out = b.out := rfl
@[simp] theorem Block.fail_olen (e : ErrKind) (b : Block) : (b.fail e).olen = b.olen := rfl
@[simp] theorem Block.fail_sym (e : ErrKind) (b : Block) : (b.fail e).sym = b.sym := rfl
@[simp] theorem Block.fail_mlen (e : ErrKind) (b : Block) : (b.fail e).mlen = b.mlen := rfl
@[simp] theorem Block.fail_moff (e : ErrKind) (b : Block) : (b.fail e).moff = b.moff := rfl

/-! ### `Block.shiftOut` (R128) -/

@[simp] theorem Block.shiftOut_state (n : Nat) (b : Block) : (b.shiftOut n).state = b.state := rfl
@[simp] theorem Block.shiftOut_err (n : Nat) (b : Block) : (b.shiftOut n).err = b.err := rfl
@[simp] theorem Block.shiftOut_inp (n : Nat) (b : Block) : (b.shiftOut n).inp = b.inp := rfl
@[simp] theorem Block.shiftOut_inLen (n : Nat) (b : Block) : (b.shiftOut n).inLen = b.inLen := rfl
@[simp] theorem Block.shiftOut_pos (n : Nat) (b : Block) : (b.shiftOut n).pos = b.pos := rfl
@[simp] theorem Block.shiftOut_br (n : Nat) (b : Block) : (b.shiftOut n).br = b.br <<< n := rfl
@[simp] theorem Block.shiftOut_extra (n : Nat) (b : Block) : (b.shiftOut n).extra = b.extra - n := rfl
@[simp] theorem Block.shiftOut_lentab (n : Nat) (b : Block) : (b.shiftOut n).lentab = b.lentab := rfl
@[simp] theorem Block.shiftOut_dectab (n : Nat) (b : Block) : (b.shiftOut n).dectab = b.dectab := rfl
@[simp] theorem Block.shiftOut_fc (n : Nat) (b : Block) : (b.shiftOut n).fc = b.fc := rfl
@[simp] theorem Block.shiftOut_out (n : Nat) (b : Block) : (b.shiftOut n).out = b.out := rfl
@[simp] theorem Block.shiftOut_olen (n : Nat) (b : Block) : (b.shiftOut n).olen = b.olen := rfl
@[simp] theorem Block.shiftOut_sym (n : Nat) (b : Block) : (b.shiftOut n).sym = b.sym := rfl
@[simp] theorem Block.shiftOut_mlen (n : Nat) (b : Block) : (b.shiftOut n).mlen = b.mlen := rfl
@[simp] theorem Block.shiftOut_moff (n : Nat) (b : Block) : (b.shiftOut n).moff = b.moff := rfl

/-! ### `Block.outAppend` (R12) -/

@[simp] theorem Block.outAppend_state (v : Byte) (b : Block) : (b.outAppend v).state = b.state := rfl
@[simp] theorem Block.outAppend_err (v : Byte) (b : Block) : (b.outAppend v).err = b.err := rfl
@[simp] theorem Block.outAppend_inp (v : Byte) (b : Block) : (b.outAppend v).inp = b.inp := rfl
@[simp] theorem Block.outAppend_inLen (v : Byte) (b : Block) : (b.outAppend v).inLen = b.inLen := rfl
@[simp] theorem Block.outAppend_pos (v : Byte) (b : Block) : (b.outAppend v).pos = b.pos := rfl
@[simp] theorem Block.outAppend_br (v : Byte) (b : Block) : (b.outAppend v).br = b.br := rfl
@[simp] theorem Block.outAppend_extra (v : Byte) (b : Block) : (b.outAppend v).extra = b.extra := rfl
@[simp] theorem Block.outAppend_lentab (v : Byte) (b : Block) : (b.outAppend v).lentab = b.lentab := rfl
@[simp] theorem Block.outAppend_dectab (v : Byte) (b : Block) : (b.outAppend v).dectab = b.dectab := rfl
@[simp] theorem Block.outAppend_fc (v : Byte) (b : Block) : (b.outAppend v).fc = b.fc := rfl
@[simp] theorem Block.outAppend_out (v : Byte) (b : Block) : (b.outAppend v).out = b.out.write b.olen v := rfl
@[simp] theorem Block.outAppend_olen (v : Byte) (b : Block) : (b.outAppend v).olen = b.olen + 1 := rfl
@[simp] theorem Block.outAppend_sym (v : Byte) (b : Block) : (b.outAppend v).sym = b.sym := rfl
@[simp] theorem Block.outAppend_mlen (v : Byte) (b : Block) : (b.outAppend v).mlen = b.mlen := rfl
@[simp] theorem Block.outAppend_moff (v : Byte) (b : Block) : (b.outAppend v).moff = b.moff := rfl

/-! ### `Block.launch` (R221) -/

@[simp] theorem Block.launch_state (b : Block) : (b.launch).state = .setup := rfl
@[simp] theorem Block.launch_err (b : Block) : (b.launch).err = .noError := rfl
@[simp] theorem Block.launch_inp (b : Block) : (b.launch).inp = b.inp := rfl
@[simp] theorem Block.launch_inLen (b : Block) : (b.launch).inLen = b.inLen := rfl
@[simp] theorem Block.launch_pos (b : Block) : (b.launch).pos = 0 := rfl
@[simp] theorem Block.launch_br (b : Block) : (b.launch).br = b.br := rfl
@[simp] theorem Block.launch_extra (b : Block) : (b.launch).extra = b.extra := rfl
@[simp] theorem Block.launch_lentab (b : Block) : (b.launch).lentab = b.lentab := rfl
@[simp] theorem Block.launch_dectab (b : Block) : (b.launch).dectab = b.dectab := rfl
@[simp] theorem Block.launch_fc (b : Block) : (b.launch).fc = b.fc := rfl
@[simp] theorem Block.launch_out (b : Block) : (b.launch).out = b.out := rfl
@[simp] theorem Block.launch_olen (b : Block) : (b.launch).olen = 0 := rfl
@[simp] theorem Block.launch_sym (b : Block) : (b.launch).sym = b.sym := rfl
@[simp] theorem Block.launch_mlen (b : Block) : (b.launch).mlen = b.mlen := rfl
@[simp] theorem Block.launch_moff (b : Block) : (b.launch).moff = b.moff := rfl

/-! ### The reset state (R51) -/

@[simp] theorem Block.reset_state : Block.reset.state = .idle := rfl
@[simp] theorem Block.reset_err : Block.reset.err = .noError := rfl
@[simp] theorem Block.reset_inp : Block.reset.inp = [] := rfl
@[simp] theorem Block.reset_inLen : Block.reset.inLen = 0 := rfl
@[simp] theorem Block.reset_pos : Block.reset.pos = 0 := rfl
@[simp] theorem Block.reset_br : Block.reset.br = 0 := rfl
@[simp] theorem Block.reset_extra : Block.reset.extra = 0 := rfl
@[simp] theorem Block.reset_lentab : Block.reset.lentab = [] := rfl
@[simp] theorem Block.reset_dectab : Block.reset.dectab = [⟨0, 32768⟩] := rfl
@[simp] theorem Block.reset_fc : Block.reset.fc = 0 := rfl
@[simp] theorem Block.reset_out : Block.reset.out = [] := rfl
@[simp] theorem Block.reset_olen : Block.reset.olen = 0 := rfl
@[simp] theorem Block.reset_sym : Block.reset.sym = 0 := rfl
@[simp] theorem Block.reset_mlen : Block.reset.mlen = 0 := rfl
@[simp] theorem Block.reset_moff : Block.reset.moff = 0 := rfl

@[simp] theorem State.resetWith_blk (c : Config) : (State.resetWith c).blk = Block.reset := rfl
@[simp] theorem State.resetWith_cfg (c : Config) : (State.resetWith c).cfg = c := rfl
@[simp] theorem State.resetWith_host (c : Config) : (State.resetWith c).host = [] := rfl
@[simp] theorem State.resetWith_rdata (c : Config) : (State.resetWith c).rdata = 0 := rfl
@[simp] theorem State.resetWith_draw (c : Config) : (State.resetWith c).draw = 0 := rfl
@[simp] theorem State.resetWith_launchRefused (c : Config) : (State.resetWith c).launchRefused = false := rfl

/-! ### `State.deliver` -/

@[simp] theorem State.deliver_blk (v : Word) (s : State) : (s.deliver v).blk = s.blk := rfl
@[simp] theorem State.deliver_cfg (v : Word) (s : State) : (s.deliver v).cfg = s.cfg := rfl
@[simp] theorem State.deliver_host (v : Word) (s : State) : (s.deliver v).host = s.host := rfl
@[simp] theorem State.deliver_rdata (v : Word) (s : State) : (s.deliver v).rdata = v := rfl
@[simp] theorem State.deliver_draw (v : Word) (s : State) : (s.deliver v).draw = s.draw + 1 := rfl
@[simp] theorem State.deliver_launchRefused (v : Word) (s : State) : (s.deliver v).launchRefused = s.launchRefused := rfl

/-! ### `State.placeCommand` -/

@[simp] theorem State.placeCommand_blk (w : Nat) (s : State) : (s.placeCommand w).blk = s.blk := rfl
@[simp] theorem State.placeCommand_cfg (w : Nat) (s : State) : (s.placeCommand w).cfg = s.cfg := rfl
@[simp] theorem State.placeCommand_host (w : Nat) (s : State) : (s.placeCommand w).host = .writeReg .ctrl (BitVec.ofNat 32 w) :: s.host := rfl
@[simp] theorem State.placeCommand_rdata (w : Nat) (s : State) : (s.placeCommand w).rdata = s.rdata := rfl
@[simp] theorem State.placeCommand_draw (w : Nat) (s : State) : (s.placeCommand w).draw = s.draw := rfl
@[simp] theorem State.placeCommand_launchRefused (w : Nat) (s : State) : (s.placeCommand w).launchRefused = s.launchRefused := rfl

/-! ### `State.placeToken` -/

@[simp] theorem State.placeToken_blk (w : Nat) (s : State) : (s.placeToken w).blk = s.blk.holdToken (tableSym w) (tableExt w) := rfl
@[simp] theorem State.placeToken_cfg (w : Nat) (s : State) : (s.placeToken w).cfg = s.cfg := rfl
@[simp] theorem State.placeToken_host (w : Nat) (s : State) : (s.placeToken w).host = .run :: s.host := rfl
@[simp] theorem State.placeToken_rdata (w : Nat) (s : State) : (s.placeToken w).rdata = s.rdata := rfl
@[simp] theorem State.placeToken_draw (w : Nat) (s : State) : (s.placeToken w).draw = s.draw := rfl
@[simp] theorem State.placeToken_launchRefused (w : Nat) (s : State) : (s.placeToken w).launchRefused = s.launchRefused := rfl

/-! ### `setupStep` (R223) -/

@[simp] theorem setupStep_blk (s : State) : (setupStep s).blk = (s.blk.setup s.draw).block := rfl
@[simp] theorem setupStep_cfg (s : State) : (setupStep s).cfg = s.cfg := rfl
@[simp] theorem setupStep_host (s : State) : (setupStep s).host = s.host := rfl
@[simp] theorem setupStep_rdata (s : State) : (setupStep s).rdata = s.rdata := rfl
@[simp] theorem setupStep_draw (s : State) : (setupStep s).draw = s.draw + 1 := rfl
@[simp] theorem setupStep_launchRefused (s : State) : (setupStep s).launchRefused = s.launchRefused := rfl

/-! ### `Res` -/

@[simp] theorem Res.bind_ok {α β : Type} (a : α) (b : Block) (f : α → Block → Res β) :
    (Res.ok a b).bind f = f a b := rfl
@[simp] theorem Res.bind_raised {α β : Type} (b : Block) (f : α → Block → Res β) :
    (Res.raised b : Res α).bind f = .raised b := rfl
@[simp] theorem Res.block_ok {α : Type} (a : α) (b : Block) : (Res.ok a b).block = b := rfl
@[simp] theorem Res.block_raised {α : Type} (b : Block) : (Res.raised b : Res α).block = b := rfl
@[simp] theorem raise_eq {α : Type} (e : ErrKind) (b : Block) : (raise e b : Res α) = .raised (b.fail e) := rfl
@[simp] theorem State.finish_eq (s : State) (r : Res Unit) : s.finish r = .next { s with blk := r.block } := rfl

/-- Taking a bind apart when it answers: both parts answered. -/
theorem Res.bind_eq_ok {α β : Type} {r : Res α} {f : α → Block → Res β} {v : β} {b' : Block}
    (h : r.bind f = .ok v b') : ∃ a b, r = .ok a b ∧ f a b = .ok v b' := by
  cases r with
  | ok a b => exact ⟨a, b, rfl, h⟩
  | raised b => cases h

/-- Taking a bind apart when it raises: the first part raised, or it answered and the second raised. -/
theorem Res.bind_eq_raised {α β : Type} {r : Res α} {f : α → Block → Res β} {b' : Block}
    (h : r.bind f = .raised b') : r = .raised b' ∨ ∃ a b, r = .ok a b ∧ f a b = .raised b' := by
  cases r with
  | ok a b => exact .inr ⟨a, b, rfl, h⟩
  | raised b => cases h; exact .inl rfl

end Sys2Proof.Machine
end

