-- ==== Sys2Proof/Laws/Memory.lean ====
section
/-! SUPPORT. The laws of byte memories and of the run-length table: a read after a write, and the canonical forms kept by
every operation. -/

namespace Sys2Proof.Machine

/-! ### Byte memories -/

@[simp] theorem Memory.read_nil (a : Nat) : Memory.read [] a = 0 := rfl

theorem Memory.read_cons (k : Nat) (v : Byte) (m : Memory) (a : Nat) :
    Memory.read ((k, v) :: m) a = if k = a then v else Memory.read m a := rfl

/-- Below the first listed address a memory reads as 0. -/
theorem Memory.read_lt {m : Memory} {a : Nat} (h : ∀ c ∈ m, a < c.1) : m.read a = 0 := by
  induction m with
  | nil => rfl
  | cons c m ih =>
    obtain ⟨k, v⟩ := c
    have hk := h (k, v) (by simp)
    rw [Memory.read_cons, if_neg (by simp at hk; omega)]
    exact ih fun c hc => h c (by simp [hc])

/-- A read after a write. -/
theorem Memory.read_write {m : Memory} (hm : m.wf) (a : Nat) (v : Byte) (i : Nat) :
    (m.write a v).read i = if i = a then v else m.read i := by
  induction m with
  | nil =>
    simp only [Memory.write]
    split <;> rename_i h
    · simp [h]
    · rw [Memory.read_cons]; simp [eq_comm]
  | cons c m ih =>
    obtain ⟨k, w⟩ := c
    obtain ⟨hs, hz⟩ := hm
    rw [List.pairwise_cons] at hs
    have htail : Memory.wf m := ⟨hs.2, fun c hc => hz c (by simp [hc])⟩
    have hlt : ∀ a, a ≤ k → Memory.read m a = 0 := fun a ha =>
      Memory.read_lt fun c hc => Nat.lt_of_le_of_lt ha (hs.1 c hc)
    simp only [Memory.write]
    split
    · rename_i h
      split
      · rename_i hv
        by_cases hi : i = a
        · subst hi; rw [if_pos rfl, Memory.read_cons, if_neg (by omega), hlt i (by omega), hv]
        · rw [if_neg hi]
      · rw [Memory.read_cons]; simp [eq_comm]
    · split
      · rename_i h hak
        subst hak
        split
        · rename_i hv
          by_cases hi : i = a
          · subst hi; rw [if_pos rfl, hlt i (Nat.le_refl _), hv]
          · rw [if_neg hi, Memory.read_cons, if_neg (by omega)]
        · rw [Memory.read_cons, Memory.read_cons]
          by_cases hi : i = a
          · subst hi; simp
          · rw [if_neg (by omega), if_neg hi, if_neg (by omega)]
      · rename_i h hak
        rw [Memory.read_cons, Memory.read_cons, ih htail]
        by_cases hi : k = i
        · subst hi; simp; omega
        · simp [hi]

/-- Where the addresses of a written memory come from. -/
theorem Memory.mem_write {m : Memory} {a : Nat} {v : Byte} {c : Host.Cell} (h : c ∈ m.write a v) :
    c ∈ m ∨ (c = (a, v) ∧ v ≠ 0) := by
  induction m with
  | nil =>
    simp only [Memory.write] at h
    split at h <;> simp_all
  | cons d m ih =>
    obtain ⟨k, w⟩ := d
    simp only [Memory.write] at h
    split at h
    · split at h
      · exact .inl h
      · rcases List.mem_cons.mp h with rfl | h
        · exact .inr ⟨rfl, ‹_›⟩
        · exact .inl h
    · split at h
      · split at h
        · exact .inl (List.mem_cons_of_mem _ h)
        · rcases List.mem_cons.mp h with rfl | h
          · exact .inr ⟨rfl, ‹_›⟩
          · exact .inl (List.mem_cons_of_mem _ h)
      · rcases List.mem_cons.mp h with rfl | h
        · exact .inl (by simp)
        · rcases ih h with h | h
          · exact .inl (List.mem_cons_of_mem _ h)
          · exact .inr h

/-- A write keeps the canonical form. -/
theorem Memory.write_wf {m : Memory} (hm : m.wf) (a : Nat) (v : Byte) : (m.write a v).wf := by
  refine ⟨?_, fun c hc => ?_⟩
  · obtain ⟨hs, hz⟩ := hm
    induction m with
    | nil => simp only [Memory.write]; split <;> simp
    | cons c m ih =>
      obtain ⟨k, w⟩ := c
      have hs' := hs
      rw [List.pairwise_cons] at hs
      simp only [Memory.write]
      split
      · rename_i hak
        split
        · exact hs'
        · refine List.pairwise_cons.mpr ⟨fun c hc => ?_, hs'⟩
          rcases List.mem_cons.mp hc with rfl | hc
          · exact hak
          · exact Nat.lt_trans hak (hs.1 c hc)
      · split
        · rename_i hak
          split
          · exact hs.2
          · exact List.pairwise_cons.mpr ⟨fun c hc => by simpa [hak] using hs.1 c hc, hs.2⟩
        · refine List.pairwise_cons.mpr ⟨fun c hc => ?_, ih hs.2 fun c hc => hz c (by simp [hc])⟩
          rcases Memory.mem_write hc with hc | ⟨rfl, -⟩
          · exact hs.1 c hc
          · simp; omega
  · rcases Memory.mem_write hc with hc | ⟨rfl, h⟩
    · exact hm.2 c hc
    · exact h

/-- A write below `n` keeps every listed address below `n`. -/
theorem Memory.write_below {m : Memory} {n a : Nat} (hm : m.below n) (ha : a < n) (v : Byte) :
    (m.write a v).below n := fun c hc => by
  rcases Memory.mem_write hc with hc | ⟨rfl, -⟩
  · exact hm c hc
  · exact ha

/-- A slice reads as the bytes it was cut from. -/
theorem Memory.read_slice (m : Memory) (p n i : Nat) :
    (m.slice p n).read i = if i < n then m.read (p + i) else 0 := by
  induction m with
  | nil => simp [Memory.slice]
  | cons c m ih =>
    obtain ⟨k, v⟩ := c
    simp only [Memory.slice]
    split
    · rename_i h
      rw [Memory.read_cons, Memory.read_cons, ih]
      by_cases hi : k - p = i
      · rw [if_pos hi, if_pos (by omega), if_pos (by omega)]
      · rw [if_neg hi, if_neg (by omega : ¬ k = p + i)]
    · rename_i h
      rw [ih, Memory.read_cons]
      split
      · rw [if_neg (by omega)]
      · rfl

theorem Memory.mem_slice {m : Memory} {p n : Nat} {c : Host.Cell} (h : c ∈ m.slice p n) :
    c.1 < n ∧ (p + c.1, c.2) ∈ m := by
  induction m with
  | nil => simp [Memory.slice] at h
  | cons d m ih =>
    obtain ⟨k, v⟩ := d
    simp only [Memory.slice] at h
    split at h
    · rcases List.mem_cons.mp h with rfl | h
      · exact ⟨by simp; omega, by simp; left; omega⟩
      · exact ⟨(ih h).1, List.mem_cons_of_mem _ (ih h).2⟩
    · exact ⟨(ih h).1, List.mem_cons_of_mem _ (ih h).2⟩

/-- A slice is in canonical form, with its addresses below its length. -/
theorem Memory.slice_wf {m : Memory} (hm : m.wf) (p n : Nat) : (m.slice p n).wf := by
  refine ⟨?_, fun c hc => hm.2 (p + c.1, c.2) (Memory.mem_slice hc).2⟩
  obtain ⟨hs, -⟩ := hm
  induction m with
  | nil => simp [Memory.slice]
  | cons c m ih =>
    obtain ⟨k, v⟩ := c
    rw [List.pairwise_cons] at hs
    simp only [Memory.slice]
    split
    · refine List.pairwise_cons.mpr ⟨fun d hd => ?_, ih hs.2⟩
      have := hs.1 _ (Memory.mem_slice hd).2
      simp at this ⊢; omega
    · exact ih hs.2

theorem Memory.slice_below (m : Memory) (p n : Nat) : (m.slice p n).below n := fun _ hc =>
  (Memory.mem_slice hc).1

/-- In canonical form, memories that read alike are equal. -/
theorem Memory.ext_of_wf {m m' : Memory} (hm : m.wf) (hm' : m'.wf) (h : ∀ a, m.read a = m'.read a) : m = m' := by
  induction m generalizing m' with
  | nil =>
    cases m' with
    | nil => rfl
    | cons c m' =>
      have := h c.1
      rw [Memory.read_nil, Memory.read_cons, if_pos rfl] at this
      exact absurd this.symm (hm'.2 c (by simp))
  | cons c m ih =>
    obtain ⟨k, v⟩ := c
    obtain ⟨hs, hz⟩ := hm
    rw [List.pairwise_cons] at hs
    cases m' with
    | nil =>
      have := h k
      rw [Memory.read_cons, if_pos rfl] at this
      exact absurd this (hz (k, v) (by simp))
    | cons d m' =>
      obtain ⟨k', v'⟩ := d
      obtain ⟨hs', hz'⟩ := hm'
      rw [List.pairwise_cons] at hs'
      have hv : v ≠ 0 := hz (k, v) (by simp)
      have hv' : v' ≠ 0 := hz' (k', v') (by simp)
      have lo : ∀ a, a ≤ k → Memory.read m a = 0 := fun a ha =>
        Memory.read_lt fun c hc => Nat.lt_of_le_of_lt ha (hs.1 c hc)
      have lo' : ∀ a, a ≤ k' → Memory.read m' a = 0 := fun a ha =>
        Memory.read_lt fun c hc => Nat.lt_of_le_of_lt ha (hs'.1 c hc)
      have hk : k = k' := by
        rcases Nat.lt_trichotomy k k' with hlt | heq | hlt
        · have := h k
          rw [Memory.read_cons, if_pos rfl, Memory.read_cons, if_neg (by omega), lo' k (by omega)] at this
          exact absurd this hv
        · exact heq
        · have := h k'
          rw [Memory.read_cons, if_neg (by omega), Memory.read_cons, if_pos rfl, lo k' (by omega)] at this
          exact absurd this.symm hv'
      subst hk
      have hvv : v = v' := by simpa [Memory.read_cons] using h k
      subst hvv
      congr 1
      refine ih ⟨hs.2, fun c hc => hz c (by simp [hc])⟩ ⟨hs'.2, fun c hc => hz' c (by simp [hc])⟩ fun a => ?_
      by_cases ha : k = a
      · subst ha; rw [lo k (Nat.le_refl _), lo' k (Nat.le_refl _)]
      · simpa [Memory.read_cons, ha] using h a

/-- Writing several bytes keeps the canonical form. -/
theorem Memory.writeBytes_wf {m : Memory} (hm : m.wf) (a : Nat) (vs : List Byte) : (m.writeBytes a vs).wf := by
  induction vs generalizing m a with
  | nil => exact hm
  | cons v vs ih => exact ih (Memory.write_wf hm a v) (a + 1)

/-! ### The decoding table -/

@[simp] theorem DecTab.size_nil : DecTab.size [] = 0 := rfl
@[simp] theorem DecTab.size_cons (r : Run) (t : DecTab) : DecTab.size (r :: t) = r.len + DecTab.size t := rfl

@[simp] theorem DecTab.size_append (t u : DecTab) : DecTab.size (t ++ u) = t.size + u.size := by
  induction t with
  | nil => simp
  | cons r t ih => simp [ih]; omega

/-- An entry of two tables laid end to end. -/
theorem DecTab.read_append (t u : DecTab) (i : Nat) :
    DecTab.read (t ++ u) i = if i < t.size then t.read i else u.read (i - t.size) := by
  induction t generalizing i with
  | nil => simp
  | cons r t ih =>
    have hs : DecTab.size (r :: t) = r.len + DecTab.size t := rfl
    rw [List.cons_append, DecTab.read, DecTab.read]
    by_cases h : i < r.len
    · have h' : i < DecTab.size (r :: t) := by omega
      rw [if_pos h, if_pos h', if_pos h]
    · rw [if_neg h, if_neg h, ih]
      by_cases h' : i < DecTab.size (r :: t)
      · have h2 : i - r.len < DecTab.size t := by omega
        rw [if_pos h2, if_pos h']
      · have h2 : ¬ i - r.len < DecTab.size t := by omega
        rw [if_neg h2, if_neg h', hs]; congr 1; omega

/-- An entry inside the table is the word of one of its runs. -/
theorem DecTab.exists_run {t : DecTab} {i : Nat} (h : i < t.size) : ∃ r ∈ t, 0 < r.len ∧ t.read i = r.entry := by
  induction t generalizing i with
  | nil => simp at h
  | cons r t ih =>
    simp only [DecTab.read]
    by_cases hi : i < r.len
    · exact ⟨r, by simp, by omega, by rw [if_pos hi]⟩
    · rw [DecTab.size_cons] at h
      obtain ⟨q, hq, hl, he⟩ := ih (i := i - r.len) (by omega)
      exact ⟨q, by simp [hq], hl, by rw [if_neg hi, he]⟩

@[simp] theorem DecTab.size_consEntry (v : Half) (t : DecTab) : (DecTab.cons v t).size = t.size + 1 := by
  cases t with
  | nil => rfl
  | cons r t => simp only [DecTab.cons]; split <;> simp <;> omega

@[simp] theorem DecTab.size_ofEntries (l : List Half) : (DecTab.ofEntries l).size = l.length := by
  induction l with
  | nil => rfl
  | cons v l ih => simp [DecTab.ofEntries, ih]

/-- The runs of `cons` are not empty and neighbours differ, where this held before. -/
theorem DecTab.cons_runs {v : Half} {t : DecTab} (hl : ∀ r ∈ t, 0 < r.len)
    (hc : t.IsChain (fun r q => r.entry ≠ q.entry)) :
    (∀ r ∈ DecTab.cons v t, 0 < r.len) ∧ (DecTab.cons v t).IsChain (fun r q => r.entry ≠ q.entry) := by
  cases t with
  | nil => simp [DecTab.cons]
  | cons r t =>
    simp only [DecTab.cons]
    split
    · rename_i h
      constructor
      · intro q hq
        rcases List.mem_cons.mp hq with rfl | hq
        · simp
        · exact hl q (List.mem_cons_of_mem _ hq)
      · subst h
        cases t with
        | nil => simp
        | cons q t => simpa [List.isChain_cons_cons] using hc
    · rename_i h
      constructor
      · intro q hq
        rcases List.mem_cons.mp hq with rfl | hq
        · simp
        · exact hl q hq
      · exact List.isChain_cons_cons.mpr ⟨fun e => h e.symm, hc⟩

/-- The free table is a whole table in canonical form. -/
theorem DecTab.free_wf (n : Nat) : (DecTab.free n).wf := by
  have key : ∀ l : List Half, (∀ r ∈ DecTab.ofEntries l, 0 < r.len) ∧
      (DecTab.ofEntries l).IsChain (fun r q => r.entry ≠ q.entry) := by
    intro l
    induction l with
    | nil => simp [DecTab.ofEntries]
    | cons v l ih => exact DecTab.cons_runs ih.1 ih.2
  exact ⟨by simp [DecTab.free], (key _).1, (key _).2⟩

end Sys2Proof.Machine
end

