-- ==== Sys2Proof/Laws/Cursor.lean ====
section
/-! SUPPORT. What the cursor and the bit register can do (40_bitstream.md): one lemma per outcome of each operation, one
lemma that takes an outcome apart, and what each leaves unchanged. -/

namespace Sys2Proof.Machine

variable {b b' : Block} {n : Nat}

/-! ### Cursor reads (R122 to R126) -/

theorem Block.readByte_ok (h : 1 ≤ b.remaining) :
    b.readByte = .ok (b.inp.read b.pos) { b with pos := b.pos + 1 } := by
  rw [Block.readByte, if_neg (by omega)]; rfl

theorem Block.readByte_short (h : b.remaining < 1) : b.readByte = .raised (b.fail .truncatedInput) := by
  rw [Block.readByte, if_pos h]; rfl

theorem Block.readU16_ok (h : 2 ≤ b.remaining) :
    b.readU16 = .ok (b.inp.read16 b.pos) { b with pos := b.pos + 2 } := by
  rw [Block.readU16, if_neg (by omega)]

theorem Block.readU16_short (h : b.remaining < 2) : b.readU16 = .raised (b.fail .truncatedInput) := by
  rw [Block.readU16, if_pos h]; rfl

theorem Block.readRaw_ok (h : n ≤ b.remaining) :
    b.readRaw n = .ok (b.inp.slice b.pos n) { b with pos := b.pos + n } := by
  rw [Block.readRaw, if_neg (by omega)]

theorem Block.readRaw_short (h : b.remaining < n) : b.readRaw n = .raised (b.fail .truncatedInput) := by
  rw [Block.readRaw, if_pos h]; rfl

theorem Block.readU32_ok (h : 4 ≤ b.remaining) :
    b.readU32 = .ok (b.inp.read32 b.pos) { b with pos := b.pos + 4 } := by
  rw [Block.readU32, if_neg (by omega)]

theorem Block.readU32_short (h : b.remaining < 4) : b.readU32 = .raised (b.fail .truncatedInput) := by
  rw [Block.readU32, if_pos h]; rfl

/-! ### CONSUME (R128, R129) -/

/-- The block a CONSUME with a refill leaves. -/
def Block.consumed (n : Nat) (b : Block) : Block :=
  { b with
    br := b.br <<< n ||| ((b.inp.read16 b.pos).setWidth 32 <<< (n - b.extra).toNat)
    extra := b.extra - n + 16
    pos := b.pos + 2 }

theorem Block.consume_within (h : (n : Int) ≤ b.extra) : b.consume n = .ok () (b.shiftOut n) := by
  rw [Block.consume, if_neg (by simp; omega)]

theorem Block.consume_refills (h : b.extra < n) (hr : 2 ≤ b.remaining) :
    b.consume n = .ok () (b.consumed n) := by
  rw [Block.consume, if_pos (by simp; omega), Block.refill, Block.readU16_ok (by simpa [Block.remaining] using hr)]
  simp [Block.consumed, Block.shiftOut]

theorem Block.consume_short (h : b.extra < n) (hr : b.remaining < 2) :
    b.consume n = .raised ((b.shiftOut n).fail .truncatedInput) := by
  rw [Block.consume, if_pos (by simp; omega), Block.refill, Block.readU16_short (by simpa [Block.remaining] using hr)]
  rfl

/-- Everything a CONSUME can answer. -/
theorem Block.consume_ok_cases {u : Unit} (h : b.consume n = .ok u b') :
    ((n : Int) ≤ b.extra ∧ b' = b.shiftOut n) ∨ (b.extra < n ∧ 2 ≤ b.remaining ∧ b' = b.consumed n) := by
  by_cases he : (n : Int) ≤ b.extra
  · rw [Block.consume_within he] at h; cases h; exact .inl ⟨he, rfl⟩
  · by_cases hr : 2 ≤ b.remaining
    · rw [Block.consume_refills (by omega) hr] at h; cases h; exact .inr ⟨by omega, hr, rfl⟩
    · rw [Block.consume_short (by omega) (by omega)] at h; cases h

/-- A CONSUME raises only for a refill that the input cannot serve. -/
theorem Block.consume_raised_cases (h : b.consume n = .raised b') :
    b.extra < n ∧ b.remaining < 2 ∧ b' = (b.shiftOut n).fail .truncatedInput := by
  by_cases he : (n : Int) ≤ b.extra
  · rw [Block.consume_within he] at h; cases h
  · by_cases hr : 2 ≤ b.remaining
    · rw [Block.consume_refills (by omega) hr] at h; cases h
    · rw [Block.consume_short (by omega) (by omega)] at h; cases h; exact ⟨by omega, by omega, rfl⟩

/-- A CONSUME writes `BR`, `EXTRA`, `POS`, and on failure `ERR` and `STATE`. -/
theorem Block.consume_frame (n : Nat) (b : Block) :
    ∃ br extra pos err state, (b.consume n).block =
      { b with br := br, extra := extra, pos := pos, err := err, state := state } := by
  cases h : b.consume n with
  | ok u b' =>
    rcases Block.consume_ok_cases h with ⟨-, rfl⟩ | ⟨-, -, rfl⟩ <;> exact ⟨_, _, _, _, _, rfl⟩
  | raised b' =>
    obtain ⟨-, -, rfl⟩ := Block.consume_raised_cases h
    exact ⟨_, _, _, _, _, rfl⟩

/-! ### READ_BITS (R130) and PRIME (R131) -/

theorem Block.topBits_lt (hn : n ≤ 32) : b.topBits n < 2 ^ n := by
  unfold Block.topBits
  split
  · subst n; simp
  · rw [BitVec.toNat_ushiftRight, Nat.shiftRight_eq_div_pow]
    refine Nat.div_lt_of_lt_mul ?_
    rw [← Nat.pow_add, show 32 - n + n = 32 by omega]
    exact b.br.isLt

theorem Block.readBits_ok_cases {f : Nat} (h : b.readBits n = .ok f b') :
    f = b.topBits n ∧ b.consume n = .ok () b' := by
  obtain ⟨u, b1, h1, h2⟩ := Res.bind_eq_ok h
  cases h2; exact ⟨rfl, h1⟩

theorem Block.readBits_raised_cases (h : b.readBits n = .raised b') : b.consume n = .raised b' := by
  rcases Res.bind_eq_raised h with h | ⟨u, b1, -, h2⟩
  · exact h
  · cases h2

/-- The block PRIME leaves. -/
def Block.primed (b : Block) : Block :=
  { b with pos := b.pos + 4, br := b.inp.read16 b.pos ++ b.inp.read16 (b.pos + 2), extra := 16 }

theorem Block.prime_ok (h : 4 ≤ b.remaining) : b.prime = .ok () b.primed := by
  rw [Block.prime, Block.readU16_ok (by omega)]
  simp only [Res.bind_ok]
  rw [Block.readU16_ok (by simp [Block.remaining] at h ⊢; omega)]
  rfl

theorem Block.prime_short_first (h : b.remaining < 2) : b.prime = .raised (b.fail .truncatedInput) := by
  rw [Block.prime, Block.readU16_short h]; rfl

theorem Block.prime_short_second (h : 2 ≤ b.remaining) (h' : b.remaining < 4) :
    b.prime = .raised ({ b with pos := b.pos + 2 }.fail .truncatedInput) := by
  rw [Block.prime, Block.readU16_ok h]
  simp only [Res.bind_ok]
  rw [Block.readU16_short (by simp [Block.remaining] at h' ⊢; omega)]
  rfl

/-! ### The copy engine (R190 to R192) -/

@[simp] theorem Block.copy_zero (b : Block) : b.copy 0 = b := rfl

theorem Block.copy_succ (n : Nat) (b : Block) :
    b.copy (n + 1) = (b.outAppend (b.outRead (b.olen - b.moff))).copy n := rfl

/-- COPY writes `OUT` and `OLEN` only (R190). -/
theorem Block.copy_frame (n : Nat) (b : Block) : ∃ out, b.copy n = { b with out := out, olen := b.olen + n } := by
  induction n generalizing b with
  | zero => exact ⟨b.out, rfl⟩
  | succ n ih =>
    obtain ⟨out, h⟩ := ih (b.outAppend (b.outRead (b.olen - b.moff)))
    refine ⟨out, ?_⟩
    rw [Block.copy_succ, h]
    simp [Block.outAppend]; omega

theorem Block.copy_olen (n : Nat) (b : Block) : (b.copy n).olen = b.olen + n := by
  obtain ⟨out, h⟩ := b.copy_frame n; rw [h]

theorem Block.copy_moff (n : Nat) (b : Block) : (b.copy n).moff = b.moff := by
  obtain ⟨out, h⟩ := b.copy_frame n; rw [h]

/-- COPY keeps `OUT` canonical. -/
theorem Block.copy_out_wf (hb : b.out.wf) (n : Nat) : (b.copy n).out.wf := by
  induction n generalizing b with
  | zero => exact hb
  | succ n ih => exact ih (Memory.write_wf hb _ _)

/-- COPY leaves every byte outside the appended ones alone. -/
theorem Block.copy_read_outside (hb : b.out.wf) (n i : Nat) (hi : i < b.olen ∨ b.olen + n ≤ i) :
    (b.copy n).out.read i = b.out.read i := by
  induction n generalizing b with
  | zero => rfl
  | succ n ih =>
    rw [Block.copy_succ, ih (b := b.outAppend _) (Memory.write_wf hb _ _) (by simp; omega)]
    simp only [Block.outAppend_out]
    rw [Memory.read_write hb, if_neg (by omega)]

/-- COPY lists no address at or above the new `OLEN` that was not listed. -/
theorem Block.copy_out_below {m : Nat} (hb : b.out.below m) (n : Nat) (hn : b.olen + n ≤ m) : (b.copy n).out.below m := by
  induction n generalizing b with
  | zero => exact hb
  | succ n ih => exact ih (b := b.outAppend _) (Memory.write_below hb (by omega) _) (by simp; omega)

theorem Block.checkBounds_ok (h : b.moff ≤ b.olen) : b.checkBounds = .ok () b := by
  rw [Block.checkBounds, if_neg (by omega)]

theorem Block.checkBounds_fails (h : b.olen < b.moff) : b.checkBounds = .raised (b.fail .invalidFormat) := by
  rw [Block.checkBounds, if_pos h]; rfl

theorem Block.checkCapacity_ok {c : Config} (h : b.olen + n ≤ c.outMax) : b.checkCapacity c n = .ok () b := by
  rw [Block.checkCapacity, if_neg (by omega)]

theorem Block.checkCapacity_fails {c : Config} (h : c.outMax < b.olen + n) :
    b.checkCapacity c n = .raised (b.fail .outputOverflow) := by
  rw [Block.checkCapacity, if_pos h]; rfl

end Sys2Proof.Machine
end

