-- ==== Sys2Proof/Laws/Table.lean ====
section
/-! SUPPORT. What the table builder does (R151 to R154), said once over the list of the used symbols in code order, and what
the symbol decoder can do (R155). -/

namespace Sys2Proof.Machine

variable {b b' : Block} {lt : Memory}

theorem lenOf_lt (lt : Memory) (s : Nat) : lenOf lt s < 16 := by
  unfold lenOf; split <;> exact BitVec.isLt _

/-! ### LOAD_LENTAB (R151) -/

theorem Block.loadLentab_ok (h : 256 ≤ b.remaining) :
    b.loadLentab = .ok () { b with pos := b.pos + 256, lentab := b.inp.slice b.pos 256 } := by
  rw [Block.loadLentab, Block.readRaw_ok h]; rfl

theorem Block.loadLentab_short (h : b.remaining < 256) : b.loadLentab = .raised (b.fail .truncatedInput) := by
  rw [Block.loadLentab, Block.readRaw_short h]; rfl

/-! ### BUILD_TABLE (R152 to R154) -/

/-- The used symbols in the order their codes are assigned: by length, then by symbol (R98, R152). -/
def codeOrder (lt : Memory) : List Nat :=
  (List.range' 1 15).flatMap fun len => (List.range 512).filter fun s => lenOf lt s = len

/-- The run of slots symbol `s` fills. -/
def runOf (lt : Memory) (s : Nat) : Run := ⟨BitVec.ofNat 16 s, runLen (lenOf lt s)⟩

/-- How many slots a list of symbols fills. -/
def slotsOf (lt : Memory) (l : List Nat) : Nat := (l.map fun s => runLen (lenOf lt s)).sum

/-- One used symbol, at its own length. -/
def fillNext (lt : Memory) (acc : Build) (s : Nat) : Build := fillSymbol lt (lenOf lt s) s acc

theorem fillSymbol_other {len s : Nat} (h : lenOf lt s ≠ len) (acc : Build) : fillSymbol lt len s acc = acc := by
  cases acc with
  | overflow fc => rfl
  | filling fc slots => rw [fillSymbol, if_neg h]

theorem fillSymbols_overflow (len : Nat) (l : List Nat) (fc : Nat) :
    fillSymbols lt len l (.overflow fc) = .overflow fc := by
  cases l <;> rfl

theorem fillSymbols_cons (len s : Nat) (l : List Nat) (acc : Build) :
    fillSymbols lt len (s :: l) acc = fillSymbols lt len l (fillSymbol lt len s acc) := by
  rw [fillSymbols]
  cases fillSymbol lt len s acc with
  | overflow fc => exact (fillSymbols_overflow len l fc).symm
  | filling fc slots => rfl

/-- The inner loop runs over the symbols of its length. -/
theorem fillSymbols_eq (len : Nat) (l : List Nat) (acc : Build) :
    fillSymbols lt len l acc = (l.filter fun s => lenOf lt s = len).foldl (fillNext lt) acc := by
  induction l generalizing acc with
  | nil => rfl
  | cons s l ih =>
    rw [fillSymbols_cons, ih]
    by_cases h : lenOf lt s = len
    · rw [List.filter_cons_of_pos (by simpa using h), List.foldl_cons, fillNext, h]
    · rw [List.filter_cons_of_neg (by simpa using h), fillSymbol_other h]

theorem fillLengths_overflow (syms l : List Nat) (fc : Nat) :
    fillLengths lt syms l (.overflow fc) = .overflow fc := by
  cases l with
  | nil => rfl
  | cons len l => rw [fillLengths, fillSymbols_overflow]

theorem fillLengths_cons (syms : List Nat) (len : Nat) (l : List Nat) (acc : Build) :
    fillLengths lt syms (len :: l) acc = fillLengths lt syms l (fillSymbols lt len syms acc) := by
  rw [fillLengths]
  cases fillSymbols lt len syms acc with
  | overflow fc => exact (fillLengths_overflow syms l fc).symm
  | filling fc slots => rfl

theorem fillLengths_eq (syms l : List Nat) (acc : Build) :
    fillLengths lt syms l acc =
      (l.flatMap fun len => syms.filter fun s => lenOf lt s = len).foldl (fillNext lt) acc := by
  induction l generalizing acc with
  | nil => rfl
  | cons len l ih => rw [fillLengths_cons, ih, fillSymbols_eq, List.flatMap_cons, List.foldl_append]

/-- The two loops of BUILD_TABLE are one loop over the used symbols in code order. -/
theorem fillTable_eq (lt : Memory) : fillTable lt = (codeOrder lt).foldl (fillNext lt) (.filling 0 []) :=
  fillLengths_eq (List.range nsym) _ _

theorem fillNext_fits {s fc : Nat} {slots : DecTab} (h : fc + runLen (lenOf lt s) ≤ 32768) :
    fillNext lt (.filling fc slots) s = .filling (fc + runLen (lenOf lt s)) (slots ++ [runOf lt s]) := by
  rw [fillNext, fillSymbol, if_pos rfl, if_neg (by simp [tsize]; omega)]; rfl

theorem fillNext_overflows {s fc : Nat} {slots : DecTab} (h : 32768 < fc + runLen (lenOf lt s)) :
    fillNext lt (.filling fc slots) s = .overflow fc := by
  rw [fillNext, fillSymbol, if_pos rfl, if_pos h]

theorem foldl_fillNext_overflow (l : List Nat) (fc : Nat) :
    l.foldl (fillNext lt) (.overflow fc) = .overflow fc := by
  induction l with
  | nil => rfl
  | cons s l ih => rw [List.foldl_cons]; exact ih

/-- What the loop leaves when every run fits. -/
theorem foldl_fillNext_fits (l : List Nat) (fc : Nat) (slots : DecTab) (h : fc + slotsOf lt l ≤ 32768) :
    l.foldl (fillNext lt) (.filling fc slots) = .filling (fc + slotsOf lt l) (slots ++ l.map (runOf lt)) := by
  induction l generalizing fc slots with
  | nil => simp [slotsOf]
  | cons s l ih =>
    have hs : slotsOf lt (s :: l) = runLen (lenOf lt s) + slotsOf lt l := rfl
    rw [List.foldl_cons, fillNext_fits (by omega), ih _ _ (by omega), hs, List.map_cons, List.append_assoc]
    congr 1; omega

/-- What the loop leaves when some run does not fit. -/
theorem foldl_fillNext_overflows (l : List Nat) (fc : Nat) (slots : DecTab) (h : 32768 < fc + slotsOf lt l)
    (hfc : fc ≤ 32768) : ∃ fc', fc' ≤ 32768 ∧ l.foldl (fillNext lt) (.filling fc slots) = .overflow fc' := by
  induction l generalizing fc slots with
  | nil => simp [slotsOf] at h; omega
  | cons s l ih =>
    have hs : slotsOf lt (s :: l) = runLen (lenOf lt s) + slotsOf lt l := rfl
    rw [List.foldl_cons]
    by_cases hf : fc + runLen (lenOf lt s) ≤ 32768
    · rw [fillNext_fits hf]; exact ih _ _ (by omega) hf
    · rw [fillNext_overflows (by omega), foldl_fillNext_overflow]; exact ⟨fc, hfc, rfl⟩

/-- Everything the two loops can leave: all the used symbols in code order, or an overflow. -/
theorem fillTable_cases (lt : Memory) :
    (slotsOf lt (codeOrder lt) ≤ 32768 ∧
      fillTable lt = .filling (slotsOf lt (codeOrder lt)) ((codeOrder lt).map (runOf lt))) ∨
    (32768 < slotsOf lt (codeOrder lt) ∧ ∃ fc, fc ≤ 32768 ∧ fillTable lt = .overflow fc) := by
  rw [fillTable_eq]
  by_cases h : slotsOf lt (codeOrder lt) ≤ 32768
  · refine .inl ⟨h, ?_⟩
    rw [foldl_fillNext_fits _ _ _ (by omega)]; simp
  · exact .inr ⟨by omega, foldl_fillNext_overflows _ _ _ (by omega) (by omega)⟩

/-- A symbol is in code order exactly when it is used. -/
theorem mem_codeOrder {s : Nat} : s ∈ codeOrder lt ↔ s < 512 ∧ 1 ≤ lenOf lt s := by
  have := lenOf_lt lt s
  simp only [codeOrder, List.mem_flatMap, List.mem_range'_1, List.mem_filter, List.mem_range, decide_eq_true_eq]
  constructor
  · rintro ⟨len, ⟨h1, h2⟩, h3, rfl⟩; exact ⟨h3, h1⟩
  · rintro ⟨h1, h2⟩; exact ⟨_, ⟨h2, by omega⟩, h1, rfl⟩

/-- Everything BUILD_TABLE can do (R152 to R154). -/
theorem Block.buildTable_cases (draw : Nat) (b : Block) :
    (slotsOf b.lentab (codeOrder b.lentab) = 32768 ∧
      b.buildTable draw = .ok () { b with fc := 32768, dectab := (codeOrder b.lentab).map (runOf b.lentab) }) ∨
    (slotsOf b.lentab (codeOrder b.lentab) < 32768 ∧
      b.buildTable draw = .raised ({ b with
        fc := slotsOf b.lentab (codeOrder b.lentab), dectab := DecTab.free draw }.fail .huffmanTableUnderflow)) ∨
    (32768 < slotsOf b.lentab (codeOrder b.lentab) ∧ ∃ fc, fc ≤ 32768 ∧
      b.buildTable draw = .raised ({ b with fc := fc, dectab := DecTab.free draw }.fail .invalidHuffmanTable)) := by
  rcases fillTable_cases b.lentab with ⟨h, he⟩ | ⟨h, fc, hfc, he⟩
  · rw [Block.buildTable, he]
    by_cases heq : slotsOf b.lentab (codeOrder b.lentab) = 32768
    · exact .inl ⟨heq, by rw [Block.installTable, if_pos heq, heq]⟩
    · exact .inr (.inl ⟨by omega, by rw [Block.installTable, if_neg heq, raise_eq]⟩)
  · rw [Block.buildTable, he]
    exact .inr (.inr ⟨h, fc, hfc, by rw [Block.installTable, raise_eq]⟩)

theorem DecTab.size_map_runOf (l : List Nat) : DecTab.size (l.map (runOf lt)) = slotsOf lt l := by
  induction l with
  | nil => rfl
  | cons s l ih => rw [List.map_cons, DecTab.size_cons, ih]; rfl

/-! ### DECODE_SYMBOL (R155) -/

/-- The symbol the next lookup gives. -/
def Block.nextSym (b : Block) : BitVec 9 := (b.dectab.read b.peek15).setWidth 9

theorem Block.peek15_lt (b : Block) : b.peek15 < 32768 := by
  rw [Block.peek15, BitVec.toNat_ushiftRight, Nat.shiftRight_eq_div_pow]
  have := b.br.isLt
  omega

theorem Block.decodeSymbol_eq (b : Block) :
    b.decodeSymbol = ({ b with sym := b.nextSym }).consume (lenOf b.lentab b.nextSym.toNat) := rfl

/-- DECODE_SYMBOL writes `SYM`, `BR`, `EXTRA`, `POS`, and on failure `ERR` and `STATE`. -/
theorem Block.decodeSymbol_frame (b : Block) : ∃ br extra pos err state, b.decodeSymbol.block =
    { b with sym := b.nextSym, br := br, extra := extra, pos := pos, err := err, state := state } :=
  Block.consume_frame _ { b with sym := b.nextSym }

end Sys2Proof.Machine
end

