-- ==== Sys2Proof/Laws/Tokens.lean ====
section
/-! SUPPORT. What the operand reads of a match and its end can do (42_tokens.md). -/

namespace Sys2Proof.Machine

variable {b b' : Block} {obl ln : BitVec 4} {c : Config}

/-- OFFSET that answers (R184): `MOFF` is written from the top bits, and the bits are consumed. -/
theorem Block.offset_ok_cases {u : Unit} (h : b.offset obl = .ok u b') :
    ∃ b1, b.consume obl.toNat = .ok () b1 ∧ b' = { b1 with moff := b.topBits obl.toNat + 2 ^ obl.toNat } := by
  obtain ⟨f, b1, h1, h2⟩ := Res.bind_eq_ok h
  obtain ⟨rfl, hc⟩ := Block.readBits_ok_cases h1
  cases h2; exact ⟨b1, hc, rfl⟩

/-- OFFSET raises only through its refill (R184). -/
theorem Block.offset_raised_cases (h : b.offset obl = .raised b') : b.consume obl.toNat = .raised b' := by
  rcases Res.bind_eq_raised h with h | ⟨f, b1, -, h2⟩
  · exact Block.readBits_raised_cases h
  · cases h2

theorem Block.offset_of_consume {b1 : Block} (h : b.consume obl.toNat = .ok () b1) :
    b.offset obl = .ok () { b1 with moff := b.topBits obl.toNat + 2 ^ obl.toNat } := by
  rw [Block.offset, Block.readBits, h]; rfl

/-- LENGTH without an extension (R185, R186). -/
theorem Block.length_short_form (h : ln.toNat < 15) : b.length ln = .ok () { b with mlen := ln.toNat + 3 } := by
  rw [Block.length, if_pos h]

/-- LENGTH with an extension byte other than 255 (R185, R187). -/
theorem Block.length_x8 (hl : ln.toNat = 15) (hr : 1 ≤ b.remaining) (hb : b.inp.read b.pos ≠ byteEsc) :
    b.length ln = .ok () { b with pos := b.pos + 1, mlen := (b.inp.read b.pos).toNat + 18 } := by
  rw [Block.length, if_neg (by rw [hl]; decide), Block.lengthExt, Block.readByte_ok hr, Res.bind_ok, if_neg hb]
  rfl

/-- LENGTH with the extension byte 255 and a legal length word (R185, R188). -/
theorem Block.length_x16 (hl : ln.toNat = 15) (hr : 3 ≤ b.remaining) (hb : b.inp.read b.pos = byteEsc)
    (hv : 15 ≤ (b.inp.read16 (b.pos + 1)).toNat) :
    b.length ln =
      .ok () { b with pos := b.pos + 3, mlen := (b.inp.read16 (b.pos + 1)).toNat + 3 } := by
  rw [Block.length, if_neg (by rw [hl]; decide), Block.lengthExt, Block.readByte_ok (by omega), Res.bind_ok, if_pos hb,
    Block.lengthWord, Block.readU16_ok (by simp [Block.remaining] at hr ⊢; omega), Res.bind_ok, if_neg (by simpa using hv)]
  simp only [Res.bind_ok]
  congr 2
  show (b.inp.read16 (b.pos + 1)).toNat - 15 + 15 + 3 = _
  omega

/-- Everything LENGTH can answer (R185). -/
theorem Block.length_ok_cases {u : Unit} (h : b.length ln = .ok u b') :
    (ln.toNat < 15 ∧ b' = { b with mlen := ln.toNat + 3 }) ∨
    (ln.toNat = 15 ∧ 1 ≤ b.remaining ∧ b.inp.read b.pos ≠ byteEsc ∧
      b' = { b with pos := b.pos + 1, mlen := (b.inp.read b.pos).toNat + 18 }) ∨
    (ln.toNat = 15 ∧ 3 ≤ b.remaining ∧ b.inp.read b.pos = byteEsc ∧ 15 ≤ (b.inp.read16 (b.pos + 1)).toNat ∧
      b' = { b with pos := b.pos + 3, mlen := (b.inp.read16 (b.pos + 1)).toNat + 3 }) := by
  by_cases hl : ln.toNat < 15
  · rw [Block.length_short_form hl] at h; cases h; exact .inl ⟨hl, rfl⟩
  have hl : ln.toNat = 15 := by have := ln.isLt; omega
  by_cases hr : 1 ≤ b.remaining
  · by_cases hb : b.inp.read b.pos = byteEsc
    · by_cases hr3 : 3 ≤ b.remaining
      · by_cases hv : 15 ≤ (b.inp.read16 (b.pos + 1)).toNat
        · rw [Block.length_x16 hl hr3 hb hv] at h; cases h; exact .inr (.inr ⟨hl, hr3, hb, hv, rfl⟩)
        · rw [Block.length, if_neg (by rw [hl]; decide), Block.lengthExt, Block.readByte_ok hr, Res.bind_ok, if_pos hb,
            Block.lengthWord, Block.readU16_ok (by simp [Block.remaining] at hr3 ⊢; omega), Res.bind_ok,
            if_pos (by simpa using hv)] at h
          cases h
      · rw [Block.length, if_neg (by rw [hl]; decide), Block.lengthExt, Block.readByte_ok hr, Res.bind_ok, if_pos hb,
          Block.lengthWord, Block.readU16_short (by simp [Block.remaining] at hr3 ⊢; omega)] at h
        cases h
    · rw [Block.length_x8 hl hr hb] at h; cases h; exact .inr (.inl ⟨hl, hr, hb, rfl⟩)
  · rw [Block.length, if_neg (by rw [hl]; decide), Block.lengthExt, Block.readByte_short (by omega)] at h
    cases h

/-- Everything LENGTH can raise (R185), with the cursor where the failing read or check left it. -/
theorem Block.length_raised_cases (h : b.length ln = .raised b') :
    ln.toNat = 15 ∧
    ((b.remaining < 1 ∧ b' = b.fail .truncatedInput) ∨
     (1 ≤ b.remaining ∧ b.remaining < 3 ∧ b.inp.read b.pos = byteEsc ∧
       b' = { b with pos := b.pos + 1 }.fail .truncatedInput) ∨
     (3 ≤ b.remaining ∧ b.inp.read b.pos = byteEsc ∧ (b.inp.read16 (b.pos + 1)).toNat < 15 ∧
       b' = { b with pos := b.pos + 3 }.fail .invalidFormat)) := by
  by_cases hl : ln.toNat < 15
  · rw [Block.length_short_form hl] at h; cases h
  have hl : ln.toNat = 15 := by have := ln.isLt; omega
  refine ⟨hl, ?_⟩
  by_cases hr : 1 ≤ b.remaining
  · by_cases hb : b.inp.read b.pos = byteEsc
    · by_cases hr3 : 3 ≤ b.remaining
      · by_cases hv : 15 ≤ (b.inp.read16 (b.pos + 1)).toNat
        · rw [Block.length_x16 hl hr3 hb hv] at h; cases h
        · rw [Block.length, if_neg (by rw [hl]; decide), Block.lengthExt, Block.readByte_ok hr, Res.bind_ok, if_pos hb,
            Block.lengthWord, Block.readU16_ok (by simp [Block.remaining] at hr3 ⊢; omega), Res.bind_ok,
            if_pos (by simpa using hv)] at h
          cases h; exact .inr (.inr ⟨hr3, hb, by omega, rfl⟩)
      · rw [Block.length, if_neg (by rw [hl]; decide), Block.lengthExt, Block.readByte_ok hr, Res.bind_ok, if_pos hb,
          Block.lengthWord, Block.readU16_short (by simp [Block.remaining] at hr3 ⊢; omega)] at h
        cases h; exact .inr (.inl ⟨hr, by omega, hb, rfl⟩)
    · rw [Block.length_x8 hl hr hb] at h; cases h
  · rw [Block.length, if_neg (by rw [hl]; decide), Block.lengthExt, Block.readByte_short (by omega)] at h
    cases h; exact .inl ⟨by omega, rfl⟩

/-- OFFSET writes `BR`, `EXTRA`, `POS`, `MOFF`, and on failure `ERR` and `STATE`. -/
theorem Block.offset_frame (obl : BitVec 4) (b : Block) :
    ∃ br extra pos moff err state, (b.offset obl).block =
      { b with br := br, extra := extra, pos := pos, moff := moff, err := err, state := state } := by
  obtain ⟨br, extra, pos, err, state, hf⟩ := Block.consume_frame obl.toNat b
  cases h : b.offset obl with
  | ok u b' =>
    obtain ⟨b1, hc, rfl⟩ := Block.offset_ok_cases h
    rw [hc, Res.block_ok] at hf; subst hf
    exact ⟨_, _, _, _, _, _, rfl⟩
  | raised b' =>
    rw [Block.offset_raised_cases h, Res.block_raised] at hf; subst hf
    exact ⟨_, _, _, b.moff, _, _, rfl⟩

/-- LENGTH writes `POS`, `MLEN`, and on failure `ERR` and `STATE`. -/
theorem Block.length_frame (ln : BitVec 4) (b : Block) :
    ∃ pos mlen err state, (b.length ln).block =
      { b with pos := pos, mlen := mlen, err := err, state := state } := by
  cases h : b.length ln with
  | ok u b' =>
    rcases Block.length_ok_cases h with ⟨-, rfl⟩ | ⟨-, -, -, rfl⟩ | ⟨-, -, -, -, rfl⟩ <;> exact ⟨_, _, _, _, rfl⟩
  | raised b' =>
    obtain ⟨-, ⟨-, rfl⟩ | ⟨-, -, -, rfl⟩ | ⟨-, -, -, rfl⟩⟩ := Block.length_raised_cases h <;>
      exact ⟨_, _, _, _, rfl⟩

/-- The operand reads of a match write `BR`, `EXTRA`, `POS`, `MLEN`, `MOFF`, and on failure `ERR` and `STATE`. -/
theorem Block.matchOperands_frame (c : Config) (obl ln : BitVec 4) (b : Block) :
    ∃ br extra pos mlen moff err state, (b.matchOperands c obl ln).block =
      { b with br := br, extra := extra, pos := pos, mlen := mlen, moff := moff, err := err, state := state } := by
  unfold Block.matchOperands
  split
  · obtain ⟨pos, mlen, err, state, hl⟩ := Block.length_frame ln b
    cases h : b.length ln with
    | ok u b' =>
      rw [h, Res.block_ok] at hl; subst hl
      obtain ⟨br, extra, pos', moff, err', state', ho⟩ := Block.offset_frame obl
        { b with pos := pos, mlen := mlen, err := err, state := state }
      exact ⟨_, _, _, _, _, _, _, ho⟩
    | raised b' =>
      rw [h, Res.block_raised] at hl; subst hl
      exact ⟨b.br, b.extra, _, _, b.moff, _, _, rfl⟩
  · obtain ⟨br, extra, pos, moff, err, state, ho⟩ := Block.offset_frame obl b
    cases h : b.offset obl with
    | ok u b' =>
      rw [h, Res.block_ok] at ho; subst ho
      obtain ⟨pos', mlen, err', state', hl⟩ := Block.length_frame ln
        { b with br := br, extra := extra, pos := pos, moff := moff, err := err, state := state }
      exact ⟨_, _, _, _, _, _, _, hl⟩
    | raised b' =>
      rw [h, Res.block_raised] at ho; subst ho
      exact ⟨_, _, _, b.mlen, _, _, _, rfl⟩

/-- The end of a match that answers (R190 to R192): both checks hold, and COPY has run. -/
theorem Block.matchCopy_ok_cases {u : Unit} (h : b.matchCopy c = .ok u b') :
    b.moff ≤ b.olen ∧ b.olen + b.mlen ≤ c.outMax ∧ b' = b.copy b.mlen := by
  by_cases hb : b.moff ≤ b.olen
  · rw [Block.matchCopy, Block.checkBounds_ok hb, Res.bind_ok] at h
    by_cases hc : b.olen + b.mlen ≤ c.outMax
    · rw [Block.checkCapacity_ok hc, Res.bind_ok] at h; cases h; exact ⟨hb, hc, rfl⟩
    · rw [Block.checkCapacity_fails (by omega)] at h; cases h
  · rw [Block.matchCopy, Block.checkBounds_fails (by omega)] at h; cases h

/-- The end of a match that raises: nothing is appended (R259). -/
theorem Block.matchCopy_raised_cases (h : b.matchCopy c = .raised b') :
    (b.olen < b.moff ∧ b' = b.fail .invalidFormat) ∨
    (b.moff ≤ b.olen ∧ c.outMax < b.olen + b.mlen ∧ b' = b.fail .outputOverflow) := by
  by_cases hb : b.moff ≤ b.olen
  · rw [Block.matchCopy, Block.checkBounds_ok hb, Res.bind_ok] at h
    by_cases hc : b.olen + b.mlen ≤ c.outMax
    · rw [Block.checkCapacity_ok hc, Res.bind_ok] at h; cases h
    · rw [Block.checkCapacity_fails (by omega)] at h; cases h; exact .inr ⟨hb, by omega, rfl⟩
  · rw [Block.matchCopy, Block.checkBounds_fails (by omega)] at h; cases h; exact .inl ⟨by omega, rfl⟩

theorem Block.matchCopy_ok (hb : b.moff ≤ b.olen) (hc : b.olen + b.mlen ≤ c.outMax) :
    b.matchCopy c = .ok () (b.copy b.mlen) := by
  rw [Block.matchCopy, Block.checkBounds_ok hb, Res.bind_ok, Block.checkCapacity_ok hc]; rfl

end Sys2Proof.Machine
end

