-- ==== Sys2Proof/Laws/Control.lean ====
section
/-! SUPPORT. What the machine's step can do: one equation per kind of step, so that no proof unfolds it. -/

namespace Sys2Proof.Machine

variable {s t : State}

/-! ### The step -/

theorem step_no_move (h : s.host = []) : step s = blockStep s := by rw [step, machineStep, h]

theorem step_move {m : HostMove} {rest : List HostMove} (h : s.host = m :: rest) :
    step s = hostStep m { s with host := rest } := by rw [step, machineStep, h]

theorem blockStep_idle (h : s.blk.state = .idle) : blockStep s = .next s := by rw [blockStep, h]
theorem blockStep_done (h : s.blk.state = .done) : blockStep s = .next s := by rw [blockStep, h]
theorem blockStep_failed (h : s.blk.state = .failed) : blockStep s = .next s := by rw [blockStep, h]
theorem blockStep_setup (h : s.blk.state = .setup) : blockStep s = .next (setupStep s) := by rw [blockStep, h]
theorem blockStep_decoding (h : s.blk.state = .decoding) : blockStep s = tokenStep s := by rw [blockStep, h]

/-- A meaning never stops: every instruction answers a next state. -/
theorem exec_next (i : Instr) (s : State) : ∃ t, exec i s = .next t := by
  cases i with
  | lit v => exact ⟨_, rfl⟩
  | eob => exact ⟨_, rfl⟩
  | matchPlain obl ln => exact ⟨_, rfl⟩
  | matchX8 obl => exact ⟨_, rfl⟩
  | matchX16 obl => exact ⟨_, rfl⟩
  | start => simp only [exec, execStart]; split; · exact ⟨_, rfl⟩
             split <;> exact ⟨_, rfl⟩
  | reset => exact ⟨_, rfl⟩

/-! ### TOKEN_STEP (R180) -/

theorem tokenStep_fetched {i : Instr} {b : Block} (h : s.blk.fetchToken s.cfg = .ok i b) :
    tokenStep s = exec i { s with blk := b } := by rw [tokenStep, h]

theorem tokenStep_truncated {b : Block} (h : s.blk.fetchToken s.cfg = .raised b) :
    tokenStep s = .next { s with blk := b } := by rw [tokenStep, h]

/-- A fetch that answers: DECODE_SYMBOL answered, and the selection table gave the token. -/
theorem Block.fetchToken_ok_cases {c : Config} {b b' : Block} {i : Instr} (h : b.fetchToken c = .ok i b') :
    b.decodeSymbol = .ok () b' ∧ i = selectToken b'.sym b'.remaining (b'.extByte c (symObl b'.sym)) := by
  obtain ⟨u, b1, h1, h2⟩ := Res.bind_eq_ok h
  cases h2; exact ⟨h1, rfl⟩

/-- A fetch raises only through the symbol's refill. -/
theorem Block.fetchToken_raised_cases {c : Config} {b b' : Block} (h : b.fetchToken c = .raised b') :
    b.decodeSymbol = .raised b' := by
  rcases Res.bind_eq_raised h with h | ⟨u, b1, -, h2⟩
  · exact h
  · cases h2

/-- The selection never gives a host command. -/
theorem selectToken_cases (sym : BitVec 9) (rem : Nat) (ext : Option Byte) :
    (∃ v, selectToken sym rem ext = .lit v) ∨ selectToken sym rem ext = .eob ∨
    (∃ obl ln, selectToken sym rem ext = .matchPlain obl ln) ∨
    (∃ obl, selectToken sym rem ext = .matchX8 obl) ∨ ∃ obl, selectToken sym rem ext = .matchX16 obl := by
  unfold selectToken
  split
  · exact .inl ⟨_, rfl⟩
  split
  · exact .inr (.inl rfl)
  split
  · exact .inr (.inr (.inl ⟨_, _, rfl⟩))
  split
  · exact .inr (.inr (.inr (.inr ⟨_, rfl⟩)))
  · exact .inr (.inr (.inr (.inl ⟨_, rfl⟩)))

/-! ### SETUP (R223) -/

/-- Everything SETUP can do, in the order of its checks (R223, R260). -/
theorem Block.setup_cases (draw : Nat) (b : Block) :
    (b.remaining < 256 ∧ b.setup draw = .raised (b.fail .truncatedInput)) ∨
    (256 ≤ b.remaining ∧ ∃ b1, b1 = { b with pos := b.pos + 256, lentab := b.inp.slice b.pos 256 } ∧
      ((∃ b2, b1.buildTable draw = .raised b2 ∧ b.setup draw = .raised b2) ∨
       (∃ b2, b1.buildTable draw = .ok () b2 ∧
        ((∃ b3, b2.prime = .raised b3 ∧ b.setup draw = .raised b3) ∨
         (∃ b3, b2.prime = .ok () b3 ∧ b.setup draw = .ok () { b3 with state := .decoding }))))) := by
  unfold Block.setup
  by_cases h : b.remaining < 256
  · exact .inl ⟨h, by rw [Block.loadLentab_short h]; rfl⟩
  · refine .inr ⟨by omega, _, rfl, ?_⟩
    rw [Block.loadLentab_ok (by omega), Res.bind_ok]
    cases hb : Block.buildTable draw { b with pos := b.pos + 256, lentab := b.inp.slice b.pos 256 } with
    | raised b2 => exact .inl ⟨b2, rfl, rfl⟩
    | ok u b2 =>
      refine .inr ⟨b2, rfl, ?_⟩
      rw [Res.bind_ok]
      cases hp : b2.prime with
      | raised b3 => exact .inl ⟨b3, rfl, rfl⟩
      | ok u b3 => exact .inr ⟨b3, rfl, rfl⟩

/-! ### The host's moves -/

theorem writeCtrl_command {v : Word} {i : Instr} (h : decodeCtrl v = .ok i) : writeCtrl v s = exec i s := by
  rw [writeCtrl, h]

theorem writeCtrl_none {v : Word} {e : DecodeError} (h : decodeCtrl v = .error e) : writeCtrl v s = .next s := by
  rw [writeCtrl, h]

theorem exec_start_busy (h : s.blk.state.busy = true) : exec .start s = .next s := by
  show execStart s = _; rw [execStart, if_pos h]

theorem exec_start_refused (h : s.blk.state.busy = false) (hl : s.cfg.inMax < s.blk.inLen) :
    exec .start s = .next { s with launchRefused := true } := by
  show execStart s = _; rw [execStart, if_neg (by simp [h]), if_pos hl]

theorem exec_start_accepted (h : s.blk.state.busy = false) (hl : s.blk.inLen ≤ s.cfg.inMax) :
    exec .start s = .next { s with blk := s.blk.launch, launchRefused := false } := by
  show execStart s = _; rw [execStart, if_neg (by simp [h]), if_neg (by omega)]

end Sys2Proof.Machine
end

