-- ==== Sys2Proof/Laws/PerInstr.lean ====
section
/-! SUPPORT. A law of the encoding, said per instruction. -/

namespace Sys2Proof.Laws.EncodedLength

/-- An instruction's words are the two bytes of a table entry (R91) or the four of a `CTRL` word (R43). -/
def Statement (i : Instr) : Prop := (encode i).length = if i.isCommand then 4 else 2

theorem lit (value : Byte) : Statement (.lit value) := rfl
theorem eob : Statement .eob := rfl
theorem matchPlain (obl ln : BitVec 4) : Statement (.matchPlain obl ln) := rfl
theorem matchX8 (obl : BitVec 4) : Statement (.matchX8 obl) := rfl
theorem matchX16 (obl : BitVec 4) : Statement (.matchX16 obl) := rfl
theorem start : Statement .start := rfl
theorem reset : Statement .reset := rfl

end Sys2Proof.Laws.EncodedLength
end

