-- ==== Sys2Proof/Tests/Slice0.lean ====
section
/-! SUPPORT. Tests: expected values are those of 95_test_vectors.md (the vector's number stands at each) or are written out
from the encodings of 30_encoding.md. After them, for each statement with hypotheses, a state that meets them. -/

namespace Sys2Proof.Tests

open Sys2Proof.Machine Sys2Proof.Claims

/-- The next state an outcome holds. -/
def nextOf : Host.Outcome State Fault Refusal → Option State
  | .next t => some t
  | .fault _ => none
  | .refused _ => none

theorem next_of_nextOf {o : Host.Outcome State Fault Refusal} {t : State} (h : nextOf o = some t) : o = .next t := by
  cases o with
  | next u => simpa [nextOf] using h
  | fault r => simp [nextOf] at h
  | refused r => simp [nextOf] at h

/-- A field of the state one step leads to. -/
def afterStep {α : Type} (s : State) (f : Block → α) : Option α := (nextOf (step s)).map fun t => f t.blk

/-- The code-length bytes a table's vector lists, and the slots its codes fill. -/
def decoding (lens : Memory) (table : DecTab) : Block :=
  { Block.reset with state := .decoding, lentab := lens, dectab := table, fc := 32768 }

/-- Table T1 (95_test_vectors.md section 0). -/
def t1 : Block := decoding [(32, 0x10), (128, 0x01)] [⟨65, 16384⟩, ⟨256, 16384⟩]
/-- Table T5. -/
def t5 : Block := decoding [(32, 0x10), (128, 0x02), (143, 0x20)] [⟨65, 16384⟩, ⟨256, 8192⟩, ⟨287, 8192⟩]
/-- Table T6. -/
def t6 : Block := decoding [(32, 0x10), (128, 0x02), (135, 0x20)] [⟨65, 16384⟩, ⟨256, 8192⟩, ⟨271, 8192⟩]
/-- Table T7. -/
def t7 : Block :=
  decoding [(32, 0x20), (33, 0x02), (128, 0x02), (144, 0x02)] [⟨65, 8192⟩, ⟨66, 8192⟩, ⟨256, 8192⟩, ⟨288, 8192⟩]

/-- A machine with the block `b` and a large output. -/
def withBlock (b : Block) : State := { State.reset with blk := b }

/-- The same with `LEN_EXT_FIRST` true. -/
def lengthFirst (b : Block) : State := { withBlock b with cfg := { Config.reference with lenExtFirst := true } }

/-- P1, just after PRIME. -/
def p1 : Block := { t1 with inLen := 260, pos := 260, br := 0x10000000, extra := 16 }
/-- P1, before its EOB. -/
def p1End : Block :=
  { t1 with
    inLen := 260, pos := 260, br := 0x80000000, extra := 13, olen := 3, out := [(0, 0x41), (1, 0x41), (2, 0x41)] }
/-- P5, before its match. -/
def p5 : Block :=
  { t5 with
    inp := [(260, 5), (262, 1)], inLen := 263, pos := 260, br := 0xD0000000, extra := 2, olen := 14,
    out := (List.range 14).map fun i => (i, 0x41#8) }
/-- P6, before the token whose refill fails. -/
def p6 : Block := { t1 with inLen := 261, pos := 260, br := 0, extra := 0, olen := 16 }
/-- P7, before `SYM 256` with input left. -/
def p7 : Block :=
  { t1 with inLen := 262, pos := 260, br := 0x80008000, extra := 15, olen := 1, out := [(0, 0x41)] }
/-- P8, before its match. -/
def p8 : Block :=
  { t7 with
    inLen := 260, pos := 260, br := 0xC8000000, extra := 8, olen := 4,
    out := [(0, 0x41), (1, 0x42), (2, 0x42), (3, 0x41)] }
/-- Rows E1 to E8, before the match, with the length word `v` behind the byte 0xFF. -/
def eRow (v : Nat) : Block :=
  { t6 with
    inp := Memory.writeBytes [] 260 [0xFF#8, BitVec.ofNat 8 v, BitVec.ofNat 8 (v / 256)], inLen := 263, pos := 260,
    br := 0xE0000000, extra := 15, olen := 1, out := [(0, 0x41)] }
/-- A block in `SETUP` with `n` bytes of input whose code lengths are those of table TC. -/
def setupTC (n : Nat) : Block :=
  { Block.reset with state := .setup, inp := [(0, 0x12), (1, 0x33), (256, 0xCD), (257, 0xAB)], inLen := n }

/-! ### Well-formedness and decoding -/

theorem test_wellFormed_refuses_nibble_15 : (Instr.matchPlain 0 15).wellFormed = false := by decide
theorem test_wellFormed_admits_nibble_14 : (Instr.matchPlain 15 14).wellFormed = true := by decide

theorem test_decode_lit : decodeTableWord 16 0b0000000_0_01000001 = some (.lit 0x41) := by decide
theorem test_decode_eob : decodeTableWord 16 0b0000000_1_0000_0000 = some .eob := by decide
theorem test_decode_match : decodeTableWord 16 0b0000000_1_0010_0001 = some (.matchPlain 2 1) := by decide
theorem test_decode_match_x8 : decodeTableWord 24 0b11111110_0000000_1_0001_1111 = some (.matchX8 1) := by decide
theorem test_decode_match_x16 : decodeTableWord 24 0b11111111_0000000_1_1110_1111 = some (.matchX16 14) := by decide
theorem test_decode_start : decodeTableWord 32 0b01 = some .start := by decide
theorem test_decode_reset_wins : decodeTableWord 32 0b11 = some .reset := by decide
theorem test_decode_no_command : decodeCtrl 0xFFFFFFFC = .error .noCommandBit := by decide
theorem test_decode_reserved_entry_bit : decodeEntry 0b0000001_0_01000001 [] = .error .reservedEntryBits := by decide
theorem test_encode_match : encode (.matchPlain 2 0) = [0x20, 0x01] := by decide
/-- R104: MATCH 20, 2 is symbol 287, one offset bit 0, extension byte 0x02 (P3). -/
theorem test_expand_p3 : expandMatch 20 2 = ⟨287, 1, 0, [0x02]⟩ := by decide

/-! ### The cursor, the bit register, the table -/

theorem test_consume_A12 :
    ({ t1 with inp := [(260, 0xCD), (261, 0xAB)], inLen := 262, pos := 260, br := 0x80000000, extra := 0 } : Block).consume 1 =
      .ok () { t1 with inp := [(260, 0xCD), (261, 0xAB)], inLen := 262, pos := 262, br := 0x0001579A, extra := 15 } := by
  decide
theorem test_consume_A13 :
    ({ t1 with inp := [(260, 0x34), (261, 0x12)], inLen := 262, pos := 260, br := 0x00010000, extra := 0 } : Block).consume 15 =
      .ok () { t1 with inp := [(260, 0x34), (261, 0x12)], inLen := 262, pos := 262, br := 0x891A0000, extra := 1 } := by
  decide
theorem test_readBits_A18 :
    ({ t1 with br := 0xFFFE0000, extra := 16 } : Block).readBits 15 = .ok 0x7FFF { t1 with br := 0, extra := 1 } := by
  decide
theorem test_readU32_A6 :
    ({ t1 with inp := [(0, 0x78), (1, 0x56), (2, 0x34), (3, 0x12)], inLen := 4 } : Block).readU32 =
      .ok 0x12345678 { t1 with inp := [(0, 0x78), (1, 0x56), (2, 0x34), (3, 0x12)], inLen := 4, pos := 4 } := by decide
theorem test_prime_A20 :
    (({ setupTC 260 with inp := [(256, 0xCD), (257, 0xAB), (258, 0x34), (259, 0x12)], pos := 256 } : Block).prime).block.br =
      0xABCD1234 := by decide
theorem test_peek15_A9 : ({ t1 with br := 0x1D000000 } : Block).peek15 = 0x0E80 := by decide
theorem test_lenOf_B1 : lenOf t1.lentab 64 = 0 ∧ lenOf t1.lentab 65 = 1 := by decide
theorem test_build_B3 :
    fillTable [(0, 0x12), (1, 0x33)] = .filling 32768 [⟨1, 16384⟩, ⟨0, 8192⟩, ⟨2, 4096⟩, ⟨3, 4096⟩] := by decide +kernel
theorem test_build_B5 : fillTable [(2, 0x10)] = .filling 16384 [⟨5, 16384⟩] := by decide +kernel
theorem test_build_B7 : fillTable [(0, 0x11), (1, 0x01)] = .overflow 32768 := by decide +kernel
theorem test_offset_E13 :
    ({ t1 with br := 0xFFFE0000, extra := 16 } : Block).offset 15 = .ok () { t1 with br := 0, extra := 1, moff := 65535 } := by
  decide
/-- E18: `OUT = "ABC"`, `MOFF = 2`, `MLEN = 4`. -/
theorem test_copy_E18 :
    ({ t1 with out := [(0, 0x41), (1, 0x42), (2, 0x43)], olen := 3, moff := 2 } : Block).copy 4 =
      { t1 with
        out := [(0, 0x41), (1, 0x42), (2, 0x43), (3, 0x42), (4, 0x43), (5, 0x42), (6, 0x43)], olen := 7, moff := 2 } := by
  decide

/-! ### The instructions, one step each -/

/-- D1, and P1's first token trace. -/
theorem test_lit_P1 : afterStep (withBlock p1) (fun b => (b.out, b.olen, b.br, b.extra, b.state)) =
    some ([(0, 0x41)], 1, 0x20000000, 15, .decoding) := by decide
/-- D4: `OUT_MAX` reached. -/
theorem test_lit_D4 : afterStep { withBlock p1 with cfg := { Config.reference with outMax := 0 } }
    (fun b => (b.state, b.err, b.olen, b.pos)) = some (.failed, .outputOverflow, 0, 260) := by decide
/-- P1's last token. -/
theorem test_eob_P1 : afterStep (withBlock p1End) (fun b => (b.status, b.olen, b.pos, b.br, b.extra)) =
    some (0x00000003, 3, 260, 0, 12) := by decide
/-- SU6: a 260-byte input whose first symbol is EOB. P1, above, has 260 bytes too, and begins with a literal. -/
theorem test_eob_SU6 : afterStep (withBlock { p1 with br := 0x80000000 }) (fun b => (b.state, b.olen, b.pos, b.extra)) =
    some (.done, 0, 260, 15) := by decide
/-- P7: symbol 256 with input left is MATCH 3, 1. -/
theorem test_sym256_P7 : afterStep (withBlock p7) (fun b => (b.state, b.olen, b.br, b.extra)) =
    some (.decoding, 4, 0x00010000, 14) := by decide
/-- P8, which is E11: MATCH 3, 4. -/
theorem test_match_P8 : afterStep (withBlock p8) (fun b => (b.out.read 4, b.out.read 5, b.out.read 6, b.olen, b.extra)) =
    some (0x41, 0x42, 0x42, 7, 4) := by decide
/-- P5 with the offset first. -/
theorem test_match_x8_P5_offset_first : afterStep (withBlock p5) (fun b => (b.olen, b.pos, b.br, b.extra, b.moff)) =
    some (33, 263, 0x8000000A, 15, 2) := by decide
/-- P5 with the length first. -/
theorem test_match_x8_P5_length_first : afterStep (lengthFirst p5) (fun b => (b.olen, b.pos, b.br, b.extra, b.moff)) =
    some (37, 263, 0x80000200, 15, 2) := by decide
/-- E6: the smallest length word. -/
theorem test_match_x16_E6 : afterStep (withBlock (eRow 15)) (fun b => (b.olen, b.pos, b.mlen)) = some (19, 263, 18) := by
  decide
/-- E5: a length word below 15. -/
theorem test_match_x16_E5 : afterStep (withBlock (eRow 14)) (fun b => (b.state, b.err, b.olen, b.pos)) =
    some (.failed, .invalidFormat, 1, 263) := by decide
/-- P6: the symbol's refill fails. -/
theorem test_truncated_P6 : afterStep (withBlock p6) (fun b => (b.olen, b.pos, b.status)) = some (16, 260, 0x00000014) := by
  decide
/-- SU7: START while busy. -/
theorem test_start_SU7 :
    nextOf (step { withBlock p8 with host := [.writeReg .ctrl 1] }) = some (withBlock p8) := by decide
/-- R221's example. -/
theorem test_start_R221 : afterStep { withBlock { Block.reset with inLen := 260, pos := 7 } with host := [.writeReg .ctrl 1] }
    (fun b => (b.state, b.pos)) = some (.setup, 0) := by decide
/-- SU9: RESET while decoding. -/
theorem test_reset_SU9 : afterStep { withBlock p8 with host := [.writeReg .ctrl 2] }
    (fun b => (b.state, b.err, b.olen, b.pos, b.inLen)) = some (.idle, .noError, 0, 0, 0) := by decide
/-- SU10: START and RESET in one write. -/
theorem test_reset_SU10 : afterStep { State.reset with host := [.writeReg .ctrl 3] } (fun b => b.state) = some .idle := by
  decide
/-- SU4, SU6 (TC's code in place of T1's): SETUP over 258 and 260 bytes. -/
theorem test_setup_SU4 : afterStep (withBlock (setupTC 258)) (fun b => (b.state, b.err, b.pos)) =
    some (.failed, .truncatedInput, 258) := by decide +kernel
theorem test_setup_260 : afterStep (withBlock (setupTC 260)) (fun b => (b.state, b.pos, b.br, b.extra)) =
    some (.decoding, 260, 0xABCD0000, 16) := by decide +kernel

/-! ### Where the model stops -/

theorem test_host_outside_in_window :
    step { State.reset with host := [.writeIn 131072 1] } = .fault .outsideInWindow := rfl
theorem test_host_outside_out_window :
    step { State.reset with host := [.readOut 131072] } = .fault .outsideOutWindow := rfl
theorem test_host_input_write_while_busy :
    step { withBlock p8 with host := [.writeIn 0 1] } = .refused .inputWriteWhileBusy := rfl

/-- R42: the `OUT` window is read-only to the host. -/
theorem test_host_write_out : nextOf (step { withBlock p8 with host := [.writeOut 0 0x99] }) = some (withBlock p8) := by
  decide

/-! ### Placing an instruction -/

theorem test_withFetchWord_lit : afterStep (State.reset.withFetchWord 16 0x41) (fun b => b.out) = some [(0, 0x41)] := by
  decide
theorem test_withFetchWord_eob : afterStep (State.reset.withFetchWord 16 0x100) (fun b => b.state) = some .done := by decide
theorem test_withFetchWord_start : afterStep (State.reset.withFetchWord 32 1) (fun b => b.state) = some .setup := by decide

theorem test_reset_memory_wf : State.reset.blk.inp.wf ∧ State.reset.blk.out.wf ∧ State.reset.blk.lentab.wf ∧
    State.reset.blk.dectab.wf := by decide

/-! ### The statements' hypotheses are met

For each statement with hypotheses: a concrete state and operands that meet all of them together, clause by clause at the ends
of its ranges. -/

theorem witness_DecodeReadsBackEncode :
    [(Instr.lit 0xFF, []), (.eob, []), (.matchPlain 0 0, [0x00#8]), (.matchPlain 15 14, []), (.matchX8 0, [0xFE#8]),
      (.matchX16 15, [0xFF#8]), (.start, []), (.reset, [])].all
      (fun c => c.1.wellFormed && c.1.admits c.2) = true := by decide

theorem witness_SelectionFollowsTheTable :
    (0xFF#9).toNat < 256 ∧ (0x100#9 = 0x100#9 ∧ 0 = 0) ∧
    (256 ≤ (0x100#9).toNat ∧ ¬ (0x100#9 = 0x100#9 ∧ 1 = 0) ∧ (0x100#9).toNat % 16 ≠ 15) ∧
    (256 ≤ (0x1FE#9).toNat ∧ ¬ (0x1FE#9 = 0x100#9 ∧ 0 = 0) ∧ (0x1FE#9).toNat % 16 ≠ 15) ∧
    (256 ≤ (0x10F#9).toNat ∧ (0x10F#9).toNat % 16 = 15 ∧ 0xFE#8 ≠ 0xFF#8) ∧
    (256 ≤ (0x1FF#9).toNat ∧ (0x1FF#9).toNat % 16 = 15 ∧ 0xFF#8 = 0xFF#8) := by decide

theorem witness_MatchExpansionReadsBack :
    [3, 17, 18, 272, 273, 65538].all (fun len => [1, 2, 65535].all fun off =>
      decide (3 ≤ len) && decide (len ≤ 65538) && decide (1 ≤ off) && decide (off ≤ 65535)) = true ∧
    (18 ≤ 18 ∧ expandMatchX16 18 1 = expandMatchX16 18 1) ∧
    (let p := expandMatch 273 65535
     let b := { eRow 270 with br := 0xFFFE0000#32, extra := 16 }
     b.pos + p.ext.length ≤ b.inLen ∧ (∀ k v, p.ext[k]? = some v → b.inp.read (b.pos + k) = v) ∧
       b.br.toNat / 2 ^ (32 - p.obl) = p.field ∧ ∃ b', b.offset (symObl p.sym) = .ok () b') := by
  refine ⟨by decide, by decide, by decide, ?_, by decide, ⟨_, rfl⟩⟩
  rintro (_ | _ | _ | k) v h
  · revert h; revert v; decide
  · revert h; revert v; decide
  · revert h; revert v; decide
  · exact absurd h (by simp [expandMatch, expandX16Bytes])

theorem witness_CursorReadsDeliver :
    (eRow 15).pos + 1 ≤ (eRow 15).inLen ∧ (eRow 15).pos + 2 ≤ (eRow 15).inLen ∧
    (setupTC 4).pos + 4 ≤ (setupTC 4).inLen ∧ (setupTC 256).pos + 256 ≤ (setupTC 256).inLen := by decide

theorem witness_CursorReadsAreBounded :
    (p1.pos ≤ p1.inLen ∧ p1.inLen < p1.pos + 1) ∧ (p6.pos ≤ p6.inLen ∧ p6.inLen < p6.pos + 2) ∧
    (p5.pos ≤ p5.inLen ∧ p5.inLen < p5.pos + 4) ∧
    ((setupTC 255).pos ≤ (setupTC 255).inLen ∧ (setupTC 255).inLen < (setupTC 255).pos + 256) ∧
    (setupTC 256).readByte = .ok 0x12 { setupTC 256 with pos := 1 } ∧
    (setupTC 256).readU16 = .ok 0x3312 { setupTC 256 with pos := 2 } ∧
    (setupTC 256).readU32 = .ok 0x3312 { setupTC 256 with pos := 4 } ∧
    (setupTC 256).readRaw 2 = .ok [(0, 0x12), (1, 0x33)] { setupTC 256 with pos := 2 } := by decide

theorem witness_PrimeLoadsTwoWords :
    let b (n : Nat) : Block := { setupTC n with pos := 256 }
    ((b 260).pos ≤ (b 260).inLen ∧ (b 260).pos + 4 ≤ (b 260).inLen) ∧
    ((b 258).pos + 2 ≤ (b 258).inLen ∧ (b 259).inLen < (b 259).pos + 4) ∧
    ((b 256).pos ≤ (b 256).inLen ∧ (b 257).inLen < (b 257).pos + 2) := by decide

/-- Zeros below the valid bits, from a count of them. -/
theorem lowBits_of_dvd {w : Word} {n : Nat} (h : w.toNat % 2 ^ n = 0) (i : Nat) (hi : i < n) : w.getLsbD i = false := by
  have := Nat.testBit_mod_two_pow w.toNat n i
  rw [h] at this
  simpa [hi, BitVec.getLsbD] using this.symm

/-- The registers of A12 (a refill) and of P5 (none). -/
theorem witness_ConsumeKeepsTheRegisterForm :
    (∃ b b' : Block, (1 : Nat) ≤ 15 ∧ 0 ≤ b.extra ∧ b.extra ≤ 16 ∧
      (∀ i : Nat, (i : Int) + b.extra < 16 → b.br.getLsbD i = false) ∧ b.consume 1 = .ok () b' ∧ b.extra < (1 : Nat)) ∧
    (∃ b b' : Block, (15 : Nat) ≤ 15 ∧ 0 ≤ b.extra ∧ b.extra ≤ 16 ∧
      (∀ i : Nat, (i : Int) + b.extra < 16 → b.br.getLsbD i = false) ∧ b.consume 15 = .ok () b' ∧ (15 : Nat) ≤ b.extra) :=
  ⟨⟨{ p5 with br := 0x80000000, extra := 0 }, _, by decide, by decide, by decide,
      fun i hi => lowBits_of_dvd (n := 16) (by decide) i (by simp at hi; omega), rfl, by decide⟩,
    ⟨p1, _, by decide, by decide, by decide, fun i hi => by simp [p1] at hi; omega, rfl, by decide⟩⟩

theorem witness_ConsumeShiftsTheStream :
    ∃ b b' : Block, (15 : Nat) ≤ 15 ∧ b.extra = (0 : Nat) ∧ 0 ≤ 16 ∧
      (∀ i : Nat, i + 0 < 16 → b.br.getLsbD i = false) ∧ b.consume 15 = .ok () b' ∧ 0 < 15 :=
  ⟨{ p5 with br := 0x00010000, extra := 0 }, _, by decide, by decide, by decide,
    fun i hi => lowBits_of_dvd (n := 16) (by decide) i (by omega), rfl, by decide⟩

theorem witness_ConsumeRaisesForAMissingWord :
    p6.pos ≤ p6.inLen ∧ (p6.extra < (1 : Nat) ∧ p6.inLen < p6.pos + 2) := by decide

theorem witness_ReadBitsTakesTheTopBits :
    (15 : Nat) ≤ 15 ∧ (∃ b', p1.consume 15 = .ok () b') ∧ (∃ b', p6.consume 15 = .raised b') ∧ 0 ≤ p6.extra :=
  ⟨by decide, ⟨_, rfl⟩, ⟨_, rfl⟩, by decide⟩

theorem witness_LengthTableIsLoaded :
    ((setupTC 256).pos ≤ (setupTC 256).inLen ∧ (setupTC 256).pos + 256 ≤ (setupTC 256).inLen) ∧
    (setupTC 255).inLen < (setupTC 255).pos + 256 := by decide

/-- TC (a complete code), B4 (all lengths 0) and B7 (too many codes). -/
theorem witness_KraftSumDecidesTheBuild :
    kraft [(0, 0x12), (1, 0x33)] = 32768 ∧ kraft [] < 32768 ∧ 32768 < kraft [(0, 0x11), (1, 0x01)] := by decide +kernel

/-- A block whose `LENTAB` is TC's, and what BUILD_TABLE makes of it. -/
def beforeTC : Block := { Block.reset with lentab := [(0, 0x12), (1, 0x33)] }
def builtTC : Block := { beforeTC with fc := 32768, dectab := [⟨1, 16384⟩, ⟨0, 8192⟩, ⟨2, 4096⟩, ⟨3, 4096⟩] }

theorem buildTC : beforeTC.buildTable 0 = .ok () builtTC := by
  rw [Block.buildTable, show fillTable beforeTC.lentab = _ from test_build_B3]; rfl

theorem witness_CodesAreCanonicalPrefixes :
    beforeTC.buildTable 0 = .ok () builtTC ∧ (3 < 512 ∧ 1 ≤ lenOf beforeTC.lentab 3) ∧ 32767 < 32768 :=
  ⟨buildTC, by decide, by decide⟩

theorem witness_BuildFillsEverySlot : beforeTC.buildTable 0 = .ok () builtTC := buildTC

theorem witness_FailedBuildFrame :
    (∃ b', Block.reset.buildTable 0 = .raised b') ∧
    (∃ b', ({ Block.reset with lentab := [(0, 0x11), (1, 0x01)] } : Block).buildTable 0 = .raised b') := by
  have under : fillTable Block.reset.lentab = .filling 0 [] := by decide +kernel
  have h4 : Block.reset.buildTable 0 = Block.reset.installTable 0 (.filling 0 []) := by rw [Block.buildTable, under]
  have h7 : ({ Block.reset with lentab := [(0, 0x11), (1, 0x01)] } : Block).buildTable 0 =
      ({ Block.reset with lentab := [(0, 0x11), (1, 0x01)] } : Block).installTable 0 (.overflow 32768) := by
    rw [Block.buildTable, test_build_B7]
  exact ⟨⟨_, h4.trans rfl⟩, ⟨_, h7.trans rfl⟩⟩

theorem witness_SymbolDependsOnItsCodeOnly :
    ∃ x y : Block, beforeTC.buildTable 0 = .ok () builtTC ∧ x.dectab = builtTC.dectab ∧ y.dectab = builtTC.dectab ∧
      x.br ≠ y.br ∧
      x.br.toNat / 2 ^ (32 - lenOf beforeTC.lentab (x.dectab.read x.peek15).toNat) =
        y.br.toNat / 2 ^ (32 - lenOf beforeTC.lentab (x.dectab.read x.peek15).toNat) :=
  ⟨{ builtTC with br := 0x80000000 }, { builtTC with br := 0xBFFFFFFF }, buildTC, rfl, rfl, by decide, by decide⟩

theorem witness_StepRunsTheDecodedToken :
    (BlockRuns (withBlock p8) [] ∧ (withBlock p8).blk.state = .decoding ∧ ∃ b, p8.decodeSymbol = .ok () b) ∧
    (BlockRuns { withBlock p6 with host := [.run, .run] } [.run] ∧ (withBlock p6).blk.state = .decoding ∧
      ∃ b, p6.decodeSymbol = .raised b) :=
  ⟨⟨.inl ⟨rfl, rfl⟩, rfl, ⟨_, rfl⟩⟩, ⟨.inr rfl, rfl, ⟨_, rfl⟩⟩⟩

theorem witness_StepRunsTheCtrlCommand :
    (3#32).getLsbD 1 = true ∧ ((1#32).getLsbD 1 = false ∧ (1#32).getLsbD 0 = true) ∧
    ((0xFFFFFFFC#32).getLsbD 1 = false ∧ (0xFFFFFFFC#32).getLsbD 0 = false) ∧
    ({ State.reset with host := [.writeReg .ctrl 3#32] } : State).host = .writeReg .ctrl 3#32 :: [] ∧
    ({ State.reset with host := [.readReg .ctrl] } : State).host = .readReg .ctrl :: [] := by decide

theorem witness_StepIsTheTokenRule : (withBlock p8).host = [] ∧ (withBlock p8).blk.state = .decoding := by decide

theorem witness_SymbolWithoutRefillWordFails :
    (withBlock p6).host = [] ∧ p6.state = .decoding ∧ p6.pos ≤ p6.inLen ∧ p6.inLen < p6.pos + 2 ∧
      p6.extra < lenOf p6.lentab ((p6.dectab.read p6.peek15).setWidth 9).toNat := by decide

theorem witness_LiteralAppendsItsByte :
    p1.out.wf ∧ p1.olen < Config.reference.outMax ∧
    ({ Config.reference with outMax := 0 } : Config).outMax ≤ p1.olen := by decide

theorem witness_EndMarkerEndsTheDecode :
    ∃ b, (withBlock p1End).host = [] ∧ p1End.state = .decoding ∧ p1End.decodeSymbol = .ok () b ∧ b.sym = 256#9 ∧
      b.inLen - b.pos = 0 := ⟨_, rfl, rfl, rfl, by decide, by decide⟩

theorem witness_DoneOnlyThroughEndMarker :
    ∃ t, step (withBlock p1End) = .next t ∧ t.blk.state = .done ∧ (withBlock p1End).blk.state ≠ .done :=
  ⟨_, next_of_nextOf rfl, by decide, by decide⟩

/-- P8's match; its offset equals `OLEN`. -/
theorem witness_MatchPlainCompletes :
    let b := { p8 with br := 0#32, extra := 2 }
    let s := { withBlock b with cfg := { Config.reference with outMax := 7 } }
    s.blk.out.wf ∧ (0#4).toNat < 15 ∧ s.blk.pos + refillBytes s.blk 2 ≤ s.blk.inLen ∧
      offsetHere s.blk 2 ≤ s.blk.olen ∧ s.blk.olen + ((0#4).toNat + 3) ≤ s.cfg.outMax := by decide

/-- P5's match after its symbol, in both orders: the offset refills. -/
theorem witness_MatchX8Completes :
    let b := { p5 with br := 0x40000000#32, extra := 0 }
    (∀ s ∈ [withBlock b, lengthFirst b], s.blk.out.wf ∧ s.blk.pos + 1 + refillBytes s.blk 1 ≤ s.blk.inLen ∧
      s.blk.inp.read (extAt s.cfg s.blk 1) ≠ 0xFF#8 ∧ offsetHere s.blk 1 ≤ s.blk.olen ∧
      s.blk.olen + ((s.blk.inp.read (extAt s.cfg s.blk 1)).toNat + 15 + 3) ≤ s.cfg.outMax) ∧
    refillBytes b 1 = 2 := by decide

/-- E6 and E8: the smallest and the largest length word. -/
theorem witness_MatchX16Completes :
    ∀ s ∈ [withBlock (eRow 15), lengthFirst (eRow 65535)], s.blk.out.wf ∧
      s.blk.pos + 3 + refillBytes s.blk 0 ≤ s.blk.inLen ∧ s.blk.inp.read (extAt s.cfg s.blk 0) = 0xFF#8 ∧
      15 ≤ (s.blk.inp.read16 (extAt s.cfg s.blk 0 + 1)).toNat ∧ offsetHere s.blk 0 ≤ s.blk.olen ∧
      s.blk.olen + ((s.blk.inp.read16 (extAt s.cfg s.blk 0 + 1)).toNat - 15 + 15 + 3) ≤ s.cfg.outMax := by decide

/-- E1, E4, E5, an offset refill without its word, E12's kind, E10's kind, and E6, which completes. -/
theorem witness_MatchReportsItsFirstError :
    let c := Config.reference
    (eRow 15).pos ≤ (eRow 15).inLen ∧ (eRow 15).state = .decoding ∧
    firstMatchError c { eRow 15 with inLen := 260 } 0 15 = some (.truncatedInput, 260) ∧
    firstMatchError c { eRow 15 with inLen := 262 } 0 15 = some (.truncatedInput, 261) ∧
    firstMatchError c (eRow 14) 0 15 = some (.invalidFormat, 263) ∧
    firstMatchError c p6 1 0 = some (.truncatedInput, 260) ∧
    firstMatchError c { p8 with br := 0x48000000 } 2 0 = some (.invalidFormat, 260) ∧
    firstMatchError { c with outMax := 18 } (eRow 15) 0 15 = some (.outputOverflow, 263) ∧
    firstMatchError { c with outMax := 19 } (eRow 15) 0 15 = none := by decide

theorem witness_OffsetAssembly :
    (∃ b', p1.offset 15 = .ok () b') ∧ (∃ b', p1.offset 0 = .ok () b') ∧ 0 ≤ p6.extra :=
  ⟨⟨_, rfl⟩, ⟨_, rfl⟩, by decide⟩

theorem witness_LengthAssembly :
    (14#4).toNat < 15 ∧ (15#4).toNat = 15 ∧
    (p1.pos ≤ p1.inLen ∧ p1.inLen < p1.pos + 1) ∧
    (p5.pos + 1 ≤ p5.inLen ∧ p5.inp.read p5.pos ≠ 255#8) ∧
    (let b := { eRow 15 with inLen := 262 }
     b.pos + 1 ≤ b.inLen ∧ b.inp.read b.pos = 255#8 ∧ b.inLen < b.pos + 3) ∧
    ((eRow 14).pos + 3 ≤ (eRow 14).inLen ∧ ((eRow 14).inp.read16 ((eRow 14).pos + 1)).toNat < 15) ∧
    ((eRow 15).pos + 3 ≤ (eRow 15).inLen ∧ 15 ≤ ((eRow 15).inp.read16 ((eRow 15).pos + 1)).toNat) := by decide

theorem witness_OrderShowsOnlyOnARefill :
    (Instr.matchPlain 2 0 = .matchPlain 2 0 ∧ (0#4) ≠ 15 ∨
      ((Instr.matchPlain 2 0 = .matchX8 2 ∨ Instr.matchPlain 2 0 = .matchX16 2) ∧ ((2#4).toNat : Int) ≤ p8.extra)) ∧
    ((1#4).toNat : Int) ≤ p5.extra ∧
    (∃ t, exec (.matchX8 1) (lengthFirst p5) = .next t) ∧ (∃ f, exec (.matchX8 1) (withBlock p5) = .next f) :=
  ⟨.inl ⟨rfl, by decide⟩, by decide, exec_next _ _, exec_next _ _⟩

theorem witness_CopyRepeatsThePattern :
    ∀ d ∈ [1, 4], ({ p8 with moff := d } : Block).out.wf ∧ 1 ≤ ({ p8 with moff := d } : Block).moff ∧
      ({ p8 with moff := d } : Block).moff ≤ ({ p8 with moff := d } : Block).olen := by decide

theorem witness_CircularWindowServesCopies :
    ∃ (b : Block) (w : Nat → Byte), b.out.wf ∧
      (∀ i, i < b.olen → b.olen ≤ i + 65536 → w (i % 65536) = b.out.read i) ∧
      1 ≤ b.moff ∧ b.moff ≤ 65535 ∧ b.moff ≤ b.olen ∧ 0 < (b.outAppend 0x43).olen ∧
      (b.outAppend 0x43).olen ≤ 0 + 65536 :=
  ⟨{ p8 with moff := 4 }, p8.out.read, by decide, fun i hi _ => by
    have : i < 4 := hi
    rw [Nat.mod_eq_of_lt (by omega)], by decide⟩

theorem witness_StartBeginsADecode :
    (p8.state = .setup ∨ p8.state = .decoding) ∧
    (Block.reset.state ≠ .setup ∧ Block.reset.state ≠ .decoding) ∧
    (let s := withBlock { Block.reset with inLen := 131073 }
     s.cfg.inMax < s.blk.inLen) ∧
    (let s := withBlock { Block.reset with inLen := 131072 }
     s.blk.inLen ≤ s.cfg.inMax) := by decide

theorem witness_ResetReturnsToIdle :
    ({ State.reset with host := [.assertReset, .run] } : State).host = .assertReset :: [.run] := rfl

theorem witness_InputLengthClasses :
    (∀ n ∈ [255, 256, 257, 258, 259, 260], (withBlock (setupTC n)).host = [] ∧ (setupTC n).state = .setup ∧
      (setupTC n).pos = 0) ∧
    kraft (setupTC 260).inp = 32768 ∧
    32768 < kraft ({ setupTC 256 with inp := [(0, 0x11), (1, 0x01)] } : Block).inp ∧
    kraft ({ setupTC 256 with inp := [] } : Block).inp < 32768 := by
  refine ⟨by decide, ?_⟩
  decide +kernel

/-- SU6's input at 260 bytes, and cut to 259: the first lookup finds symbol 256. -/
theorem witness_ShortestInputThatDecodes :
    let b (n : Nat) : Block :=
      { Block.reset with state := .setup, inp := [(32, 0x10), (128, 0x01), (257, 0x80)], inLen := n }
    (∀ n ∈ [259, 260], (withBlock (b n)).host = [] ∧ (b n).state = .setup ∧ (b n).pos = 0 ∧ (b n).olen = 0) ∧
    kraft (b 260).inp = 32768 ∧
    afterStep (withBlock (b 260)) (fun u => (u.dectab.read u.peek15).toNat) = some 256 := by decide +kernel

theorem witness_ControlTransitions :
    (∃ t, step (withBlock p8) = .next t) ∧ BlockRuns (withBlock p8) [] ∧
    ResetComes { State.reset with host := [.assertReset] } ∧ ResetComes { State.reset with host := [.writeReg .ctrl 3] } ∧
    StartComes { State.reset with host := [.writeReg .ctrl 1] } :=
  ⟨⟨_, next_of_nextOf rfl⟩, .inl ⟨rfl, rfl⟩, .inr ⟨[], rfl⟩, .inl ⟨3, [], rfl, by decide⟩,
    ⟨1, [], rfl, by decide, by decide⟩⟩

theorem witness_TerminalStatesWait :
    ∀ c ∈ [ControlState.done, .failed, .idle],
      BlockRuns (withBlock { p8 with state := c }) [] ∧
      (({ p8 with state := c } : Block).state = .done ∨ ({ p8 with state := c } : Block).state = .failed ∨
        ({ p8 with state := c } : Block).state = .idle) :=
  fun c hc => ⟨.inl ⟨rfl, rfl⟩, by simpa using hc⟩

theorem witness_FailingTokenAppendsNothing :
    ∃ t, BlockRuns (withBlock p6) [] ∧ (withBlock p6).blk.state = .decoding ∧ step (withBlock p6) = .next t ∧
      t.blk.state = .failed :=
  ⟨_, .inl ⟨rfl, rfl⟩, rfl, next_of_nextOf rfl, by decide⟩

theorem witness_OutputIsAppendOnly :
    ∃ t, BlockRuns (withBlock p8) [] ∧ (withBlock p8).blk.state = .decoding ∧ (withBlock p8).blk.out.wf ∧
      step (withBlock p8) = .next t ∧ t.blk.olen = 7 :=
  ⟨_, .inl ⟨rfl, rfl⟩, rfl, by decide, next_of_nextOf rfl, by decide⟩

theorem witness_InputAndTablesAreReadOnly :
    ∃ t, BlockRuns (withBlock p8) [] ∧ step (withBlock p8) = .next t ∧ (withBlock p8).blk.state = .decoding :=
  ⟨_, .inl ⟨rfl, rfl⟩, next_of_nextOf rfl, rfl⟩

theorem witness_CursorOnlyAdvances :
    ∃ t, BlockRuns (withBlock p5) [] ∧ (withBlock p5).blk.pos ≤ (withBlock p5).blk.inLen ∧
      step (withBlock p5) = .next t ∧ (withBlock p5).blk.pos < t.blk.pos :=
  ⟨_, .inl ⟨rfl, rfl⟩, by decide, next_of_nextOf rfl, by decide⟩

theorem witness_ParametersAreFixed : ∃ t, step { withBlock p8 with host := [.run] } = .next t :=
  ⟨_, next_of_nextOf rfl⟩

/-- Rule R50 at P8's match: 24 bits are valid, and every slot holds one of T7's four symbols. -/
theorem p8_boundary : TokenBoundary Config.reference p8 where
  extraRange := by decide
  lowBits i hi := lowBits_of_dvd (n := 8) (by decide) i (by
    have valid : p8.extra = 8 := rfl
    omega)
  posLe := by decide
  olenLe := by decide
  entries i hi := by
    have whole : DecTab.size p8.dectab = 32768 := by decide
    obtain ⟨r, hr, -, he⟩ := DecTab.exists_run (t := p8.dectab) (i := i) (whole ▸ hi)
    have used : ∀ r ∈ p8.dectab, r.entry.toNat < 512 ∧ 1 ≤ lenOf p8.lentab r.entry.toNat ∧
        lenOf p8.lentab r.entry.toNat ≤ 15 := by decide
    exact he ▸ used r hr

/-- The rest of the invariant beside it. -/
theorem p8_inv : Inv (withBlock p8) where
  inpWf := by decide
  inpBelow := by decide
  outWf := by decide
  outBelow := by decide
  lentabWf := by decide
  lentabBelow := by decide
  dectabWf := by decide
  errNone _ := rfl
  errRaised h := nomatch h
  olenLe := by decide
  inLenLt := by decide
  posLt := by decide
  extraRange := by decide
  fcLe := by decide
  mlenLt := by decide
  moffLt := by decide
  inLenLe := by decide
  setupStart h := nomatch h
  boundary _ := p8_boundary

theorem witness_InvariantIsKept : Inv (withBlock p8) ∧ ∃ t, step (withBlock p8) = .next t :=
  ⟨p8_inv, ⟨_, next_of_nextOf rfl⟩⟩

/-- The shortest inputs, with a quiet host and with one that polls. -/
theorem witness_EveryRunEnds :
    (∀ n ∈ [0, 260], (withBlock (setupTC n)).host = [] ∧ (setupTC n).state = .setup ∧ (setupTC n).pos = 0) ∧
    (∀ m ∈ [HostMove.readReg .status, .run, .writeReg .ctrl 1, .readIn 131071, .readOut 131071],
      LeavesDecodeAlone (withBlock (setupTC 260)).cfg m) ∧
    BlockRuns (withBlock p8) [] ∧ p8.state = .decoding ∧ ∃ t, step (withBlock p8) = .next t :=
  ⟨by decide, by simp [LeavesDecodeAlone, withBlock, State.reset, State.resetWith, Config.reference], .inl ⟨rfl, rfl⟩, rfl,
    ⟨_, next_of_nextOf rfl⟩⟩

/-- Two blocks at P8's match that differ in what an earlier decode left. -/
def p8Again : Block := { p8 with fc := 7, sym := 3, mlen := 9, moff := 2, out := p8.out ++ [(9, 0x99)] }

theorem witness_EarlierDecodesDoNotShow :
    ((withBlock p8).cfg = (withBlock p8Again).cfg ∧ (withBlock p8).host = [] ∧ (withBlock p8Again).host = [] ∧
      p8.out.wf ∧ p8Again.out.wf ∧ SameDecode p8 p8Again ∧ p8 ≠ p8Again) ∧
    (let a := withBlock { Block.reset with inp := [(0, 1), (3, 5)], inLen := 2 }
     let b := withBlock { Block.reset with state := .done, inp := [(0, 1)], inLen := 2, olen := 9, pos := 1 }
     a.cfg = b.cfg ∧ a.blk.inLen = b.blk.inLen ∧ (∀ i, i < a.blk.inLen → a.blk.inp.read i = b.blk.inp.read i) ∧
       a.blk.state.busy = false ∧ b.blk.state.busy = false ∧ a.blk.inLen ≤ a.cfg.inMax) := by
  refine ⟨⟨rfl, rfl, rfl, by decide, by decide, ⟨rfl, rfl, rfl, fun _ _ => rfl, rfl, rfl, by decide, fun _ => ⟨rfl, rfl⟩,
    fun _ _ _ => rfl, fun _ _ _ => rfl⟩, by decide⟩, by decide⟩

theorem witness_HostReadsRegisters :
    (∀ r ∈ [HostReg.ctrl, .status, .inLen, .outLen, .inPos, .reserved 0],
      ({ State.reset with host := [.readReg r] } : State).host = .readReg r :: []) ∧
    State.reset.blk.state.busy = false := by decide

theorem witness_HostWritesRegisters :
    (∀ r ∈ [HostReg.inLen, .status, .outLen, .inPos, .reserved 0],
      ({ State.reset with host := [.writeReg r 260] } : State).host = .writeReg r 260 :: []) ∧
    State.reset.blk.state.busy = false := by decide

theorem witness_HostWritesWhileBusy :
    p8.state.busy = true ∧ (setupTC 0).state.busy = true ∧ (0xFFFFFFFD#32).getLsbD 1 = false ∧
    131071 < (withBlock p8).cfg.inMax ∧
    (∀ m ∈ [HostMove.writeReg .inLen 5, .writeReg .ctrl 0xFFFFFFFD, .writeIn 131071 9],
      ({ withBlock p8 with host := [m] } : State).host = m :: []) := by decide

/-- The ends of the windows, idle, done and busy. -/
theorem witness_HostWindows :
    let s := withBlock { p8 with state := .done }
    let busy := withBlock p8
    s.blk.inp.wf ∧ busy.blk.inp.wf ∧ 131071 < s.cfg.inMax ∧ 131071 < s.cfg.outMax ∧ s.blk.state.busy = false ∧
      3 < s.blk.olen ∧ s.blk.state.ended = true ∧ ¬ 131071 < s.blk.olen ∧ busy.blk.state.busy = true ∧
      (∀ m ∈ [HostMove.writeIn 131071 9, .readIn 131071, .writeOut 131071 9, .readOut 3, .readOut 131071],
        ({ s with host := [m] } : State).host = m :: [] ∧ ({ busy with host := [m] } : State).host = m :: []) := by
  decide

theorem witness_DoneOutputLevel :
    let s := withBlock { p8 with state := .done }
    s.blk.doneOut = true ∧ s.blk.inLen ≤ s.cfg.inMax ∧ (∃ t, exec .start s = .next t) ∧ ∃ t, exec .reset s = .next t :=
  ⟨by decide, by decide, exec_next _ _, exec_next _ _⟩

end Sys2Proof.Tests
end

section
/-! PROOFS. The scope family (00_scope.md): the parameters are fixed (R8), and what `raise` does (R13). -/

namespace Sys2Proof.Machine

variable {s t : State}

/-! ### No step changes the parameters (R8) -/

/-- A meaning leaves the parameters and the host's moves to come alone. -/
theorem exec_keeps_cfg_host {i : Instr} (h : exec i s = .next t) : t.cfg = s.cfg ∧ t.host = s.host := by
  cases i with
  | lit v => cases h; exact ⟨rfl, rfl⟩
  | eob => cases h; exact ⟨rfl, rfl⟩
  | matchPlain obl ln => cases h; exact ⟨rfl, rfl⟩
  | matchX8 obl => cases h; exact ⟨rfl, rfl⟩
  | matchX16 obl => cases h; exact ⟨rfl, rfl⟩
  | start =>
    by_cases hb : s.blk.state.busy = true
    · rw [exec_start_busy hb] at h; cases h; exact ⟨rfl, rfl⟩
    · by_cases hl : s.blk.inLen ≤ s.cfg.inMax
      · rw [exec_start_accepted (by simpa using hb) hl] at h; cases h; exact ⟨rfl, rfl⟩
      · rw [exec_start_refused (by simpa using hb) (by omega)] at h; cases h; exact ⟨rfl, rfl⟩
  | reset => cases h; exact ⟨rfl, rfl⟩

theorem tokenStep_keeps_cfg_host (h : tokenStep s = .next t) : t.cfg = s.cfg ∧ t.host = s.host := by
  cases hf : s.blk.fetchToken s.cfg with
  | ok i b => rw [tokenStep_fetched hf] at h; exact exec_keeps_cfg_host (s := { s with blk := b }) h
  | raised b => rw [tokenStep_truncated hf] at h; cases h; exact ⟨rfl, rfl⟩

theorem blockStep_keeps_cfg_host (h : blockStep s = .next t) : t.cfg = s.cfg ∧ t.host = s.host := by
  cases hs : s.blk.state with
  | idle => rw [blockStep_idle hs] at h; cases h; exact ⟨rfl, rfl⟩
  | setup => rw [blockStep_setup hs] at h; cases h; exact ⟨setupStep_cfg s, setupStep_host s⟩
  | decoding => rw [blockStep_decoding hs] at h; exact tokenStep_keeps_cfg_host h
  | done => rw [blockStep_done hs] at h; cases h; exact ⟨rfl, rfl⟩
  | failed => rw [blockStep_failed hs] at h; cases h; exact ⟨rfl, rfl⟩

theorem writeCtrl_keeps_cfg_host {v : Word} (h : writeCtrl v s = .next t) : t.cfg = s.cfg ∧ t.host = s.host := by
  cases hd : decodeCtrl v with
  | ok i => rw [writeCtrl_command hd] at h; exact exec_keeps_cfg_host h
  | error e => rw [writeCtrl_none hd] at h; cases h; exact ⟨rfl, rfl⟩

theorem writeReg_keeps_cfg_host {r : HostReg} {v : Word} (h : s.writeReg r v = .next t) :
    t.cfg = s.cfg ∧ t.host = s.host := by
  cases r with
  | ctrl => exact writeCtrl_keeps_cfg_host h
  | inLen => simp only [State.writeReg] at h; split at h <;> cases h <;> exact ⟨rfl, rfl⟩
  | status => cases h; exact ⟨rfl, rfl⟩
  | outLen => cases h; exact ⟨rfl, rfl⟩
  | inPos => cases h; exact ⟨rfl, rfl⟩
  | reserved k => cases h; exact ⟨rfl, rfl⟩

/-- A write to `IN` that answers changes a byte of the block, and none of the model's own fields. -/
theorem writeInWindow_keeps_cfg_host {i : Nat} {v : Byte} (h : s.writeInWindow i v = .next t) :
    t.cfg = s.cfg ∧ t.host = s.host := by
  simp only [State.writeInWindow] at h
  split at h
  · split at h
    · cases h
    · cases h; exact ⟨rfl, rfl⟩
  · cases h

/-- A move of the host that answers leaves the parameters and the moves after it alone. -/
theorem hostStep_keeps_cfg_host {m : HostMove} (h : hostStep m s = .next t) : t.cfg = s.cfg ∧ t.host = s.host := by
  cases m with
  | run => exact blockStep_keeps_cfg_host h
  | writeReg r v => exact writeReg_keeps_cfg_host h
  | readReg r => cases h; exact ⟨State.deliver_cfg _ s, State.deliver_host _ s⟩
  | writeIn i v => exact writeInWindow_keeps_cfg_host h
  | readIn i => simp only [hostStep] at h; split at h <;> cases h; exact ⟨State.deliver_cfg _ s, State.deliver_host _ s⟩
  | writeOut i v => simp only [hostStep] at h; split at h <;> cases h; exact ⟨rfl, rfl⟩
  | readOut i => simp only [hostStep] at h; split at h <;> cases h; exact ⟨State.deliver_cfg _ s, State.deliver_host _ s⟩
  | assertReset => exact exec_keeps_cfg_host (i := .reset) h

end Sys2Proof.Machine

namespace Sys2Proof.Claims

open Sys2Proof.Machine

/-- Settles O46: with no move left the block's own step keeps both fields; otherwise the move runs on the state whose list has
already lost it. -/
theorem parametersAreFixed : Obligations.ParametersAreFixed := by
  intro s t h
  cases hh : s.host with
  | nil =>
    rw [step_no_move hh] at h
    obtain ⟨hcfg, hhost⟩ := blockStep_keeps_cfg_host h
    exact ⟨hcfg, hhost.trans hh⟩
  | cons m rest =>
    rw [step_move hh] at h
    exact hostStep_keeps_cfg_host h

/-- Settles O58: `raise` is `Block.fail`, which overwrites just `ERR` and `STATE`, and a bind stops at it. -/
theorem raiseWritesErrAndState : Obligations.RaiseWritesErrAndState := by
  intro b e
  refine ⟨raise_eq e b, ?_, fun f => ?_⟩
  · rw [Block.fail_state]; rfl
  · rw [raise_eq, Res.bind_raised]

end Sys2Proof.Claims
end

section
/-! PROOFS. The state family (10_state.md): what a step of the block can leave, said once over its outcomes. -/

namespace Sys2Proof.Machine

variable {s t : State} {b b' : Block} {c : Config} {obl ln : BitVec 4}

/-! ### What a block step can leave -/

/-- A block step runs on the state whose move, if there was one, is taken. -/
theorem step_of_blockRuns {rest : List HostMove} (h : Claims.BlockRuns s rest) :
    step s = blockStep { s with host := rest } := by
  obtain ⟨hh, rfl⟩ | hh := h
  · rw [step_no_move hh, ← hh]
  · exact step_move hh

/-- The three meanings a selected token can have (R180): LIT, EOB or MATCH_COMMON. -/
theorem exec_selectToken (sym : BitVec 9) (rem : Nat) (ext : Option Byte) :
    (∃ v, ∀ s, exec (selectToken sym rem ext) s = execLit v s) ∨
    (∀ s, exec (selectToken sym rem ext) s = execEob s) ∨
    ∃ obl ln, ∀ s, exec (selectToken sym rem ext) s = s.finish (s.blk.matchCommon s.cfg obl ln) := by
  obtain ⟨v, h⟩ | h | ⟨obl, ln, h⟩ | ⟨obl, h⟩ | ⟨obl, h⟩ := selectToken_cases sym rem ext
  · exact .inl ⟨v, fun s => by rw [h]; rfl⟩
  · exact .inr (.inl fun s => by rw [h]; rfl)
  · exact .inr (.inr ⟨obl, ln, fun s => by rw [h]; rfl⟩)
  · exact .inr (.inr ⟨obl, 15, fun s => by rw [h]; rfl⟩)
  · exact .inr (.inr ⟨obl, 15, fun s => by rw [h]; rfl⟩)

theorem execLit_fits (v : Byte) (h : s.blk.olen + 1 ≤ s.cfg.outMax) :
    execLit v s = .next { s with blk := s.blk.outAppend v } := by
  rw [execLit, Block.checkCapacity_ok h]; rfl

theorem execLit_overflows (v : Byte) (h : s.cfg.outMax < s.blk.olen + 1) :
    execLit v s = .next { s with blk := s.blk.fail .outputOverflow } := by
  rw [execLit, Block.checkCapacity_fails h]; rfl

/-- Everything a TOKEN_STEP (R180) can leave of the block `b`. -/
inductive TokenOutcome (c : Config) (b : Block) : Block → Prop where
  | symbolRaised {b₁} (hs : b.decodeSymbol = .raised b₁) : TokenOutcome c b b₁
  | appended {b₁} (v : Byte) (hs : b.decodeSymbol = .ok () b₁) (hc : b₁.olen + 1 ≤ c.outMax) :
      TokenOutcome c b (b₁.outAppend v)
  | literalOverflows {b₁} (hs : b.decodeSymbol = .ok () b₁) : TokenOutcome c b (b₁.fail .outputOverflow)
  | ended {b₁} (hs : b.decodeSymbol = .ok () b₁) : TokenOutcome c b { b₁ with state := .done }
  | operandsRaised {b₁ b₂ obl ln} (hs : b.decodeSymbol = .ok () b₁) (ho : b₁.matchOperands c obl ln = .raised b₂) :
      TokenOutcome c b b₂
  | checkRaised {b₁ b₂ obl ln} (e : ErrKind) (hs : b.decodeSymbol = .ok () b₁)
      (ho : b₁.matchOperands c obl ln = .ok () b₂) (he : e.isRaised = true) : TokenOutcome c b (b₂.fail e)
  | copied {b₁ b₂ obl ln} (hs : b.decodeSymbol = .ok () b₁) (ho : b₁.matchOperands c obl ln = .ok () b₂)
      (hc : b₂.olen + b₂.mlen ≤ c.outMax) : TokenOutcome c b (b₂.copy b₂.mlen)

/-- A match ends in its operand reads, in one of its checks, or with the copy (R183). -/
theorem TokenOutcome.of_matchCommon {b₁ : Block} (hs : b.decodeSymbol = .ok () b₁) :
    TokenOutcome c b (b₁.matchCommon c obl ln).block := by
  rw [Block.matchCommon]
  cases ho : b₁.matchOperands c obl ln with
  | raised b₂ => exact .operandsRaised hs ho
  | ok u b₂ =>
    rw [Res.bind_ok]
    cases hm : b₂.matchCopy c with
    | ok u b₃ => obtain ⟨-, hc, rfl⟩ := Block.matchCopy_ok_cases hm; exact .copied hs ho hc
    | raised b₃ =>
      obtain ⟨-, rfl⟩ | ⟨-, -, rfl⟩ := Block.matchCopy_raised_cases hm <;> exact .checkRaised _ hs ho rfl

/-- A TOKEN_STEP changes the block only, and leaves one of the outcomes. -/
theorem tokenStep_cases (h : tokenStep s = .next t) : ∃ b, t = { s with blk := b } ∧ TokenOutcome s.cfg s.blk b := by
  cases hf : s.blk.fetchToken s.cfg with
  | raised b =>
    rw [tokenStep_truncated hf] at h; cases h
    exact ⟨b, rfl, .symbolRaised (Block.fetchToken_raised_cases hf)⟩
  | ok i b =>
    obtain ⟨hs, rfl⟩ := Block.fetchToken_ok_cases hf
    rw [tokenStep_fetched hf] at h
    obtain ⟨v, he⟩ | he | ⟨obl, ln, he⟩ := exec_selectToken b.sym b.remaining (b.extByte s.cfg (symObl b.sym)) <;>
      rw [he] at h
    · by_cases hc : b.olen + 1 ≤ s.cfg.outMax
      · rw [execLit_fits v hc] at h; cases h; exact ⟨_, rfl, .appended v hs hc⟩
      · rw [execLit_overflows v (by simpa using hc)] at h; cases h; exact ⟨_, rfl, .literalOverflows hs⟩
    · cases h; exact ⟨_, rfl, .ended hs⟩
    · cases h; exact ⟨_, rfl, .of_matchCommon hs⟩

/-- An offset field and its leading 1 fit 16 bits, and the offset is not 0 (R184). -/
theorem Block.offset_moff {u : Unit} (h : b.offset obl = .ok u b') : 1 ≤ b'.moff ∧ b'.moff < 2 ^ 16 := by
  obtain ⟨b₁, -, rfl⟩ := Block.offset_ok_cases h
  have hn : obl.toNat ≤ 15 := by omega
  have hf : b.topBits obl.toNat < 2 ^ obl.toNat := Block.topBits_lt (by omega)
  have hp : 2 ^ obl.toNat ≤ 2 ^ 15 := Nat.pow_le_pow_right (by decide) hn
  show 1 ≤ b.topBits obl.toNat + 2 ^ obl.toNat ∧ b.topBits obl.toNat + 2 ^ obl.toNat < 2 ^ 16
  omega

/-- No length exceeds 65538 (R185). -/
theorem Block.length_mlen {u : Unit} (h : b.length ln = .ok u b') : b'.mlen ≤ 65538 := by
  obtain ⟨hl, rfl⟩ | ⟨-, -, -, rfl⟩ | ⟨-, -, -, -, rfl⟩ := Block.length_ok_cases h
  · show ln.toNat + 3 ≤ _; omega
  · have := (b.inp.read b.pos).isLt
    show (b.inp.read b.pos).toNat + 18 ≤ _; omega
  · have := (b.inp.read16 (b.pos + 1)).isLt
    show (b.inp.read16 (b.pos + 1)).toNat + 3 ≤ _; omega

theorem Block.length_moff {u : Unit} (h : b.length ln = .ok u b') : b'.moff = b.moff := by
  obtain ⟨-, rfl⟩ | ⟨-, -, -, rfl⟩ | ⟨-, -, -, -, rfl⟩ := Block.length_ok_cases h <;> rfl

theorem Block.offset_mlen {u : Unit} (h : b.offset obl = .ok u b') : b'.mlen = b.mlen := by
  obtain ⟨_, _, _, _, _, _, hf⟩ := Block.offset_frame obl b
  rw [h, Res.block_ok] at hf; rw [hf]

/-- The operand reads of a match that answer leave a length of at most 65538 and an offset that is not 0. -/
theorem Block.matchOperands_ok {u : Unit} (h : b.matchOperands c obl ln = .ok u b') :
    1 ≤ b'.moff ∧ b'.mlen ≤ 65538 := by
  rw [Block.matchOperands] at h
  split at h <;> obtain ⟨u, b₁, h₁, h₂⟩ := Res.bind_eq_ok h
  · exact ⟨(Block.offset_moff h₂).1, Block.offset_mlen h₂ ▸ Block.length_mlen h₁⟩
  · exact ⟨Block.length_moff h₂ ▸ (Block.offset_moff h₁).1, Block.length_mlen h₂⟩

theorem Block.decodeSymbol_sym {u : Unit} (h : b.decodeSymbol = .ok u b') : b'.sym = b.nextSym := by
  obtain ⟨_, _, _, _, _, hf⟩ := Block.decodeSymbol_frame b
  rw [h, Res.block_ok] at hf; rw [hf]

end Sys2Proof.Machine
end

section
/-! PROOFS. A token keeps the invariant (R50), operation by operation. -/

namespace Sys2Proof.Machine

variable {s t : State} {b b' : Block} {n : Nat} {obl ln : BitVec 4}

/-- `b`, as the block of `s`, is decoding and meets the invariant. -/
structure Decoding (s : State) (b : Block) : Prop where
  inv : Inv { s with blk := b }
  state : b.state = .decoding

/-- An operation of a token ends in a block that meets the invariant, and is still decoding unless it raised. -/
def Res.KeepsInv {α : Type} (s : State) : Res α → Prop
  | .ok _ b => Decoding s b
  | .raised b => Inv { s with blk := b }

theorem Res.KeepsInv.ok {α : Type} {r : Res α} {a : α} (hr : r.KeepsInv s) (h : r = .ok a b) : Decoding s b := by
  rw [h] at hr; exact hr

theorem Res.KeepsInv.raised {α : Type} {r : Res α} (hr : r.KeepsInv s) (h : r = .raised b) : Inv { s with blk := b } := by
  rw [h] at hr; exact hr

theorem Res.KeepsInv.bind {α β : Type} {r : Res α} {f : α → Block → Res β} (hr : r.KeepsInv s)
    (hf : ∀ a b, Decoding s b → (f a b).KeepsInv s) : (r.bind f).KeepsInv s := by
  cases r with
  | ok a b => exact hf a b hr
  | raised b => exact hr

/-- Failure entry keeps the invariant, whatever the registers and the tables hold within their ranges. -/
theorem Inv.fail (h : Inv { s with blk := b }) {e : ErrKind} (he : e.isRaised = true) {pos fc : Nat} {br : Word}
    {extra : Int} {lentab : Memory} {dectab : DecTab} (hp : pos < 2 ^ 32) (hx : -15 ≤ extra ∧ extra ≤ 16)
    (hlw : lentab.wf) (hlb : lentab.below lentabBytes) (hd : dectab.wf) (hfc : fc ≤ tsize) :
    Inv { s with blk :=
      { b with pos := pos, br := br, extra := extra, lentab := lentab, dectab := dectab, fc := fc }.fail e } :=
  { h with
    lentabWf := hlw, lentabBelow := hlb, dectabWf := hd, errNone := fun hn => absurd rfl hn, errRaised := fun _ => he
    posLt := hp, extraRange := hx, fcLe := hfc, inLenLe := nofun, setupStart := nofun, boundary := nofun }

namespace Decoding

variable (h : Decoding s b)
include h

theorem boundary : TokenBoundary s.cfg b := h.inv.boundary h.state

/-- A token that fails keeps the invariant (R258), with the registers as far as it came. -/
theorem fail {e : ErrKind} (he : e.isRaised = true) {pos : Nat} {br : Word} {extra : Int} (hp : pos ≤ b.inLen)
    (hx : -15 ≤ extra ∧ extra ≤ 16) :
    Inv { s with blk := { b with pos := pos, br := br, extra := extra }.fail e } :=
  h.inv.fail he (Nat.lt_of_le_of_lt hp h.inv.inLenLt) hx h.inv.lentabWf h.inv.lentabBelow h.inv.dectabWf h.inv.fcLe

/-- The registers that no token boundary speaks of take any value within their widths. -/
theorem update {sym : BitVec 9} {mlen moff pos : Nat} (hl : mlen < 2 ^ 17) (ho : moff < 2 ^ 16)
    (hp : pos ≤ b.inLen) : Decoding s { b with sym := sym, mlen := mlen, moff := moff, pos := pos } where
  inv := { h.inv with
    mlenLt := hl, moffLt := ho, posLt := Nat.lt_of_le_of_lt hp h.inv.inLenLt
    setupStart := fun hs => absurd (h.state.symm.trans hs) nofun
    boundary := fun _ => { h.boundary with posLe := hp } }
  state := h.state

/-- New output keeps the invariant when it stays inside the window. -/
theorem output {out : Memory} {olen : Nat} (hw : out.wf) (hb : out.below s.cfg.outMax) (ho : olen ≤ s.cfg.outMax) :
    Decoding s { b with out := out, olen := olen } where
  inv := { h.inv with
    outWf := hw, outBelow := hb, olenLe := ho
    setupStart := fun hs => absurd (h.state.symm.trans hs) nofun
    boundary := fun _ => { h.boundary with olenLe := ho } }
  state := h.state

/-- A bit register of the form of rule R50 keeps the invariant. -/
theorem register {br : Word} {extra : Int} (hx : 0 ≤ extra ∧ extra ≤ 16)
    (hz : ∀ i : Nat, (i : Int) + extra < 16 → br.getLsbD i = false) :
    Decoding s { b with br := br, extra := extra } where
  inv := { h.inv with
    extraRange := ⟨Int.le_trans (by decide) hx.1, hx.2⟩
    boundary := fun _ => { h.boundary with extraRange := hx, lowBits := hz } }
  state := h.state

/-- CONSUME of at most 15 bits keeps rule R50: what it shifts in below the valid bits is 0 (R132, R133). -/
theorem consume (hn : n ≤ 15) : (b.consume n).KeepsInv s := by
  obtain ⟨hx, hz, hp, -, -⟩ := h.boundary
  have shifted : ∀ i : Nat, (i : Int) + (b.extra - n) < 16 → (b.br <<< n).getLsbD i = false := by
    intro i hi
    rw [BitVec.getLsbD_shiftLeft]
    by_cases hin : i < n
    · simp [hin]
    · rw [hz (i - n) (by omega), Bool.and_false]
  cases hc : b.consume n with
  | ok u b' =>
    obtain ⟨he, rfl⟩ | ⟨he, hr, rfl⟩ := Block.consume_ok_cases hc
    · exact h.register (by omega) shifted
    · have filled : ∀ i : Nat, (i : Int) + (b.extra - n + 16) < 16 →
          (b.br <<< n ||| ((b.inp.read16 b.pos).setWidth 32 <<< (n - b.extra).toNat)).getLsbD i = false := by
        intro i hi
        rw [BitVec.getLsbD_or, shifted i (by omega), BitVec.getLsbD_shiftLeft]
        simp [show i < (n - b.extra).toNat by omega]
      have hr' : 2 ≤ b.inLen - b.pos := hr
      exact (h.update (sym := b.sym) (pos := b.pos + 2) h.inv.mlenLt h.inv.moffLt (by omega)).register (by omega) filled
  | raised b' =>
    obtain ⟨he, -, rfl⟩ := Block.consume_raised_cases hc
    exact h.fail rfl hp (by omega)

theorem offset (obl : BitVec 4) : (b.offset obl).KeepsInv s := by
  have keeps : (b.consume obl.toNat).KeepsInv s := h.consume (by omega)
  cases ho : b.offset obl with
  | ok u b' =>
    have hm := (Block.offset_moff ho).2
    obtain ⟨b₁, hc, rfl⟩ := Block.offset_ok_cases ho
    have h₁ := keeps.ok hc
    exact h₁.update h₁.inv.mlenLt hm h₁.boundary.posLe
  | raised b' => exact keeps.raised (Block.offset_raised_cases ho)

theorem length (ln : BitVec 4) : (b.length ln).KeepsInv s := by
  have hp := h.boundary.posLe
  have hx := h.inv.extraRange
  have hr : b.remaining = b.inLen - b.pos := rfl
  cases hl : b.length ln with
  | ok u b' =>
    have hm := Block.length_mlen hl
    obtain ⟨-, rfl⟩ | ⟨-, h1, -, rfl⟩ | ⟨-, h3, -, -, rfl⟩ := Block.length_ok_cases hl <;>
      exact h.update (Nat.lt_of_le_of_lt hm (by decide)) h.inv.moffLt (by omega)
  | raised b' =>
    obtain ⟨-, ⟨-, rfl⟩ | ⟨h1, -, -, rfl⟩ | ⟨h3, -, -, rfl⟩⟩ := Block.length_raised_cases hl <;>
      exact h.fail rfl (by omega) hx

theorem matchOperands (obl ln : BitVec 4) : (b.matchOperands s.cfg obl ln).KeepsInv s := by
  rw [Block.matchOperands]
  split
  · exact (h.length ln).bind fun _ b₁ h₁ => h₁.offset obl
  · exact (h.offset obl).bind fun _ b₁ h₁ => h₁.length ln

theorem decodeSymbol : b.decodeSymbol.KeepsInv s := by
  rw [Block.decodeSymbol_eq]
  have hl := lenOf_lt b.lentab b.nextSym.toNat
  exact (h.update (sym := b.nextSym) h.inv.mlenLt h.inv.moffLt h.boundary.posLe).consume (by omega)

theorem copy (hc : b.olen + b.mlen ≤ s.cfg.outMax) : Decoding s (b.copy b.mlen) := by
  have hw := Block.copy_out_wf h.inv.outWf b.mlen
  have hb := Block.copy_out_below h.inv.outBelow b.mlen hc
  obtain ⟨out, he⟩ := b.copy_frame b.mlen
  rw [he] at hw hb ⊢
  exact h.output hw hb hc

theorem outAppend (v : Byte) (hc : b.olen + 1 ≤ s.cfg.outMax) : Decoding s (b.outAppend v) :=
  h.output (Memory.write_wf h.inv.outWf _ _) (Memory.write_below h.inv.outBelow hc v) hc

/-- EOB leaves `DECODING`; `ERR` is still none. -/
theorem done : Inv { s with blk := { b with state := .done } } :=
  { h.inv with
    errNone := fun _ => h.inv.errNone (by rw [h.state]; nofun), errRaised := nofun
    inLenLe := nofun, setupStart := nofun, boundary := nofun }

/-- Every outcome of a TOKEN_STEP meets the invariant. -/
theorem tokenOutcome (ho : TokenOutcome s.cfg b b') : Inv { s with blk := b' } := by
  have failed {b₁ : Block} {e : ErrKind} (h₁ : Decoding s b₁) (he : e.isRaised = true) :
      Inv { s with blk := b₁.fail e } := h₁.fail he h₁.boundary.posLe h₁.inv.extraRange
  cases ho with
  | symbolRaised hs => exact h.decodeSymbol.raised hs
  | appended v hs hc => exact ((h.decodeSymbol.ok hs).outAppend v hc).inv
  | literalOverflows hs => exact failed (h.decodeSymbol.ok hs) rfl
  | ended hs => exact (h.decodeSymbol.ok hs).done
  | operandsRaised hs ho => exact ((h.decodeSymbol.ok hs).matchOperands _ _).raised ho
  | checkRaised e hs ho he => exact failed (((h.decodeSymbol.ok hs).matchOperands _ _).ok ho) he
  | copied hs ho hc => exact ((((h.decodeSymbol.ok hs).matchOperands _ _).ok ho).copy hc).inv

end Decoding
end Sys2Proof.Machine
end

section
/-! PROOFS. The table SETUP builds, what SETUP can leave, and that it keeps the invariant. -/

namespace Sys2Proof.Machine

variable {s t : State} {b b' : Block} {lt : Memory} {n : Nat}

/-! ### The table SETUP builds (R38, R50 (e), R152) -/

/-- The table BUILD_TABLE leaves when the code is complete: the runs of the used symbols in code order. It is
irreducible so that no unification runs through the 512 symbols. -/
@[irreducible] def builtTable (lt : Memory) : DecTab := (codeOrder lt).map (runOf lt)

theorem builtTable_eq (lt : Memory) : (codeOrder lt).map (runOf lt) = builtTable lt := by
  unfold builtTable; rfl

theorem builtTable_size (lt : Memory) : (builtTable lt).size = slotsOf lt (codeOrder lt) := by
  rw [← builtTable_eq, DecTab.size_map_runOf]

/-- A run of a built table is that of a used symbol. -/
theorem mem_builtTable {r : Run} (h : r ∈ builtTable lt) : ∃ u ∈ codeOrder lt, runOf lt u = r := by
  rw [← builtTable_eq] at h; exact List.mem_map.mp h

/-- No symbol stands twice in code order. -/
theorem codeOrder_nodup (lt : Memory) : (codeOrder lt).Nodup := by
  rw [codeOrder, List.nodup_flatMap]
  refine ⟨fun len _ => List.nodup_range.filter _, ?_⟩
  refine (List.nodup_range' (step := 1)).imp fun {len len'} hne s hs hs' => ?_
  simp only [List.mem_filter, decide_eq_true_eq] at hs hs'
  exact hne (hs.2.symm.trans hs'.2)

theorem runOf_entry_toNat {u : Nat} (hu : u < 512) : (runOf lt u).entry.toNat = u := by
  show (BitVec.ofNat 16 u).toNat = u
  rw [BitVec.toNat_ofNat, Nat.mod_eq_of_lt (by omega)]

/-- A built table is in canonical form: every symbol's run is not empty, and no two symbols have the same word. -/
theorem builtTable_wf (h : slotsOf lt (codeOrder lt) = 32768) : (builtTable lt).wf := by
  refine ⟨(builtTable_size lt).trans h, fun r hr => ?_, ?_⟩
  · obtain ⟨u, -, rfl⟩ := mem_builtTable hr
    exact Nat.two_pow_pos _
  · rw [← builtTable_eq]
    refine List.Pairwise.isChain (List.pairwise_map.mpr ?_)
    refine (codeOrder_nodup lt).imp_of_mem fun {u v} hu hv hne he => hne ?_
    rw [← runOf_entry_toNat (lt := lt) (mem_codeOrder.mp hu).1, he, runOf_entry_toNat (mem_codeOrder.mp hv).1]

/-- Every slot of a built table holds a used symbol (R50 (e)). -/
theorem builtTable_entries (h : slotsOf lt (codeOrder lt) = 32768) {i : Nat} (hi : i < tsize) :
    let sym := ((builtTable lt).read i).toNat
    sym < nsym ∧ 1 ≤ lenOf lt sym ∧ lenOf lt sym ≤ maxLen := by
  have whole : i < (builtTable lt).size := by rw [builtTable_size, h]; exact hi
  obtain ⟨r, hr, -, he⟩ := DecTab.exists_run whole
  obtain ⟨u, hu, rfl⟩ := mem_builtTable hr
  obtain ⟨hlt, hused⟩ := mem_codeOrder.mp hu
  rw [he, runOf_entry_toNat hlt]
  exact ⟨hlt, hused, Nat.le_of_lt_succ (lenOf_lt lt u)⟩

/-! ### SETUP keeps the invariant (R223) -/

theorem Block.prime_ok_cases {u : Unit} (h : b.prime = .ok u b') : 4 ≤ b.remaining ∧ b' = b.primed := by
  by_cases h4 : 4 ≤ b.remaining
  · rw [Block.prime_ok h4] at h; cases h; exact ⟨h4, rfl⟩
  · by_cases h2 : 2 ≤ b.remaining
    · rw [Block.prime_short_second h2 (by omega)] at h; cases h
    · rw [Block.prime_short_first (by omega)] at h; cases h

/-- PRIME raises at the first or at the second word (R131). -/
theorem Block.prime_raised_cases (h : b.prime = .raised b') :
    b' = b.fail .truncatedInput ∨ (2 ≤ b.remaining ∧ b' = { b with pos := b.pos + 2 }.fail .truncatedInput) := by
  by_cases h2 : 2 ≤ b.remaining
  · by_cases h4 : 4 ≤ b.remaining
    · rw [Block.prime_ok h4] at h; cases h
    · rw [Block.prime_short_second h2 (by omega)] at h; cases h; exact .inr ⟨h2, rfl⟩
  · rw [Block.prime_short_first (by omega)] at h; cases h; exact .inl rfl

/-- Everything SETUP (R223) can leave of the block `b`. -/
inductive SetupOutcome (draw : Nat) (b : Block) : Block → Prop where
  | noLengths : SetupOutcome draw b (b.fail .truncatedInput)
  | noTable {fc : Nat} (e : ErrKind) (he : e.isRaised = true) (hr : 256 ≤ b.remaining) (hfc : fc ≤ tsize) :
      SetupOutcome draw b ({ b with
        pos := b.pos + 256, lentab := b.inp.slice b.pos 256, dectab := DecTab.free draw, fc := fc }.fail e)
  | noWords {pos : Nat} (hk : slotsOf (b.inp.slice b.pos 256) (codeOrder (b.inp.slice b.pos 256)) = 32768)
      (hp : b.pos ≤ pos) (hp' : pos ≤ b.inLen) :
      SetupOutcome draw b ({ b with
        pos := pos, lentab := b.inp.slice b.pos 256, dectab := builtTable (b.inp.slice b.pos 256),
        fc := 32768 }.fail .truncatedInput)
  | primed {br : Word} (hk : slotsOf (b.inp.slice b.pos 256) (codeOrder (b.inp.slice b.pos 256)) = 32768)
      (hr : b.pos + 260 ≤ b.inLen) :
      SetupOutcome draw b { b with
        state := .decoding, pos := b.pos + 260, br := br, extra := 16, lentab := b.inp.slice b.pos 256,
        dectab := builtTable (b.inp.slice b.pos 256), fc := 32768 }

theorem Block.setup_outcome (draw : Nat) (b : Block) : SetupOutcome draw b (b.setup draw).block := by
  have hrem : b.remaining = b.inLen - b.pos := rfl
  obtain ⟨-, he⟩ | ⟨hr, b₁, h₁, ⟨b₂, hb, he⟩ | ⟨b₂, hb, hprime⟩⟩ := b.setup_cases draw
  · rw [he]; exact .noLengths
  · rw [he]
    obtain ⟨-, ht⟩ | ⟨hk, ht⟩ | ⟨-, fc, hfc, ht⟩ := Block.buildTable_cases draw b₁ <;> cases ht.symm.trans hb <;> subst h₁
    · exact .noTable _ rfl hr (Nat.le_of_lt hk)
    · exact .noTable _ rfl hr hfc
  · obtain ⟨hk, ht⟩ | ⟨-, ht⟩ | ⟨-, fc, -, ht⟩ := Block.buildTable_cases draw b₁ <;> rw [hb] at ht <;> cases ht
    rw [builtTable_eq] at hprime
    subst h₁
    obtain ⟨b₃, hp, he⟩ | ⟨b₃, hp, he⟩ := hprime <;> rw [he]
    · obtain rfl | ⟨h2, rfl⟩ := Block.prime_raised_cases hp
      · exact .noWords (pos := b.pos + 256) hk (by omega) (by omega)
      · dsimp only [Block.remaining] at h2
        exact .noWords (pos := b.pos + 256 + 2) hk (by omega) (by omega)
    · obtain ⟨h4, rfl⟩ := Block.prime_ok_cases hp
      dsimp only [Block.remaining] at h4
      exact .primed hk (by omega)

theorem Inv.setup (h : Inv s) (hs : s.blk.state = .setup) (ho : SetupOutcome n s.blk b') :
    Inv { s with blk := b' } := by
  have hlen := h.inLenLt
  have hrem : s.blk.remaining = s.blk.inLen - s.blk.pos := rfl
  have hlw := Memory.slice_wf h.inpWf s.blk.pos 256
  have hlb := Memory.slice_below s.blk.inp s.blk.pos 256
  cases ho with
  | noLengths => exact h.fail rfl h.posLt h.extraRange h.lentabWf h.lentabBelow h.dectabWf h.fcLe
  | noTable e he hr hfc => exact h.fail he (by omega) h.extraRange hlw hlb (DecTab.free_wf n) hfc
  | noWords hk hp hp' => exact h.fail rfl (by omega) h.extraRange hlw hlb (builtTable_wf hk) (Nat.le_refl tsize)
  | primed hk hr =>
    exact { h with
      lentabWf := hlw, lentabBelow := hlb, dectabWf := builtTable_wf hk, fcLe := Nat.le_refl tsize
      errNone := fun _ => h.errNone (by rw [hs]; nofun), errRaised := nofun
      posLt := Nat.lt_of_le_of_lt hr hlen, extraRange := (by decide : (-15 : Int) ≤ 16 ∧ (16 : Int) ≤ 16)
      inLenLe := fun _ => h.inLenLe (by rw [hs]; rfl), setupStart := nofun
      boundary := fun _ =>
        { extraRange := (by decide : (0 : Int) ≤ 16 ∧ (16 : Int) ≤ 16)
          lowBits := fun i (hi : (i : Int) + 16 < 16) => absurd hi (by omega)
          posLe := hr, olenLe := h.olenLe, entries := fun i hi => builtTable_entries hk hi } }

end Sys2Proof.Machine
end

section
/-! PROOFS. The host's moves keep the invariant, and with them every step (O48, O49). -/

namespace Sys2Proof.Machine

variable {s t : State} {b b' : Block} {rest : List HostMove}

/-! ### The host's moves and the reset keep the invariant -/

/-- The invariant speaks of the block and of the parameters only. -/
theorem Inv.congr (h : Inv s) (hb : t.blk = s.blk) (hc : t.cfg = s.cfg) : Inv t := by
  cases s; cases t; cases hb; cases hc
  exact { h with }

/-- The reset values meet the invariant, whatever the parameters (R51, log entry 4). -/
theorem Inv.resetWith (c : Config) : Inv (State.resetWith c) where
  inpWf := (by decide : Block.reset.inp.wf)
  inpBelow := nofun
  outWf := (by decide : Block.reset.out.wf)
  outBelow := nofun
  lentabWf := (by decide : Block.reset.lentab.wf)
  lentabBelow := nofun
  dectabWf := (by decide : Block.reset.dectab.wf)
  errNone _ := rfl
  errRaised := nofun
  olenLe := Nat.zero_le _
  inLenLt := by simp
  posLt := by simp
  extraRange := by simp
  fcLe := Nat.zero_le _
  mlenLt := by simp
  moffLt := by simp
  inLenLe := nofun
  setupStart := nofun
  boundary := nofun

/-- A `CTRL` write holds RESET, START or nothing (R43): the cases of its two low bits. -/
theorem decodeCtrl_reset {v : Word} (h : v.getLsbD 1 = true) : decodeCtrl v = .ok .reset := by
  rw [decodeCtrl, if_pos h]

theorem decodeCtrl_start {v : Word} (h : v.getLsbD 1 = false) (h' : v.getLsbD 0 = true) : decodeCtrl v = .ok .start := by
  rw [decodeCtrl, if_neg (by rw [h]; nofun), if_pos h']

theorem decodeCtrl_none {v : Word} (h : v.getLsbD 1 = false) (h' : v.getLsbD 0 = false) :
    decodeCtrl v = .error .noCommandBit := by
  rw [decodeCtrl, if_neg (by rw [h]; nofun), if_neg (by rw [h']; nofun)]

/-- An accepted START keeps the invariant: it bounds `INLEN`, and begins at `POS = OLEN = 0` (R221). -/
theorem Inv.launch (h : Inv s) (hl : s.blk.inLen ≤ s.cfg.inMax) :
    Inv { s with blk := s.blk.launch, launchRefused := false } :=
  { h with
    errNone := fun _ => rfl, errRaised := nofun, olenLe := Nat.zero_le _, posLt := by simp
    inLenLe := fun _ => hl, setupStart := fun _ => ⟨rfl, rfl⟩, boundary := nofun }

theorem exec_start_keeps_inv (hi : Inv s) (h : exec .start s = .next t) : Inv t := by
  by_cases hb : s.blk.state.busy = true
  · rw [exec_start_busy hb] at h; cases h; exact hi
  · by_cases hl : s.blk.inLen ≤ s.cfg.inMax
    · rw [exec_start_accepted (by simpa using hb) hl] at h; cases h; exact hi.launch hl
    · rw [exec_start_refused (by simpa using hb) (by omega)] at h; cases h; exact hi.congr rfl rfl

theorem exec_reset_keeps_inv (h : exec .reset s = .next t) : Inv t := by
  cases h; exact (Inv.resetWith s.cfg).congr rfl rfl

theorem writeCtrl_keeps_inv {v : Word} (hi : Inv s) (h : writeCtrl v s = .next t) : Inv t := by
  cases h1 : v.getLsbD 1 with
  | true => rw [writeCtrl_command (decodeCtrl_reset h1)] at h; exact exec_reset_keeps_inv h
  | false =>
    cases h0 : v.getLsbD 0 with
    | true => rw [writeCtrl_command (decodeCtrl_start h1 h0)] at h; exact exec_start_keeps_inv hi h
    | false => rw [writeCtrl_none (decodeCtrl_none h1 h0)] at h; cases h; exact hi

/-- While `BUSY = 0` the invariant bounds `INLEN` by its width only, so any 32-bit value may be written (R45). -/
theorem Inv.writeInLen (h : Inv s) (hb : s.blk.state.busy = false) (v : Word) :
    Inv { s with blk := { s.blk with inLen := v.toNat } } :=
  { h with
    inLenLt := v.isLt, inLenLe := fun hbusy => absurd (hb.symm.trans hbusy) nofun
    boundary := fun hd : s.blk.state = .decoding => by rw [hd] at hb; cases hb }

theorem writeReg_keeps_inv {r : HostReg} {v : Word} (hi : Inv s) (h : s.writeReg r v = .next t) : Inv t := by
  cases r with
  | ctrl => exact writeCtrl_keeps_inv hi h
  | inLen =>
    simp only [State.writeReg] at h
    split at h
    · cases h; exact hi
    · rename_i hb
      cases h; exact hi.writeInLen (by simpa using hb) v
  | status => cases h; exact hi
  | outLen => cases h; exact hi
  | inPos => cases h; exact hi
  | reserved k => cases h; exact hi

theorem writeInWindow_keeps_inv {i : Nat} {v : Byte} (hi : Inv s) (h : s.writeInWindow i v = .next t) : Inv t := by
  simp only [State.writeInWindow] at h
  split at h
  · rename_i hlt
    split at h
    · cases h
    · rename_i hb
      cases h
      exact { hi with
        inpWf := Memory.write_wf hi.inpWf i v, inpBelow := Memory.write_below hi.inpBelow hlt v
        boundary := fun hd : s.blk.state = .decoding => absurd (by rw [hd]; rfl) hb }
  · cases h

/-! ### Every step keeps the invariant -/

theorem blockStep_keeps_inv (hi : Inv s) (h : blockStep s = .next t) : Inv t := by
  cases hs : s.blk.state with
  | idle => rw [blockStep_idle hs] at h; cases h; exact hi
  | setup =>
    rw [blockStep_setup hs] at h; cases h
    exact (hi.setup hs (s.blk.setup_outcome s.draw)).congr rfl rfl
  | decoding =>
    rw [blockStep_decoding hs] at h
    obtain ⟨b, rfl, ho⟩ := tokenStep_cases h
    exact Decoding.tokenOutcome ⟨hi, hs⟩ ho
  | done => rw [blockStep_done hs] at h; cases h; exact hi
  | failed => rw [blockStep_failed hs] at h; cases h; exact hi

theorem hostStep_keeps_inv {m : HostMove} (hi : Inv s) (h : hostStep m s = .next t) : Inv t := by
  cases m with
  | run => exact blockStep_keeps_inv hi h
  | writeReg r v => exact writeReg_keeps_inv hi h
  | readReg r => cases h; exact hi.congr rfl rfl
  | writeIn i v => exact writeInWindow_keeps_inv hi h
  | readIn i => simp only [hostStep] at h; split at h <;> cases h; exact hi.congr rfl rfl
  | writeOut i v => simp only [hostStep] at h; split at h <;> cases h; exact hi
  | readOut i => simp only [hostStep] at h; split at h <;> cases h; exact hi.congr rfl rfl
  | assertReset => exact exec_reset_keeps_inv h

end Sys2Proof.Machine

namespace Sys2Proof.Claims

open Sys2Proof.Machine

/-- Settles O49: with no move left the block's own step keeps the invariant, and otherwise the host's move does; taking the
move off the list changes nothing the invariant speaks of. -/
theorem invariantIsKept : Obligations.InvariantIsKept := by
  intro s t hi h
  cases hh : s.host with
  | nil => rw [step_no_move hh] at h; exact blockStep_keeps_inv hi h
  | cons m rest => rw [step_move hh] at h; exact hostStep_keeps_inv (s := { s with host := rest }) (hi.congr rfl rfl) h

/-- Settles O48, for every choice of the parameters. -/
theorem invariantHoldsAtReset : Obligations.InvariantHoldsAtReset := Inv.resetWith

end Sys2Proof.Claims
end

section
/-! PROOFS. Non-interference (R52, R234): two blocks at the same point of the same decode, operation by operation. -/

namespace Sys2Proof.Machine

variable {a b a' b' : Block} {c : Config} {n : Nat} {obl ln : BitVec 4} {α β : Type} {e : ErrKind}

/-! ### What two blocks of the same decode share, in layers -/

/-- The blocks agree on the stream they read and write: input below `INLEN`, output below `OLEN`, the cursors, `ERR`. -/
structure SameStream (a b : Block) : Prop where
  err : a.err = b.err
  inLen : a.inLen = b.inLen
  inp : ∀ i, i < a.inLen → a.inp.read i = b.inp.read i
  pos : a.pos = b.pos
  olen : a.olen = b.olen
  out : ∀ i, i < a.olen → a.out.read i = b.out.read i

/-- They agree on the code lengths of the 512 symbols too. -/
structure SameLens (a b : Block) : Prop extends SameStream a b where
  lens : ∀ s, s < nsym → lenOf a.lentab s = lenOf b.lentab s

/-- And on the entries of the decoding table. -/
structure SameTables (a b : Block) : Prop extends SameLens a b where
  table : ∀ i, i < tsize → a.dectab.read i = b.dectab.read i

/-- And on the bit register. -/
structure SameBits (a b : Block) : Prop extends SameTables a b where
  br : a.br = b.br
  extra : a.extra = b.extra

/-- Two blocks inside the same token: both are decoding, with `OUT` in canonical form. -/
structure SameToken (a b : Block) : Prop extends SameBits a b where
  decoding : a.state = .decoding
  decoding' : b.state = .decoding
  outWf : a.out.wf
  outWf' : b.out.wf

theorem SameDecode.sameStream (h : SameDecode a b) : SameStream a b :=
  ⟨h.err, h.inLen, h.inp, h.pos, h.olen, h.out⟩

theorem SameDecode.sameToken (h : SameDecode a b) (hd : a.state = .decoding) (hw : a.out.wf) (hw' : b.out.wf) :
    SameToken a b :=
  { h.sameStream with
    lens := h.lens hd, table := h.table hd, br := (h.bits hd).1, extra := (h.bits hd).2
    decoding := hd, decoding' := h.state.symm.trans hd, outWf := hw, outWf' := hw' }

/-- Blocks that agree on everything are at the same point of the same decode, in whatever state both are. -/
theorem SameBits.sameDecode (h : SameBits a b) (hs : a.state = b.state) : SameDecode a b :=
  { h with state := hs, bits := fun _ => ⟨h.br, h.extra⟩, lens := fun _ => h.lens, table := fun _ => h.table }

theorem SameToken.sameDecode (h : SameToken a b) : SameDecode a b :=
  h.toSameBits.sameDecode (h.decoding.trans h.decoding'.symm)

/-- In `FAILED` nothing but the stream counts. -/
theorem SameStream.fail (h : SameStream a b) (e : ErrKind) : SameDecode (a.fail e) (b.fail e) :=
  { h with state := rfl, err := rfl, bits := nofun, lens := nofun, table := nofun }

theorem SameStream.remaining (h : SameStream a b) : a.remaining = b.remaining := by
  rw [Block.remaining, h.inLen, h.pos]; rfl

theorem SameStream.read8 (h : SameStream a b) (hr : 1 ≤ a.remaining) : a.inp.read a.pos = b.inp.read b.pos := by
  rw [Block.remaining] at hr
  rw [← h.pos]; exact h.inp _ (by omega)

theorem SameStream.read16 (h : SameStream a b) {i j : Nat} (hij : i = j) (hi : i + 1 < a.inLen) :
    a.inp.read16 i = b.inp.read16 j := by
  subst hij
  rw [Memory.read16, Memory.read16, h.inp i (by omega), h.inp (i + 1) hi]

/-- The tables are no part of the stream. -/
theorem SameStream.setTables (h : SameStream a b) {dectab dectab' : DecTab} {fc fc' : Nat} :
    SameStream { a with dectab := dectab, fc := fc } { b with dectab := dectab', fc := fc' } := { h with }

theorem SameStream.advance (h : SameStream a b) (n : Nat) :
    SameStream { a with pos := a.pos + n } { b with pos := b.pos + n } :=
  { h with pos := by show a.pos + n = b.pos + n; rw [h.pos] }

/-! ### Results of the same operation on both -/

/-- Both answer the same value, with blocks related by `P`, or both raise, at the same point of the same decode. -/
inductive Res.Same (P : Block → Block → Prop) : Res α → Res α → Prop where
  | ok {x : α} {a b : Block} (h : P a b) : Res.Same P (.ok x a) (.ok x b)
  | raised {a b : Block} (h : SameDecode a b) : Res.Same P (.raised a) (.raised b)

theorem Res.Same.ok_of_eq {P : Block → Block → Prop} {x y : α} (hxy : x = y) (h : P a b) :
    Res.Same P (.ok x a) (.ok y b) := hxy ▸ .ok h

theorem Res.Same.bind {P Q : Block → Block → Prop} {r q : Res α} {f g : α → Block → Res β} (h : Res.Same P r q)
    (hf : ∀ x a b, r = .ok x a → q = .ok x b → P a b → Res.Same Q (f x a) (g x b)) :
    Res.Same Q (r.bind f) (q.bind g) := by
  cases h with
  | ok h => exact hf _ _ _ rfl rfl h
  | raised h => exact .raised h

/-- What is known of the answers may be used to say more of the blocks. -/
theorem Res.Same.imp {P Q : Block → Block → Prop} {r q : Res α} (h : Res.Same P r q)
    (hpq : ∀ x a b, r = .ok x a → q = .ok x b → P a b → Q a b) : Res.Same Q r q := by
  cases h with
  | ok h => exact .ok (hpq _ _ _ rfl rfl h)
  | raised h => exact .raised h

theorem Res.Same.block {P : Block → Block → Prop} {r q : Res α} (h : Res.Same P r q)
    (hP : ∀ a b, P a b → SameDecode a b) : SameDecode r.block q.block := by
  cases h with
  | ok h => exact hP _ _ h
  | raised h => exact h

theorem SameStream.raise (h : SameStream a b) {P : Block → Block → Prop} :
    Res.Same P (raise e a : Res α) (raise e b) := .raised (h.fail e)

/-! ### SETUP on both (R223) -/

theorem SameStream.loadLentab (h : SameStream a b) : Res.Same SameLens a.loadLentab b.loadLentab := by
  by_cases hr : 256 ≤ a.remaining
  · rw [Block.loadLentab_ok hr, Block.loadLentab_ok (h.remaining ▸ hr)]
    have bytes : ∀ i, i < 256 → (a.inp.slice a.pos 256).read i = (b.inp.slice b.pos 256).read i := by
      intro i hi
      rw [Block.remaining] at hr
      rw [Memory.read_slice, Memory.read_slice, if_pos hi, if_pos hi, ← h.pos, h.inp _ (by omega)]
    refine .ok { h.advance 256 with lens := fun s (hs : s < 512) => ?_ }
    show lenOf (a.inp.slice a.pos 256) s = lenOf (b.inp.slice b.pos 256) s
    rw [lenOf, lenOf, bytes _ (by omega)]
  · rw [Block.loadLentab_short (by omega), Block.loadLentab_short (by rw [← h.remaining]; omega)]
    exact .raised (h.fail _)

variable {lt lt' : Memory}

theorem codeOrder_congr (h : ∀ s, s < nsym → lenOf lt s = lenOf lt' s) : codeOrder lt = codeOrder lt' := by
  rw [codeOrder, codeOrder]
  refine congrArg (List.range' 1 15).flatMap (funext fun len => List.filter_congr fun s hs => ?_)
  rw [h s (List.mem_range.mp hs)]

theorem fillSymbol_congr {len s : Nat} (h : lenOf lt s = lenOf lt' s) (acc : Build) :
    fillSymbol lt len s acc = fillSymbol lt' len s acc := by
  cases acc with
  | overflow fc => rfl
  | filling fc slots => rw [fillSymbol, fillSymbol, h]

/-- The builder looks at the code lengths of the 512 symbols only. -/
theorem fillTable_congr (h : ∀ s, s < nsym → lenOf lt s = lenOf lt' s) : fillTable lt = fillTable lt' := by
  rw [fillTable_eq, fillTable_eq, ← codeOrder_congr h]
  refine List.foldl_ext _ _ _ fun acc s hs => ?_
  have hl := h s (mem_codeOrder.mp hs).1
  rw [fillNext, fillNext, ← hl, fillSymbol_congr hl]

/-- The two free tables of failed builds may differ: nothing reads them (R153). -/
theorem SameLens.buildTable (h : SameLens a b) (draw draw' : Nat) :
    Res.Same SameTables (a.buildTable draw) (b.buildTable draw') := by
  rw [Block.buildTable, Block.buildTable, ← fillTable_congr h.lens]
  cases fillTable a.lentab with
  | overflow fc => exact h.setTables.raise
  | filling fc slots =>
    rw [Block.installTable, Block.installTable]
    split
    · exact .ok { h with table := fun _ _ => rfl }
    · exact h.setTables.raise

theorem SameTables.prime (h : SameTables a b) : Res.Same SameBits a.prime b.prime := by
  have hrem := h.remaining
  by_cases h2 : 2 ≤ a.remaining
  · by_cases h4 : 4 ≤ a.remaining
    · rw [Block.prime_ok h4, Block.prime_ok (hrem ▸ h4)]
      rw [Block.remaining] at h4
      have w0 := h.read16 h.pos (by omega)
      have w1 := h.read16 (congrArg (· + 2) h.pos) (by show a.pos + 2 + 1 < _; omega)
      exact .ok { h with pos := (h.advance 4).pos, br := congrArg₂ (· ++ ·) w0 w1, extra := rfl }
    · rw [Block.prime_short_second h2 (by omega), Block.prime_short_second (hrem ▸ h2) (by omega)]
      exact .raised ((h.advance 2).fail _)
  · rw [Block.prime_short_first (by omega), Block.prime_short_first (by omega)]
    exact .raised (h.fail _)

theorem SameStream.setup (h : SameStream a b) (draw draw' : Nat) :
    SameDecode (a.setup draw).block (b.setup draw').block := by
  have same : Res.Same SameDecode (a.setup draw) (b.setup draw') := by
    refine h.loadLentab.bind fun _ a₁ b₁ _ _ h₁ => ?_
    refine (h₁.buildTable draw draw').bind fun _ a₂ b₂ _ _ h₂ => ?_
    refine h₂.prime.bind fun _ a₃ b₃ _ _ h₃ => .ok ?_
    have running : SameBits { a₃ with state := .decoding } { b₃ with state := .decoding } := { h₃ with }
    exact running.sameDecode rfl
  exact same.block fun _ _ h => h

/-! ### A token on both (R180) -/

namespace SameToken

variable (h : SameToken a b)
include h

/-- Registers outside the relation may take any values, and those in it the same ones. -/
theorem update {pos pos' : Nat} {br br' : Word} {extra extra' : Int} {sym sym' : BitVec 9} {mlen mlen' moff moff' : Nat}
    (hp : pos = pos') (hb : br = br') (hx : extra = extra') :
    SameToken { a with pos := pos, br := br, extra := extra, sym := sym, mlen := mlen, moff := moff }
      { b with pos := pos', br := br', extra := extra', sym := sym', mlen := mlen', moff := moff' } :=
  { h with pos := hp, br := hb, extra := hx }

theorem consume (n : Nat) : Res.Same SameToken (a.consume n) (b.consume n) := by
  have hx := h.extra
  have hrem := h.remaining
  have shifted : a.br <<< n = b.br <<< n := by rw [h.br]
  by_cases he : (n : Int) ≤ a.extra
  · rw [Block.consume_within he, Block.consume_within (hx ▸ he)]
    exact .ok (h.update h.pos shifted (by rw [hx]))
  · by_cases hr : 2 ≤ a.remaining
    · rw [Block.consume_refills (by omega) hr, Block.consume_refills (by omega) (hrem ▸ hr)]
      rw [Block.remaining] at hr
      have word := h.read16 h.pos (by omega)
      exact .ok (h.update (h.advance 2).pos (by rw [shifted, word, hx]) (by rw [hx]))
    · rw [Block.consume_short (by omega) (by omega), Block.consume_short (by omega) (by omega)]
      exact .raised ((h.update h.pos shifted (by rw [hx])).fail _)

theorem nextSym : a.nextSym = b.nextSym := by
  have idx : a.peek15 = b.peek15 := by rw [Block.peek15, Block.peek15, h.br]
  rw [Block.nextSym, Block.nextSym, ← idx, h.table _ a.peek15_lt]

theorem decodeSymbol : Res.Same (fun a' b' => SameToken a' b' ∧ a'.sym = b'.sym) a.decodeSymbol b.decodeSymbol := by
  have len : lenOf a.lentab a.nextSym.toNat = lenOf b.lentab b.nextSym.toNat := by
    rw [← h.nextSym]; exact h.lens _ a.nextSym.isLt
  have same : Res.Same SameToken a.decodeSymbol b.decodeSymbol := by
    rw [Block.decodeSymbol_eq, Block.decodeSymbol_eq, len]
    exact (h.update (sym := a.nextSym) (sym' := b.nextSym) h.pos h.br h.extra).consume _
  refine same.imp fun _ a' b' ha hb h' => ⟨h', ?_⟩
  rw [Block.decodeSymbol_sym ha, Block.decodeSymbol_sym hb, h.nextSym]

theorem extByte (obl : BitVec 4) : a.extByte c obl = b.extByte c obl := by
  have place : a.extPos c obl = b.extPos c obl := by rw [Block.extPos, Block.extPos, h.pos, h.extra]
  rw [Block.extByte, Block.extByte, ← place, ← h.inLen]
  split
  · rename_i hlt; exact congrArg some (h.inp _ hlt)
  · rfl

theorem fetchToken : Res.Same SameToken (a.fetchToken c) (b.fetchToken c) := by
  refine h.decodeSymbol.bind fun _ a' b' _ _ h' => ?_
  obtain ⟨h', hs⟩ := h'
  exact .ok_of_eq (by rw [hs, h'.remaining, h'.extByte]) h'

theorem offset (obl : BitVec 4) :
    Res.Same (fun a' b' => SameToken a' b' ∧ a'.moff = b'.moff) (a.offset obl) (b.offset obl) := by
  have top : a.topBits obl.toNat = b.topBits obl.toNat := by rw [Block.topBits, Block.topBits, h.br]
  refine Res.Same.bind (P := SameToken) ?_ fun _ a' b' _ _ h' => .ok ⟨h'.update h'.pos h'.br h'.extra, rfl⟩
  exact (h.consume obl.toNat).bind fun _ a' b' _ _ h' => .ok_of_eq top h'

theorem readByte : Res.Same SameToken a.readByte b.readByte := by
  have hrem := h.remaining
  by_cases hr : 1 ≤ a.remaining
  · rw [Block.readByte_ok hr, Block.readByte_ok (hrem ▸ hr)]
    exact .ok_of_eq (h.read8 hr) (h.update (h.advance 1).pos h.br h.extra)
  · rw [Block.readByte_short (by omega), Block.readByte_short (by omega)]; exact .raised (h.fail _)

theorem readU16 : Res.Same SameToken a.readU16 b.readU16 := by
  have hrem := h.remaining
  by_cases hr : 2 ≤ a.remaining
  · rw [Block.readU16_ok hr, Block.readU16_ok (hrem ▸ hr)]
    rw [Block.remaining] at hr
    exact .ok_of_eq (h.read16 h.pos (by omega)) (h.update (h.advance 2).pos h.br h.extra)
  · rw [Block.readU16_short (by omega), Block.readU16_short (by omega)]; exact .raised (h.fail _)

theorem lengthWord : Res.Same SameToken a.lengthWord b.lengthWord := by
  refine h.readU16.bind fun v a' b' _ _ h' => ?_
  split
  · exact h'.raise
  · exact .ok h'

theorem lengthExt : Res.Same SameToken a.lengthExt b.lengthExt := by
  refine h.readByte.bind fun e a' b' _ _ h' => ?_
  split
  · exact h'.lengthWord
  · exact .ok h'

theorem length (ln : BitVec 4) :
    Res.Same (fun a' b' => SameToken a' b' ∧ a'.mlen = b'.mlen) (a.length ln) (b.length ln) := by
  rw [Block.length, Block.length]
  split
  · exact .ok ⟨h.update h.pos h.br h.extra, rfl⟩
  · exact h.lengthExt.bind fun e a' b' _ _ h' => .ok ⟨h'.update h'.pos h'.br h'.extra, rfl⟩

theorem matchOperands (obl ln : BitVec 4) :
    Res.Same (fun a' b' => SameToken a' b' ∧ a'.moff = b'.moff ∧ a'.mlen = b'.mlen)
      (a.matchOperands c obl ln) (b.matchOperands c obl ln) := by
  rw [Block.matchOperands, Block.matchOperands]
  split
  · refine (h.length ln).bind fun _ a₁ b₁ _ _ h₁ => ?_
    obtain ⟨h₁, hm⟩ := h₁
    refine (h₁.offset obl).imp fun _ a₂ b₂ ha hb h₂ => ⟨h₂.1, h₂.2, ?_⟩
    rw [Block.offset_mlen ha, Block.offset_mlen hb, hm]
  · refine (h.offset obl).bind fun _ a₁ b₁ _ _ h₁ => ?_
    obtain ⟨h₁, hm⟩ := h₁
    refine (h₁.length ln).imp fun _ a₂ b₂ ha hb h₂ => ⟨h₂.1, ?_, h₂.2⟩
    rw [Block.length_moff ha, Block.length_moff hb, hm]

theorem outAppend (v : Byte) : SameToken (a.outAppend v) (b.outAppend v) :=
  { h with
    olen := congrArg (· + 1) h.olen
    out := fun i (hi : i < a.olen + 1) => by
      rw [Block.outAppend_out, Block.outAppend_out, Memory.read_write h.outWf, Memory.read_write h.outWf', ← h.olen]
      split
      · rfl
      · exact h.out i (by omega)
    outWf := Memory.write_wf h.outWf _ _, outWf' := Memory.write_wf h.outWf' _ _ }

omit h in
/-- COPY reads below `OLEN` only, since `MOFF` is not 0 (R190, R191). -/
theorem copy (h : SameToken a b) (hm : a.moff = b.moff) (h1 : 1 ≤ a.moff) (ho : a.moff ≤ a.olen) (n : Nat) :
    SameToken (a.copy n) (b.copy n) := by
  induction n generalizing a b with
  | zero => exact h
  | succ n ih =>
    have byte : a.outRead (a.olen - a.moff) = b.outRead (b.olen - b.moff) := by
      rw [Block.outRead, Block.outRead, ← hm, ← h.olen]; exact h.out _ (by omega)
    rw [Block.copy_succ, Block.copy_succ, ← byte]
    exact ih (h.outAppend _) hm h1 (Nat.le_succ_of_le ho)

theorem matchCopy (hm : a.moff = b.moff) (h1 : 1 ≤ a.moff) (hl : a.mlen = b.mlen) :
    Res.Same SameToken (a.matchCopy c) (b.matchCopy c) := by
  have ho := h.olen
  rw [Block.matchCopy, Block.matchCopy]
  by_cases hb : a.moff ≤ a.olen
  · rw [Block.checkBounds_ok hb, Block.checkBounds_ok (by omega), Res.bind_ok, Res.bind_ok]
    by_cases hc : a.olen + a.mlen ≤ c.outMax
    · rw [Block.checkCapacity_ok hc, Block.checkCapacity_ok (by omega), Res.bind_ok, Res.bind_ok, ← hl]
      exact .ok (h.copy hm h1 hb _)
    · rw [Block.checkCapacity_fails (by omega), Block.checkCapacity_fails (by omega)]; exact .raised (h.fail _)
  · rw [Block.checkBounds_fails (by omega), Block.checkBounds_fails (by omega)]; exact .raised (h.fail _)

theorem matchCommon (obl ln : BitVec 4) : Res.Same SameToken (a.matchCommon c obl ln) (b.matchCommon c obl ln) := by
  refine (h.matchOperands obl ln).bind fun _ a' b' ha _ h' => ?_
  obtain ⟨h', hm, hl⟩ := h'
  exact h'.matchCopy hm (Block.matchOperands_ok ha).1 hl

theorem literal (v : Byte) : Res.Same SameToken
    ((a.checkCapacity c 1).bind fun _ b => .ok () (b.outAppend v))
    ((b.checkCapacity c 1).bind fun _ b => .ok () (b.outAppend v)) := by
  have ho := h.olen
  by_cases hc : a.olen + 1 ≤ c.outMax
  · rw [Block.checkCapacity_ok hc, Block.checkCapacity_ok (by omega)]; exact .ok (h.outAppend v)
  · rw [Block.checkCapacity_fails (by omega), Block.checkCapacity_fails (by omega)]; exact .raised (h.fail _)

end SameToken

end Sys2Proof.Machine
end

section
/-! PROOFS. Non-interference of a step, of the observation and of START (O51). -/

namespace Sys2Proof.Machine

variable {s t : State} {a b : Block}

/-! ### A step, and a START, on both -/

/-- EOB keeps the relation: the stream is as it was (R182). -/
theorem SameDecode.done (h : SameDecode a b) :
    SameDecode { a with state := .done } { b with state := .done } :=
  { h with state := rfl, bits := nofun, lens := nofun, table := nofun }

theorem tokenStep_same (hc : s.cfg = t.cfg) (h : SameToken s.blk t.blk) :
    ∃ s' t', tokenStep s = .next s' ∧ tokenStep t = .next t' ∧ SameDecode s'.blk t'.blk := by
  have fetched := h.fetchToken (c := s.cfg)
  generalize hs : s.blk.fetchToken s.cfg = r at fetched
  generalize ht : t.blk.fetchToken s.cfg = q at fetched
  rw [hc] at ht
  cases fetched with
  | raised h' => exact ⟨_, _, tokenStep_truncated hs, tokenStep_truncated ht, h'⟩
  | @ok i a b h' =>
    obtain ⟨-, rfl⟩ := Block.fetchToken_ok_cases hs
    have hs := tokenStep_fetched hs
    have ht := tokenStep_fetched ht
    obtain ⟨v, he⟩ | he | ⟨obl, ln, he⟩ := exec_selectToken a.sym a.remaining (a.extByte s.cfg (symObl a.sym)) <;>
      rw [he] at hs ht
    · exact ⟨_, _, hs, ht, hc ▸ (h'.literal v).block fun _ _ h => h.sameDecode⟩
    · exact ⟨_, _, hs, ht, h'.sameDecode.done⟩
    · exact ⟨_, _, hs, ht, hc ▸ (h'.matchCommon obl ln).block fun _ _ h => h.sameDecode⟩

theorem blockStep_same (hc : s.cfg = t.cfg) (hw : s.blk.out.wf) (hw' : t.blk.out.wf) (h : SameDecode s.blk t.blk) :
    ∃ s' t', blockStep s = .next s' ∧ blockStep t = .next t' ∧ SameDecode s'.blk t'.blk := by
  have hst := h.state
  cases hs : s.blk.state with
  | idle => exact ⟨s, t, blockStep_idle hs, blockStep_idle (hst ▸ hs), h⟩
  | setup =>
    exact ⟨_, _, blockStep_setup hs, blockStep_setup (hst ▸ hs), h.sameStream.setup s.draw t.draw⟩
  | decoding =>
    rw [blockStep_decoding hs, blockStep_decoding (hst ▸ hs)]
    exact tokenStep_same hc (h.sameToken hs hw hw')
  | done => exact ⟨s, t, blockStep_done hs, blockStep_done (hst ▸ hs), h⟩
  | failed => exact ⟨s, t, blockStep_failed hs, blockStep_failed (hst ▸ hs), h⟩

/-- The observation of rule R228 reads nothing outside the relation. -/
theorem SameDecode.observe (h : SameDecode a b) : a.observe = b.observe := by
  have bytes : a.output = b.output := by
    rw [Block.output, Block.output, ← h.olen]
    exact List.map_congr_left fun i hi => h.out i (List.mem_range.mp hi)
  rw [Block.observe, Block.observe, h.state, h.err, h.olen, bytes, h.pos]

/-- START empties the output and rewinds the cursor, so of what was there before only the input counts (R221). -/
theorem SameDecode.launch (hl : a.inLen = b.inLen) (hi : ∀ i, i < a.inLen → a.inp.read i = b.inp.read i) :
    SameDecode a.launch b.launch where
  state := rfl
  err := rfl
  inLen := hl
  inp := hi
  pos := rfl
  olen := rfl
  out := nofun
  bits := nofun
  lens := nofun
  table := nofun

end Sys2Proof.Machine

namespace Sys2Proof.Claims

open Sys2Proof.Machine

/-- Settles O51: the relation is kept by each operation of SETUP and of a token, since each reads only what it names; a copy
reads below `OLEN`, and the tables are read where SETUP has written them. -/
theorem earlierDecodesDoNotShow : Obligations.EarlierDecodesDoNotShow := by
  refine ⟨fun s t hc hs ht hw hw' h => ?_, fun a b h => h.observe, fun s t hc hl hi hs ht hle => ?_⟩
  · rw [step_no_move hs, step_no_move ht]
    exact blockStep_same hc hw hw' h
  · exact ⟨_, _, exec_start_accepted hs hle, exec_start_accepted ht (hc ▸ hl ▸ hle), SameDecode.launch hl hi⟩

end Sys2Proof.Claims
end

section
/-! PROOFS. The output and the cursor (O43, O45), `STATUS` and the host's registers (O21, O38, O52 to O54). -/

namespace Sys2Proof.Machine

variable {s t : State} {b b' : Block} {c : Config} {n : Nat} {obl ln : BitVec 4}

/-! ### The output while decoding (R39, R62) -/

/-- The output of `b'` is that of `b` with at most 65538 bytes appended. -/
structure Appends (b b' : Block) : Prop where
  olenGe : b.olen ≤ b'.olen
  olenLe : b'.olen ≤ b.olen + 65538
  kept : ∀ a, a < b.olen ∨ b'.olen ≤ a → b'.out.read a = b.out.read a

/-- DECODE_SYMBOL and the operand reads of a match leave the output alone. -/
theorem Block.decodeSymbol_keeps_output (b : Block) :
    b.decodeSymbol.block.out = b.out ∧ b.decodeSymbol.block.olen = b.olen := by
  obtain ⟨_, _, _, _, _, hf⟩ := b.decodeSymbol_frame
  rw [hf]; exact ⟨rfl, rfl⟩

theorem Block.matchOperands_keeps_output (c : Config) (obl ln : BitVec 4) (b : Block) :
    (b.matchOperands c obl ln).block.out = b.out ∧ (b.matchOperands c obl ln).block.olen = b.olen := by
  obtain ⟨_, _, _, _, _, _, _, hf⟩ := b.matchOperands_frame c obl ln
  rw [hf]; exact ⟨rfl, rfl⟩

/-- A block with the output of `b`, extended from its end on by at most 65538 bytes. -/
theorem Appends.of_output {b₁ : Block} (h : b₁.out = b.out ∧ b₁.olen = b.olen) (h' : Appends b₁ b') : Appends b b' := by
  obtain ⟨hout, holen⟩ := h
  obtain ⟨hge, hle, hkept⟩ := h'
  rw [holen] at hge hle hkept; rw [hout] at hkept
  exact ⟨hge, hle, hkept⟩

theorem Appends.nothing (hout : b'.out = b.out) (holen : b'.olen = b.olen) : Appends b b' :=
  ⟨by omega, by omega, fun _ _ => by rw [hout]⟩

theorem Appends.byte (hw : b.out.wf) (v : Byte) : Appends b (b.outAppend v) where
  olenGe := Nat.le_succ _
  olenLe := Nat.add_le_add_left (by decide) _
  kept a ha := by
    rw [Block.outAppend_olen] at ha
    rw [Block.outAppend_out, Memory.read_write hw, if_neg (by omega)]

theorem Appends.copy (hw : b.out.wf) (hn : n ≤ 65538) : Appends b (b.copy n) := by
  have holen := b.copy_olen n
  exact ⟨by omega, by omega, fun a ha => Block.copy_read_outside hw n a (by omega)⟩

theorem TokenOutcome.appends (hw : b.out.wf) (h : TokenOutcome c b b') : Appends b b' := by
  have symbol {r : Res Unit} (hs : b.decodeSymbol = r) : r.block.out = b.out ∧ r.block.olen = b.olen :=
    hs ▸ b.decodeSymbol_keeps_output
  have operands {b₁ : Block} {obl ln} {r : Res Unit} (ho : b₁.matchOperands c obl ln = r) :
      r.block.out = b₁.out ∧ r.block.olen = b₁.olen := ho ▸ b₁.matchOperands_keeps_output c obl ln
  cases h with
  | symbolRaised hs => exact .of_output (symbol hs) (.nothing rfl rfl)
  | appended v hs hc => exact .of_output (symbol hs) (.byte ((symbol hs).1 ▸ hw) v)
  | literalOverflows hs => exact .of_output (symbol hs) (.nothing rfl rfl)
  | ended hs => exact .of_output (symbol hs) (.nothing rfl rfl)
  | operandsRaised hs ho => exact .of_output (symbol hs) (.of_output (operands ho) (.nothing rfl rfl))
  | checkRaised e hs ho he => exact .of_output (symbol hs) (.of_output (operands ho) (.nothing rfl rfl))
  | copied hs ho hc =>
    exact .of_output (symbol hs) (.of_output (operands ho)
      (.copy ((operands ho).1 ▸ (symbol hs).1 ▸ hw) (Block.matchOperands_ok ho).2))

/-! ### The cursor (R35, R126) -/

/-- The cursor of `b'` is that of `b` or further on, and still inside the input. -/
def Advances (b b' : Block) : Prop := b.pos ≤ b.inLen → b.pos ≤ b'.pos ∧ b'.pos ≤ b'.inLen

theorem Advances.of_pos (hp : b'.pos = b.pos) (hl : b'.inLen = b.inLen) : Advances b b' :=
  fun h => ⟨hp.ge, by omega⟩

/-- A read of `n` bytes that the input holds. -/
theorem Advances.of_read (hn : n ≤ b.remaining) (hp : b'.pos = b.pos + n) (hl : b'.inLen = b.inLen) : Advances b b' := by
  intro h
  rw [Block.remaining] at hn
  omega

theorem Advances.trans {b₁ b₂ b₃ : Block} (h : Advances b₁ b₂) (h' : Advances b₂ b₃) : Advances b₁ b₃ := by
  intro hp
  obtain ⟨h₁, h₂⟩ := h hp
  obtain ⟨h₃, h₄⟩ := h' h₂
  exact ⟨h₁.trans h₃, h₄⟩

theorem Advances.bind {α β : Type} {r : Res α} {f : α → Block → Res β} (h : Advances b r.block)
    (hf : ∀ a b', Advances b' (f a b').block) : Advances b (r.bind f).block := by
  cases r with
  | ok a b' => exact h.trans (hf a b')
  | raised b' => exact h

theorem Block.consume_advances (n : Nat) (b : Block) : Advances b (b.consume n).block := by
  cases h : b.consume n with
  | ok u b' =>
    obtain ⟨-, rfl⟩ | ⟨-, hr, rfl⟩ := Block.consume_ok_cases h
    · exact .of_pos rfl rfl
    · exact .of_read hr rfl rfl
  | raised b' => obtain ⟨-, -, rfl⟩ := Block.consume_raised_cases h; exact .of_pos rfl rfl

theorem Block.offset_advances (obl : BitVec 4) (b : Block) : Advances b (b.offset obl).block := by
  refine Advances.bind ?_ fun _ _ => .of_pos rfl rfl
  exact (b.consume_advances _).bind fun _ _ => .of_pos rfl rfl

theorem Block.length_advances (ln : BitVec 4) (b : Block) : Advances b (b.length ln).block := by
  cases h : b.length ln with
  | ok u b' =>
    obtain ⟨-, rfl⟩ | ⟨-, hr, -, rfl⟩ | ⟨-, hr, -, -, rfl⟩ := Block.length_ok_cases h
    · exact .of_pos rfl rfl
    · exact .of_read hr rfl rfl
    · exact .of_read hr rfl rfl
  | raised b' =>
    obtain ⟨-, ⟨-, rfl⟩ | ⟨hr, -, -, rfl⟩ | ⟨hr, -, -, rfl⟩⟩ := Block.length_raised_cases h
    · exact .of_pos rfl rfl
    · exact .of_read hr rfl rfl
    · exact .of_read hr rfl rfl

theorem Block.matchOperands_advances (c : Config) (obl ln : BitVec 4) (b : Block) :
    Advances b (b.matchOperands c obl ln).block := by
  rw [Block.matchOperands]
  split
  · exact (b.length_advances ln).bind fun _ b' => b'.offset_advances obl
  · exact (b.offset_advances obl).bind fun _ b' => b'.length_advances ln

theorem Block.decodeSymbol_advances (b : Block) : Advances b b.decodeSymbol.block :=
  Block.consume_advances _ { b with sym := b.nextSym }

theorem TokenOutcome.advances (h : TokenOutcome c b b') : Advances b b' := by
  have symbol {r : Res Unit} (hs : b.decodeSymbol = r) : Advances b r.block := hs ▸ b.decodeSymbol_advances
  have operands {b₁ : Block} {obl ln} {r : Res Unit} (ho : b₁.matchOperands c obl ln = r) : Advances b₁ r.block :=
    ho ▸ b₁.matchOperands_advances c obl ln
  cases h with
  | symbolRaised hs => exact symbol hs
  | appended v hs hc => exact (symbol hs).trans (.of_pos rfl rfl)
  | literalOverflows hs => exact (symbol hs).trans (.of_pos rfl rfl)
  | ended hs => exact (symbol hs).trans (.of_pos rfl rfl)
  | operandsRaised hs ho => exact (symbol hs).trans (operands ho)
  | checkRaised e hs ho he => exact ((symbol hs).trans (operands ho)).trans (.of_pos rfl rfl)
  | @copied b₁ b₂ obl ln hs ho hc =>
    obtain ⟨out, hcopy⟩ := b₂.copy_frame b₂.mlen
    rw [hcopy]
    exact ((symbol hs).trans (operands ho)).trans (.of_pos rfl rfl)

theorem SetupOutcome.advances (h : SetupOutcome n b b') : Advances b b' := by
  cases h with
  | noLengths => exact .of_pos rfl rfl
  | noTable e he hr hfc => exact .of_read hr rfl rfl
  | noWords hk hp hp' => exact fun _ => ⟨hp, hp'⟩
  | primed hk hr => exact fun _ => ⟨Nat.le_add_right _ _, hr⟩

theorem blockStep_advances (h : blockStep s = .next t) : Advances s.blk t.blk := by
  cases hs : s.blk.state with
  | idle => rw [blockStep_idle hs] at h; cases h; exact .of_pos rfl rfl
  | setup => rw [blockStep_setup hs] at h; cases h; exact (s.blk.setup_outcome s.draw).advances
  | decoding =>
    rw [blockStep_decoding hs] at h
    obtain ⟨b, rfl, ho⟩ := tokenStep_cases h
    exact ho.advances
  | done => rw [blockStep_done hs] at h; cases h; exact .of_pos rfl rfl
  | failed => rw [blockStep_failed hs] at h; cases h; exact .of_pos rfl rfl

/-! ### `STATUS` (R44) -/

/-- The parts of the word `STATUS` is made of are its fields. -/
theorem status_fields (err state : BitVec 3) (busy : Bool) :
    let w : Word := 0#25 ++ err ++ BitVec.ofBool busy ++ state
    w.extractLsb' 0 3 = state ∧ w.getLsbD 3 = busy ∧ w.extractLsb' 4 3 = err ∧ w.extractLsb' 7 25 = 0 := by
  revert err state busy; decide

theorem ControlState.busy_iff (c : ControlState) : c.busy = decide (c = .setup ∨ c = .decoding) := by
  cases c <;> rfl

/-! ### The host's registers (R42 to R47) -/

theorem step_readReg {r : HostReg} {rest : List HostMove} (h : s.host = .readReg r :: rest) :
    step s = .next ({ s with host := rest }.deliver (State.readReg { s with host := rest } r)) := step_move h

theorem step_writeReg {r : HostReg} {v : Word} {rest : List HostMove} (h : s.host = .writeReg r v :: rest) :
    step s = State.writeReg r v { s with host := rest } := step_move h

end Sys2Proof.Machine

namespace Sys2Proof.Claims

open Sys2Proof.Machine

/-- Settles O43, from the outcomes of a TOKEN_STEP: only the literal and the copy write, both from `OLEN` on. -/
theorem outputIsAppendOnly : Obligations.OutputIsAppendOnly := by
  intro s t rest hr hs hw h
  rw [step_of_blockRuns hr, blockStep_decoding (s := { s with host := rest }) hs] at h
  obtain ⟨b, rfl, ho⟩ := tokenStep_cases h
  obtain ⟨hge, hle, hkept⟩ := ho.appends hw
  exact ⟨hge, hle, hkept⟩

/-- Settles O45: every read of the cursor checks REMAINING before it moves. -/
theorem cursorOnlyAdvances : Obligations.CursorOnlyAdvances := by
  intro s t rest hr hp h
  rw [step_of_blockRuns hr] at h
  exact blockStep_advances (s := { s with host := rest }) h hp

/-- Settles O21, by the three commands a `CTRL` word can hold. -/
theorem stepRunsTheCtrlCommand : Obligations.StepRunsTheCtrlCommand := by
  intro s v rest
  refine ⟨fun hw => ?_, fun hr => ⟨_, step_readReg hr, rfl, rfl⟩⟩
  rw [step_writeReg hw]
  exact ⟨fun h1 => writeCtrl_command (decodeCtrl_reset h1), fun ⟨h1, h0⟩ => writeCtrl_command (decodeCtrl_start h1 h0),
    fun ⟨h1, h0⟩ => writeCtrl_none (decodeCtrl_none h1 h0)⟩

/-- Settles O38: `Block.reset` holds those values, and each register read computes from them. -/
theorem resetValues : Obligations.ResetValues := by
  intro c
  have status : Block.reset.status = 0 := by decide
  exact ⟨rfl, rfl, rfl, rfl, rfl, rfl, rfl, rfl, status, rfl, rfl, rfl, rfl⟩

/-- Settles O52: `STATUS` is a concatenation of the two codes and `BUSY`. -/
theorem statusWord : Obligations.StatusWord := by
  intro b
  obtain ⟨hstate, hbusy, herr, hzero⟩ := status_fields b.err.code b.state.code b.state.busy
  exact ⟨hstate, hbusy.trans b.state.busy_iff, herr, hzero⟩

/-- Settles O53: a register read is `State.readReg`, delivered. -/
theorem hostReadsRegisters : Obligations.HostReadsRegisters := by
  intro s r rest h
  refine ⟨_, step_readReg h, rfl, rfl, ?_⟩
  cases r with
  | ctrl => rfl
  | status => rfl
  | inLen => rfl
  | outLen => intro hb; exact if_neg (by simp [hb])
  | inPos => intro hb; exact if_neg (by simp [hb])
  | reserved k => rfl

/-- Settles O54: the step is `State.writeReg`, which looks at `BUSY` for `IN_LEN` alone. -/
theorem hostWritesRegisters : Obligations.HostWritesRegisters := by
  intro s v rest
  refine ⟨fun h hb => ?_, fun r hr h => ?_⟩
  · rw [step_writeReg h]
    exact if_neg (by simp [hb])
  · rw [step_writeReg h]
    obtain rfl | rfl | rfl | ⟨k, rfl⟩ := hr <;> rfl

end Sys2Proof.Claims
end

section
/-! PROOFS. The memory family (20_memory.md): what the reads of each width see, and the cursor's (O5, O7), the circular window
(O35), and what a step of the block leaves alone (O44). -/

namespace Sys2Proof.Machine

variable {s t : State} {b b' : Block} {c : Config} {n : Nat} {obl ln : BitVec 4}

/-! ### Little-endian reads (R65, R67) -/

/-- The number of a word laid out high part first. -/
theorem toNat_append_eq_add {m n : Nat} (hi : BitVec m) (lo : BitVec n) :
    (hi ++ lo).toNat = lo.toNat + 2 ^ n * hi.toNat := by
  rw [BitVec.toNat_append, ← Nat.shiftLeft_add_eq_or_of_lt lo.isLt, Nat.shiftLeft_eq]
  ring

theorem Memory.read16_toNat (m : Memory) (p : Nat) :
    (m.read16 p).toNat = (m.read p).toNat + 256 * (m.read (p + 1)).toNat := toNat_append_eq_add _ _

theorem Memory.read32_toNat (m : Memory) (p : Nat) :
    (m.read32 p).toNat = (m.read p).toNat + 2 ^ 8 * (m.read (p + 1)).toNat + 2 ^ 16 * (m.read (p + 2)).toNat +
      2 ^ 24 * (m.read (p + 3)).toNat := by
  rw [Memory.read32, toNat_append_eq_add, toNat_append_eq_add, toNat_append_eq_add]
  ring

/-- REMAINING is what stands between the cursor and the end of the input (R121). -/
theorem Block.le_remaining (h : b.pos + n ≤ b.inLen) : n ≤ b.remaining := Nat.le_sub_of_add_le' h

/-! ### The circular window (R76) -/

/-- Of the last 65536 output bytes after an append, only the appended one stands at the window index it is written to. -/
theorem window_index_eq_iff {i len : Nat} (hi : i < len + 1) (hw : len + 1 ≤ i + 65536) :
    i % 65536 = len % 65536 ↔ i = len := by
  omega

theorem Block.outAppend_read (hw : b.out.wf) (v : Byte) (i : Nat) :
    (b.outAppend v).out.read i = if i = b.olen then v else b.out.read i := by
  rw [Block.outAppend_out, Memory.read_write hw]

/-! ### What a step of the block leaves alone (R60, R64, R75, R158) -/

/-- `b'` has the input of `b` (R60, R75). -/
structure KeepsInput (b b' : Block) : Prop where
  inp : b'.inp = b.inp
  inLen : b'.inLen = b.inLen

/-- `b'` has the input of `b`, and the tables SETUP built (R64, R158). -/
structure KeepsTables (b b' : Block) : Prop extends KeepsInput b b' where
  lentab : b'.lentab = b.lentab
  dectab : b'.dectab = b.dectab
  fc : b'.fc = b.fc

theorem KeepsTables.trans {b₁ b₂ b₃ : Block} (h : KeepsTables b₁ b₂) (h' : KeepsTables b₂ b₃) : KeepsTables b₁ b₃ where
  inp := h'.inp.trans h.inp
  inLen := h'.inLen.trans h.inLen
  lentab := h'.lentab.trans h.lentab
  dectab := h'.dectab.trans h.dectab
  fc := h'.fc.trans h.fc

theorem Block.decodeSymbol_keepsTables (b : Block) : KeepsTables b b.decodeSymbol.block := by
  obtain ⟨_, _, _, _, _, hf⟩ := b.decodeSymbol_frame
  rw [hf]; exact ⟨⟨rfl, rfl⟩, rfl, rfl, rfl⟩

theorem Block.matchOperands_keepsTables (c : Config) (obl ln : BitVec 4) (b : Block) :
    KeepsTables b (b.matchOperands c obl ln).block := by
  obtain ⟨_, _, _, _, _, _, _, hf⟩ := b.matchOperands_frame c obl ln
  rw [hf]; exact ⟨⟨rfl, rfl⟩, rfl, rfl, rfl⟩

theorem Block.copy_keepsTables (n : Nat) (b : Block) : KeepsTables b (b.copy n) := by
  obtain ⟨_, hf⟩ := b.copy_frame n
  rw [hf]; exact ⟨⟨rfl, rfl⟩, rfl, rfl, rfl⟩

/-- A token reads the input and the tables, and writes neither. -/
theorem TokenOutcome.keepsTables (h : TokenOutcome c b b') : KeepsTables b b' := by
  have symbol {r : Res Unit} (hs : b.decodeSymbol = r) : KeepsTables b r.block := hs ▸ b.decodeSymbol_keepsTables
  have operands {b₁ : Block} {obl ln} {r : Res Unit} (ho : b₁.matchOperands c obl ln = r) : KeepsTables b₁ r.block :=
    ho ▸ b₁.matchOperands_keepsTables c obl ln
  cases h with
  | symbolRaised hs => exact symbol hs
  | appended v hs hc => exact (symbol hs).trans ⟨⟨rfl, rfl⟩, rfl, rfl, rfl⟩
  | literalOverflows hs => exact (symbol hs).trans ⟨⟨rfl, rfl⟩, rfl, rfl, rfl⟩
  | ended hs => exact (symbol hs).trans ⟨⟨rfl, rfl⟩, rfl, rfl, rfl⟩
  | operandsRaised hs ho => exact (symbol hs).trans (operands ho)
  | checkRaised e hs ho he => exact ((symbol hs).trans (operands ho)).trans ⟨⟨rfl, rfl⟩, rfl, rfl, rfl⟩
  | copied hs ho hc => exact ((symbol hs).trans (operands ho)).trans (Block.copy_keepsTables _ _)

/-- SETUP writes the tables, and not the input they come from. -/
theorem SetupOutcome.keepsInput (h : SetupOutcome n b b') : KeepsInput b b' := by
  cases h with
  | noLengths => exact ⟨rfl, rfl⟩
  | noTable e he hr hfc => exact ⟨rfl, rfl⟩
  | noWords hk hp hp' => exact ⟨rfl, rfl⟩
  | primed hk hr => exact ⟨rfl, rfl⟩

theorem tokenStep_keepsTables (h : tokenStep s = .next t) : KeepsTables s.blk t.blk := by
  obtain ⟨b, rfl, ho⟩ := tokenStep_cases h
  exact ho.keepsTables

theorem blockStep_keepsInput (h : blockStep s = .next t) : KeepsInput s.blk t.blk := by
  cases hs : s.blk.state with
  | idle => rw [blockStep_idle hs] at h; cases h; exact ⟨rfl, rfl⟩
  | setup => rw [blockStep_setup hs] at h; cases h; exact (s.blk.setup_outcome s.draw).keepsInput
  | decoding => rw [blockStep_decoding hs] at h; exact (tokenStep_keepsTables h).toKeepsInput
  | done => rw [blockStep_done hs] at h; cases h; exact ⟨rfl, rfl⟩
  | failed => rw [blockStep_failed hs] at h; cases h; exact ⟨rfl, rfl⟩

end Sys2Proof.Machine

namespace Sys2Proof.Claims

open Sys2Proof.Machine

/-- Settles O5: each read that is served answers the bytes of `IN` at `POS`, and their numbers are little-endian. -/
theorem cursorReadsDeliver : Obligations.CursorReadsDeliver := by
  intro b
  refine ⟨fun h => Block.readByte_ok (Block.le_remaining h),
    fun h => ⟨_, Block.readU16_ok (Block.le_remaining h), Memory.read16_toNat _ _⟩,
    fun h => ⟨_, Block.readU32_ok (Block.le_remaining h), Memory.read32_toNat _ _⟩,
    fun n h => ⟨_, Block.readRaw_ok (Block.le_remaining h), fun i hi => ?_⟩⟩
  rw [Memory.read_slice, if_pos hi]

/-- Settles O35: a copy read lies within the last 65536 bytes, and an append overwrites the one window byte that leaves them. -/
theorem circularWindowServesCopies : Obligations.CircularWindowServesCopies := by
  intro b w hw hold
  refine ⟨fun h1 h2 h3 => hold (b.olen - b.moff) (by omega) (by omega), fun v i hi hlast => ?_⟩
  rw [Block.outAppend_olen] at hi hlast
  rw [Block.outAppend_read hw]
  by_cases h : i = b.olen
  · rw [if_pos h, if_pos ((window_index_eq_iff hi hlast).mpr h)]
  · rw [if_neg h, if_neg (mt (window_index_eq_iff hi hlast).mp h)]
    exact hold i (by omega) (by omega)

/-- Settles O44, from what a token and SETUP can leave. -/
theorem inputAndTablesAreReadOnly : Obligations.InputAndTablesAreReadOnly := by
  intro s t rest hr h
  rw [step_of_blockRuns hr] at h
  obtain ⟨hinp, hlen⟩ := blockStep_keepsInput h
  obtain ⟨-, hhost⟩ := blockStep_keeps_cfg_host h
  refine ⟨hinp, hlen, hhost, fun hs => ?_⟩
  rw [blockStep_decoding (s := { s with host := rest }) hs] at h
  obtain ⟨-, hlentab, hdectab, hfc⟩ := tokenStep_keepsTables h
  exact ⟨hlentab, hdectab, hfc⟩

/-- Settles O7: the four bytes of the 32-bit read are those of the two 16-bit reads. -/
theorem readWidthsAgree : Obligations.ReadWidthsAgree := by
  intro m p
  refine ⟨Memory.read16_toNat m p, ?_⟩
  rw [Memory.read32_toNat, Memory.read16_toNat, Memory.read16_toNat]
  ring

end Sys2Proof.Claims
end

section
/-! PROOFS. The fields of a symbol (30_encoding.md R91), the rows of the selection table (O3), and that the decoder reads back the
encoder's words (O1, O2). -/

namespace Sys2Proof

open Machine

variable {sym : BitVec 9} {rem : Nat} {ext : Option Byte}

/-! ### The fields of a symbol (R91) -/

theorem symObl_toNat (sym : BitVec 9) : (symObl sym).toNat = sym.toNat / 16 % 16 := by
  rw [symObl, BitVec.extractLsb'_toNat, Nat.shiftRight_eq_div_pow]

theorem symLn_toNat (sym : BitVec 9) : (symLn sym).toNat = sym.toNat % 16 := by
  rw [symLn, BitVec.extractLsb'_toNat, Nat.shiftRight_zero]

theorem symLn_eq_15_iff : symLn sym = 15 ↔ sym.toNat % 16 = 15 := by
  rw [← BitVec.toNat_inj, symLn_toNat]; rfl

theorem symLn_eq_ofNat (sym : BitVec 9) : symLn sym = BitVec.ofNat 4 (sym.toNat % 16) := by
  rw [← symLn_toNat, BitVec.ofNat_toNat, BitVec.setWidth_eq]

/-- The offset nibble as rule R100 computes it. -/
theorem symObl_eq_ofNat (h : 256 ≤ sym.toNat) : symObl sym = BitVec.ofNat 4 ((sym.toNat - 256) / 16) := by
  apply BitVec.eq_of_toNat_eq
  rw [symObl_toNat, BitVec.toNat_ofNat]
  omega

theorem matchSym_toNat (obl ln : BitVec 4) : (matchSym obl ln).toNat = 256 + 16 * obl.toNat + ln.toNat := by
  rw [matchSym, toNat_append_eq_add, toNat_append_eq_add, BitVec.toNat_ofNat]
  omega

theorem matchSym_ge (obl ln : BitVec 4) : 256 ≤ (matchSym obl ln).toNat := by
  rw [matchSym_toNat]; omega

@[simp] theorem symObl_matchSym (obl ln : BitVec 4) : symObl (matchSym obl ln) = obl := by
  apply BitVec.eq_of_toNat_eq
  rw [symObl_toNat, matchSym_toNat]
  omega

@[simp] theorem symLn_matchSym (obl ln : BitVec 4) : symLn (matchSym obl ln) = ln := by
  apply BitVec.eq_of_toNat_eq
  rw [symLn_toNat, matchSym_toNat]
  omega

/-- Symbol 256 is the match symbol whose nibbles are both 0. -/
theorem matchSym_eq_eobSym_iff (obl ln : BitVec 4) : matchSym obl ln = eobSym ↔ obl = 0 ∧ ln = 0 := by
  constructor
  · intro h
    exact ⟨(symObl_matchSym obl ln).symm.trans (h ▸ rfl), (symLn_matchSym obl ln).symm.trans (h ▸ rfl)⟩
  · rintro ⟨rfl, rfl⟩
    rfl

/-! ### The rows of the selection table (R100) -/

/-- Bit 8 tells the literals from the rest. -/
theorem getLsbD_8_eq_false_iff : sym.getLsbD 8 = false ↔ sym.toNat < 256 := by
  rw [BitVec.getLsbD_last sym, decide_eq_false_iff_not, Nat.not_le]

/-- Row 1. -/
theorem selectToken_lit (h : sym.toNat < 256) : selectToken sym rem ext = .lit (sym.setWidth 8) :=
  if_pos (getLsbD_8_eq_false_iff.mpr h)

/-- Row 2. -/
theorem selectToken_eob (ext : Option Byte) : selectToken eobSym 0 ext = .eob := rfl

/-- Row 3. -/
theorem selectToken_matchPlain (h : 256 ≤ sym.toNat) (hne : ¬ (sym = eobSym ∧ rem = 0)) (hl : symLn sym ≠ 15) :
    selectToken sym rem ext = .matchPlain (symObl sym) (symLn sym) := by
  rw [selectToken, if_neg (mt getLsbD_8_eq_false_iff.mp (Nat.not_lt.mpr h)), if_neg hne, if_pos hl]

/-- Rows 4 and 5: a length nibble of 15 is not the end marker, and the extension byte tells the two forms apart. -/
theorem selectToken_extended (h : 256 ≤ sym.toNat) (hl : symLn sym = 15) :
    selectToken sym rem ext = if ext = some byteEsc then .matchX16 (symObl sym) else .matchX8 (symObl sym) := by
  have hne : ¬ (sym = eobSym ∧ rem = 0) := by
    rintro ⟨rfl, -⟩
    exact absurd hl (by decide)
  rw [selectToken, if_neg (mt getLsbD_8_eq_false_iff.mp (Nat.not_lt.mpr h)), if_neg hne, if_neg (not_not_intro hl)]

/-! ### The words of the encoder (R91, R43) -/

/-- The decoder takes a table entry apart into the symbol it was made of, and selects the token by the stream behind it. -/
theorem decodeToken_entryBytes (sym : BitVec 9) (rest : List Byte) :
    decodeToken (entryBytes sym ++ rest) = .ok (selectToken sym rest.length rest.head?) := by
  have hjoin : (sym.setWidth 16).extractLsb' 8 8 ++ (sym.setWidth 16).extractLsb' 0 8 = sym.setWidth 16 :=
    BitVec.extractLsb'_append_extractLsb'
  have hzero : (sym.setWidth 16).extractLsb' 9 7 = 0 := by
    apply BitVec.eq_of_toNat_eq
    rw [BitVec.extractLsb'_toNat, BitVec.toNat_setWidth, Nat.shiftRight_eq_div_pow]
    show sym.toNat % 2 ^ 16 / 2 ^ 9 % 2 ^ 7 = 0
    omega
  show decodeEntry (_ ++ _) rest = _
  rw [hjoin, decodeEntry, if_pos hzero, BitVec.setWidth_setWidth_of_le _ (by decide), BitVec.setWidth_eq]

theorem decodeCommand_ctrlBytes (v : Word) (rest : List Byte) :
    decodeCommand (ctrlBytes v ++ rest) = decodeCtrl v := by
  have hjoin : v.extractLsb' 24 8 ++ v.extractLsb' 16 8 ++ v.extractLsb' 8 8 ++ v.extractLsb' 0 8 = v := by
    rw [BitVec.extractLsb'_append_extractLsb'_eq_extractLsb' (show 24 = 16 + 8 from rfl),
      BitVec.extractLsb'_append_extractLsb'_eq_extractLsb' (show 16 = 8 + 8 from rfl)]
    exact BitVec.extractLsb'_append_extractLsb'
  show decodeCtrl (_ ++ _ ++ _ ++ _) = _
  rw [hjoin]

end Sys2Proof

namespace Sys2Proof.Claims

open Sys2Proof.Machine

/-- Settles O2: the decoder finds the encoder's symbol, and the stream the instruction admits selects its row. -/
theorem decodeReadsBackEncode : Obligations.DecodeReadsBackEncode := by
  intro i rest hwf hadm
  cases i with
  | lit v =>
    refine (decodeToken_entryBytes (0#1 ++ v) rest).trans (congrArg _ ?_)
    have hlt : (0#1 ++ v).toNat < 256 := by
      rw [toNat_append_eq_add, BitVec.toNat_ofNat]
      omega
    rw [selectToken_lit hlt, BitVec.setWidth_append_eq_right]
  | eob =>
    obtain rfl : rest = [] := List.isEmpty_iff.mp hadm
    exact (decodeToken_entryBytes eobSym []).trans (congrArg _ (selectToken_eob _))
  | matchPlain obl ln =>
    refine (decodeToken_entryBytes (matchSym obl ln) rest).trans (congrArg _ ?_)
    have hl : ln ≠ 15 := of_decide_eq_true hwf
    have hne : ¬ (matchSym obl ln = eobSym ∧ rest.length = 0) := by
      rw [matchSym_eq_eobSym_iff, List.length_eq_zero_iff]
      rintro ⟨⟨rfl, rfl⟩, rfl⟩
      exact absurd hadm (by decide)
    rw [selectToken_matchPlain (matchSym_ge obl ln) hne (by simpa using hl), symObl_matchSym, symLn_matchSym]
  | matchX8 obl =>
    refine (decodeToken_entryBytes (matchSym obl 15) rest).trans (congrArg _ ?_)
    have hext : rest.head? ≠ some byteEsc := of_decide_eq_true (Bool.and_eq_true_iff.mp hadm).2
    rw [selectToken_extended (matchSym_ge obl 15) (symLn_matchSym obl 15), if_neg hext, symObl_matchSym]
  | matchX16 obl =>
    refine (decodeToken_entryBytes (matchSym obl 15) rest).trans (congrArg _ ?_)
    have hext : rest.head? = some byteEsc := of_decide_eq_true hadm
    rw [selectToken_extended (matchSym_ge obl 15) (symLn_matchSym obl 15), if_pos hext, symObl_matchSym]
  | start => exact decodeCommand_ctrlBytes 1#32 rest
  | reset => exact decodeCommand_ctrlBytes 2#32 rest

/-- Settles O1: each side is a closed word of the decoder. -/
theorem tableWordsDecode : Obligations.TableWordsDecode := by
  unfold Obligations.TableWordsDecode
  decide

/-- Settles O3: the rows, with the fields of the symbol computed from its number. -/
theorem selectionFollowsTheTable : Obligations.SelectionFollowsTheTable := by
  intro sym rem ext
  refine ⟨fun h => ?_, ?_, ?_, ?_, ?_⟩
  · rw [selectToken_lit h, BitVec.ofNat_toNat]
  · rintro ⟨rfl, rfl⟩
    exact selectToken_eob _
  · rintro ⟨h, hne, hl⟩
    rw [selectToken_matchPlain h hne (mt symLn_eq_15_iff.mp hl), symObl_eq_ofNat h, symLn_eq_ofNat]
  · rintro ⟨h, hl, he⟩
    rw [selectToken_extended h (symLn_eq_15_iff.mpr hl), if_neg (by simpa using he), symObl_eq_ofNat h]
  · rintro ⟨h, hl, rfl⟩
    rw [selectToken_extended h (symLn_eq_15_iff.mpr hl), if_pos rfl, symObl_eq_ofNat h]

end Sys2Proof.Claims
end

section
/-! PROOFS. The encoder mapping (30_encoding.md R103, R104): the tier of a length, and that LENGTH and OFFSET read back what it
writes (O4). -/

namespace Sys2Proof.Machine

variable {b b' : Block} {len off n : Nat} {ln obl : BitVec 4} {ext : List Byte}

/-! ### The tiers of a length (R103) -/

/-- The length nibble and the extension bytes that stand for `len` in each tier (R103): the nibble alone, a byte other than 255
behind the nibble 15, or a length word of at least 15 behind the byte 255. -/
inductive LengthTier (len : Nat) : Nat → List Byte → Prop
  | nibble {n : Nat} (hn : n < 15) (hlen : len = n + 3) : LengthTier len n []
  | byte {e : Byte} (he : e ≠ byteEsc) (hlen : len = e.toNat + 18) : LengthTier len 15 [e]
  | word {lo hi : Byte} (hv : 15 ≤ lo.toNat + 256 * hi.toNat) (hlen : len = lo.toNat + 256 * hi.toNat + 3) :
      LengthTier len 15 [byteEsc, lo, hi]

theorem LengthTier.nibble_le (h : LengthTier len n ext) : n ≤ 15 := by
  cases h with
  | nibble hn _ => omega
  | byte _ _ => exact Nat.le_refl _
  | word _ _ => exact Nat.le_refl _

/-- LENGTH reads back the length of a tier whose extension bytes stand at `POS` (R185). -/
theorem LengthTier.length (h : LengthTier len ln.toNat ext) (hin : b.pos + ext.length ≤ b.inLen)
    (hext : ∀ k v, ext[k]? = some v → b.inp.read (b.pos + k) = v) :
    b.length ln = .ok () { b with pos := b.pos + ext.length, mlen := len } := by
  have hrem : ext.length ≤ b.remaining := Block.le_remaining hin
  generalize hl : ln.toNat = n at h
  cases h with
  | nibble hn hlen => rw [Block.length_short_form (hl ▸ hn), hlen, hl]; rfl
  | @byte e he hlen =>
    have h0 : b.inp.read b.pos = e := hext 0 e rfl
    rw [Block.length_x8 hl hrem (h0 ▸ he), h0, hlen]
    rfl
  | @word lo hi hv hlen =>
    have h0 : b.inp.read b.pos = byteEsc := hext 0 _ rfl
    have hword : (b.inp.read16 (b.pos + 1)).toNat = lo.toNat + 256 * hi.toNat := by
      rw [Memory.read16_toNat, hext 1 lo rfl, hext 2 hi rfl]
    rw [Block.length_x16 hl hrem h0 (hword ▸ hv), hword, hlen]
    rfl

/-! ### What the encoder mapping gives (R104) -/

theorem log2_offset_le (h1 : 1 ≤ off) (h2 : off ≤ 65535) : Nat.log2 off ≤ 15 :=
  Nat.le_of_lt_succ ((Nat.log2_lt (by omega)).mpr (by omega))

theorem expandSym_toNat (h1 : 1 ≤ off) (h2 : off ≤ 65535) (hn : n ≤ 15) :
    (expandSym off n).toNat = 256 + 16 * Nat.log2 off + n := by
  have := log2_offset_le h1 h2
  rw [expandSym, BitVec.toNat_ofNat]
  omega

/-- The 16-bit tier stands for every length from 18 on. -/
theorem lengthTier_x16 (h1 : 18 ≤ len) (h2 : len ≤ 65538) : LengthTier len 15 (expandX16Bytes len) := by
  refine .word ?_ ?_ <;> rw [BitVec.toNat_ofNat, BitVec.toNat_ofNat] <;> omega

/-- The shortest form writes a nibble and extension bytes of some tier. -/
theorem expandMatch_tier (off : Nat) (h1 : 3 ≤ len) (h2 : len ≤ 65538) :
    ∃ n ext, LengthTier len n ext ∧
      expandMatch len off = ⟨expandSym off n, Nat.log2 off, off - 2 ^ Nat.log2 off, ext⟩ := by
  by_cases hnibble : len - 3 ≤ 14
  · exact ⟨len - 3, [], .nibble (by omega) (by omega), by rw [expandMatch, if_pos hnibble]⟩
  by_cases hbyte : len - 18 ≤ 254
  · have he : (BitVec.ofNat 8 (len - 18)).toNat = len - 18 := by rw [BitVec.toNat_ofNat]; omega
    refine ⟨15, [BitVec.ofNat 8 (len - 18)], .byte (fun h => ?_) (by omega), by rw [expandMatch, if_neg hnibble, if_pos hbyte]⟩
    rw [h] at he
    change 255 = len - 18 at he
    omega
  · exact ⟨15, _, lengthTier_x16 (by omega) h2, by rw [expandMatch, if_neg hnibble, if_neg hbyte]⟩

/-- The top bits of `BR` as a number, with no case for `n = 0`. -/
theorem Block.topBits_eq_div (b : Block) (n : Nat) : b.topBits n = b.br.toNat / 2 ^ (32 - n) := by
  by_cases hn : n = 0
  · rw [Block.topBits, if_pos hn, hn, Nat.div_eq_of_lt b.br.isLt]
  · rw [Block.topBits, if_neg hn, BitVec.toNat_ushiftRight, Nat.shiftRight_eq_div_pow]

/-- OFFSET reads back the offset whose field `BR` begins with (R184). -/
theorem Block.offset_reads_back {u : Unit} (h1 : 1 ≤ off) (hobl : obl.toNat = Nat.log2 off)
    (hbr : b.br.toNat / 2 ^ (32 - Nat.log2 off) = off - 2 ^ Nat.log2 off) (h : b.offset obl = .ok u b') :
    b'.moff = off := by
  obtain ⟨b₁, -, rfl⟩ := Block.offset_ok_cases h
  show b.topBits obl.toNat + 2 ^ obl.toNat = off
  rw [Block.topBits_eq_div, hobl, hbr]
  exact Nat.sub_add_cancel (Nat.log2_self_le (by omega))

end Sys2Proof.Machine

namespace Sys2Proof.Claims

open Sys2Proof.Machine

/-- Settles O4: both forms write a tier of the length beside the offset's logarithm and field, and each part is read back. -/
theorem matchExpansionReadsBack : Obligations.MatchExpansionReadsBack := by
  intro len off p hlen hlen' hoff hoff' hp
  obtain ⟨n, ext, htier, rfl⟩ : ∃ n ext, LengthTier len n ext ∧
      p = ⟨expandSym off n, Nat.log2 off, off - 2 ^ Nat.log2 off, ext⟩ := by
    obtain rfl | ⟨h18, rfl⟩ := hp
    · exact expandMatch_tier off hlen hlen'
    · exact ⟨15, _, lengthTier_x16 h18 hlen', rfl⟩
  have hn := htier.nibble_le
  have hlog := log2_offset_le hoff hoff'
  have hsym := expandSym_toNat hoff hoff' hn
  have hobl : (symObl (expandSym off n)).toNat = Nat.log2 off := by rw [symObl_toNat, hsym]; omega
  have hln : (symLn (expandSym off n)).toNat = n := by rw [symLn_toNat, hsym]; omega
  have hfield : off - 2 ^ Nat.log2 off < 2 ^ Nat.log2 off := by
    have := Nat.lt_log2_self (n := off)
    rw [Nat.pow_succ] at this
    omega
  refine ⟨hlog, hfield, ?_, hobl, fun b hin hext => ?_, fun b b' hbr h => Block.offset_reads_back hoff hobl hbr h⟩
  · show 256 ≤ (expandSym off n).toNat
    omega
  · exact LengthTier.length (hln.symm ▸ htier) hin hext

end Sys2Proof.Claims
end

section
/-! PROOFS. The canonical codes (30_encoding.md R98, R156): where each symbol's run stands in a built table. -/

namespace Sys2Proof.Machine

variable {lt : Memory} {s u i : Nat} {pre post : List Nat}

/-! ### Code order is the order of the codes (R98) -/

/-- Symbol `u` takes its code before symbol `s` does: it is shorter, or equally long and smaller (R98). -/
abbrev CodeBefore (lt : Memory) (u s : Nat) : Prop :=
  lenOf lt u < lenOf lt s ∨ (lenOf lt u = lenOf lt s ∧ u < s)

theorem codeOrder_pairwise (lt : Memory) : (codeOrder lt).Pairwise (CodeBefore lt) := by
  rw [codeOrder, List.pairwise_flatMap]
  refine ⟨fun len _ => ?_, (List.pairwise_lt_range' ..).imp fun {len len'} hlt u hu s hs => ?_⟩
  · refine (List.pairwise_lt_range.filter _).imp_of_mem fun {u s} hu hs hlt => .inr ⟨?_, hlt⟩
    simp only [List.mem_filter, decide_eq_true_eq] at hu hs
    exact hu.2.trans hs.2.symm
  · simp only [List.mem_filter, decide_eq_true_eq] at hu hs
    exact .inl (by rw [hu.2, hs.2]; exact hlt)

/-- The symbols that stand before `s` in code order are the used ones whose codes come first. -/
theorem mem_before_iff (h : codeOrder lt = pre ++ s :: post) :
    u ∈ pre ↔ u < 512 ∧ 1 ≤ lenOf lt u ∧ CodeBefore lt u s := by
  obtain ⟨-, hpost, hpre⟩ := List.pairwise_append.mp (h ▸ codeOrder_pairwise lt)
  rw [← and_assoc, ← mem_codeOrder, h, List.mem_append, List.mem_cons]
  constructor
  · exact fun hu => ⟨.inl hu, hpre u hu s (by simp)⟩
  · rintro ⟨hu | rfl | hu, hbefore⟩
    · exact hu
    · omega
    · have := List.rel_of_pairwise_cons hpost hu
      omega

/-! ### How many slots some symbols fill -/

/-- The slots of the symbols that satisfy `P`, counted over all symbols in turn. -/
theorem slotsOf_eq_sum {l : List Nat} {P : Nat → Prop} [DecidablePred P] (hl : l.Nodup)
    (hmem : ∀ u, u ∈ l ↔ u < 512 ∧ P u) :
    slotsOf lt l = ((List.range 512).map fun u => if P u then 2 ^ (15 - lenOf lt u) else 0).sum := by
  have hperm : l.Perm ((List.range 512).filter fun u => P u) :=
    (List.perm_ext_iff_of_nodup hl (List.nodup_range.filter _)).mpr fun u => by
      rw [hmem, List.mem_filter, List.mem_range, decide_eq_true_eq]
  rw [List.sum_map_ite, List.sum_map_zero, Nat.add_zero]
  exact (hperm.map _).sum_nat

/-- `S(s)` counts the slots of the symbols before `s` in code order. -/
theorem slotsOf_before_eq_firstSlot (h : codeOrder lt = pre ++ s :: post) :
    slotsOf lt pre = Claims.firstSlot lt s :=
  slotsOf_eq_sum (h ▸ codeOrder_nodup lt).of_append_left fun _ => mem_before_iff h

/-- The run of every symbol before `s` is a whole number of runs of the length of that of `s`. -/
theorem runLen_dvd_slotsOf_before (h : codeOrder lt = pre ++ s :: post) :
    runLen (lenOf lt s) ∣ slotsOf lt pre := by
  refine List.dvd_sum fun n hn => ?_
  obtain ⟨u, hu, rfl⟩ := List.mem_map.mp hn
  obtain ⟨-, -, hbefore⟩ := (mem_before_iff h).mp hu
  exact Nat.pow_dvd_pow 2 (by omega)

theorem slotsOf_append_cons (lt : Memory) (pre post : List Nat) (s : Nat) :
    slotsOf lt (pre ++ s :: post) = slotsOf lt pre + (runLen (lenOf lt s) + slotsOf lt post) := by
  simp [slotsOf]

/-! ### The run of a symbol in the table -/

theorem DecTab.read_ne {t : DecTab} {v : Half} (hi : i < t.size) (h : ∀ r ∈ t, r.entry ≠ v) : t.read i ≠ v := by
  obtain ⟨r, hr, -, he⟩ := DecTab.exists_run hi
  exact he ▸ h r hr

/-- A word that only one run holds is read in the slots of that run and nowhere else. -/
theorem DecTab.read_eq_entry_iff {t t' : DecTab} {r : Run} (hi : i < DecTab.size (t ++ r :: t'))
    (ht : ∀ q ∈ t, q.entry ≠ r.entry) (ht' : ∀ q ∈ t', q.entry ≠ r.entry) :
    DecTab.read (t ++ r :: t') i = r.entry ↔ t.size ≤ i ∧ i < t.size + r.len := by
  rw [DecTab.size_append, DecTab.size_cons] at hi
  rw [DecTab.read_append]
  by_cases hbefore : i < t.size
  · rw [if_pos hbefore]
    exact iff_of_false (DecTab.read_ne hbefore ht) (by omega)
  rw [if_neg hbefore, DecTab.read]
  by_cases hin : i - t.size < r.len
  · rw [if_pos hin]
    exact iff_of_true rfl (by omega)
  · rw [if_neg hin]
    exact iff_of_false (DecTab.read_ne (by omega) ht') (by omega)

theorem runOf_entry_injOn (hu : u < 512) (hs : s < 512) (h : (runOf lt u).entry = (runOf lt s).entry) : u = s := by
  rw [← runOf_entry_toNat (lt := lt) hu, h, runOf_entry_toNat hs]

/-- The slots of a built table that hold `s` are those of its run in code order. -/
theorem builtTable_read_iff (h : codeOrder lt = pre ++ s :: post) (hi : i < slotsOf lt (codeOrder lt)) :
    (builtTable lt).read i = BitVec.ofNat 16 s ↔
      slotsOf lt pre ≤ i ∧ i < slotsOf lt pre + runLen (lenOf lt s) := by
  have hlt : ∀ v ∈ pre ++ s :: post, v < 512 := fun v hv => (mem_codeOrder.mp (h ▸ hv)).1
  obtain ⟨-, hpost, hpre⟩ := List.nodup_append.mp (h ▸ codeOrder_nodup lt)
  have other : ∀ l : List Nat, (∀ v ∈ l, v < 512 ∧ v ≠ s) → ∀ q ∈ l.map (runOf lt), q.entry ≠ (runOf lt s).entry := by
    intro l hl q hq he
    obtain ⟨v, hv, rfl⟩ := List.mem_map.mp hq
    exact (hl v hv).2 (runOf_entry_injOn (hl v hv).1 (hlt s (by simp)) he)
  rw [h, ← DecTab.size_map_runOf, List.map_append, List.map_cons] at hi
  rw [← builtTable_eq, h, List.map_append, List.map_cons, ← DecTab.size_map_runOf (l := pre)]
  refine DecTab.read_eq_entry_iff hi (other pre fun v hv => ⟨hlt v (by simp [hv]), hpre v hv s (by simp)⟩)
    (other post fun v hv => ⟨hlt v (by simp [hv]), ?_⟩)
  rintro rfl
  exact (List.nodup_cons.mp hpost).1 hv

/-- The indices that begin as a multiple of `k` does. -/
theorem div_eq_div_iff_of_dvd {a k : Nat} (hk : 0 < k) (h : k ∣ a) : i / k = a / k ↔ a ≤ i ∧ i < a + k := by
  rw [Nat.div_eq_iff hk, Nat.div_mul_cancel h]
  omega

end Sys2Proof.Machine

namespace Sys2Proof.Claims

open Sys2Proof.Machine

/-- Settles O15: the runs stand in code order, and each begins at a multiple of its own length. -/
theorem codesAreCanonicalPrefixes : Obligations.CodesAreCanonicalPrefixes := by
  intro b b' draw s hbuild hs hused
  obtain ⟨hsize, hb⟩ | ⟨-, hb⟩ | ⟨-, fc, -, hb⟩ := b.buildTable_cases draw
  · rw [builtTable_eq, hbuild] at hb
    cases hb
    obtain ⟨pre, post, hsplit⟩ := List.append_of_mem (mem_codeOrder.mpr ⟨hs, hused⟩)
    have hfirst := slotsOf_before_eq_firstSlot hsplit
    have hdvd := runLen_dvd_slotsOf_before hsplit
    have hend := slotsOf_append_cons b.lentab pre post s
    rw [← hsplit, hsize, hfirst] at hend
    rw [hfirst] at hdvd
    refine ⟨Nat.mod_eq_zero_of_dvd hdvd, ?_, fun i hi => ?_⟩
    · show firstSlot b.lentab s + runLen (lenOf b.lentab s) ≤ 32768
      omega
    · rw [div_eq_div_iff_of_dvd (Nat.two_pow_pos _) hdvd, builtTable_read_iff hsplit (hsize ▸ hi), hfirst]
      rfl
  · rw [hb] at hbuild; cases hbuild
  · rw [hb] at hbuild; cases hbuild

end Sys2Proof.Claims
end

section
/-! PROOFS. The bit stream family (40_bitstream.md): the bounds of the cursor reads (O6), where PRIME (O8) and CONSUME (O9, O10)
put the bits of the stream, when CONSUME raises (O11), and READ_BITS (O12). -/

namespace Sys2Proof.Machine

variable {b b' : Block} {n : Nat}

/-! ### Cursor reads (R126) -/

/-- Less than a width is left just when that width reaches past the end of the input (R121). -/
theorem Block.remaining_lt_iff (hp : b.pos ≤ b.inLen) : b.remaining < n ↔ b.inLen < b.pos + n :=
  Nat.sub_lt_iff_lt_add' hp

theorem Advances.pos_le_of_ok {α : Type} {r : Res α} {v : α} (hr : Advances b r.block) (hp : b.pos ≤ b.inLen)
    (h : r = .ok v b') : b'.pos ≤ b'.inLen := by
  rw [h] at hr
  exact (hr hp).2

/-- The shape the four cursor reads share: a check of the width, then the value and the advance. -/
theorem Advances.of_checked_read {α : Type} (n : Nat) (v : α) (b : Block) :
    Advances b (if b.remaining < n then raise .truncatedInput b else .ok v { b with pos := b.pos + n }).block := by
  by_cases h : b.remaining < n
  · rw [if_pos h]; exact .of_pos rfl rfl
  · rw [if_neg h]; exact .of_read (Nat.not_lt.mp h) rfl rfl

theorem Block.readByte_advances (b : Block) : Advances b b.readByte.block := .of_checked_read 1 _ b

theorem Block.readU16_advances (b : Block) : Advances b b.readU16.block := .of_checked_read 2 _ b

theorem Block.readU32_advances (b : Block) : Advances b b.readU32.block := .of_checked_read 4 _ b

theorem Block.readRaw_advances (n : Nat) (b : Block) : Advances b (b.readRaw n).block := .of_checked_read n _ b

/-! ### The bits of `BR` (R66, R128, R131)

Stream bit `k` is bit `31 - k` of `BR`. -/

/-- PRIME puts stream bit `k` from bit `15 - k mod 16` of word `k div 16` (R66, R131). -/
theorem Block.primed_streamBit {k : Nat} (hk : k < 32) :
    b.primed.br.getLsbD (31 - k) = (b.inp.read16 (b.pos + 2 * (k / 16))).getLsbD (15 - k % 16) := by
  show (b.inp.read16 b.pos ++ b.inp.read16 (b.pos + 2)).getLsbD (31 - k) = _
  rw [BitVec.getLsbD_append]
  by_cases h : k < 16
  · rw [if_neg (by omega), Nat.div_eq_of_lt h, Nat.mod_eq_of_lt h, show 31 - k - 16 = 15 - k by omega, Nat.mul_zero,
      Nat.add_zero]
  · rw [if_pos (by omega), show k / 16 = 1 by omega, show 31 - k = 15 - k % 16 by omega]

/-- The shift of CONSUME moves stream bit `k + n` to the place of bit `k`. -/
theorem Block.shiftOut_streamBit {k : Nat} (h : k + n < 32) :
    (b.shiftOut n).br.getLsbD (31 - k) = b.br.getLsbD (31 - (k + n)) := by
  rw [Block.shiftOut_br, BitVec.getLsbD_shiftLeft, show 31 - k - n = 31 - (k + n) by omega]
  simp [show 31 - k < 32 by omega, show ¬ 31 - k < n by omega]

/-- Bits [15 - EXTRA : 0] of `BR` are 0 (R50 (b), R132), for an `EXTRA` of any sign. -/
def Block.ZerosBelow (b : Block) : Prop := ∀ i : Nat, (i : Int) + b.extra < 16 → b.br.getLsbD i = false

theorem Block.ZerosBelow.shiftOut (hz : b.ZerosBelow) (n : Nat) : (b.shiftOut n).ZerosBelow := by
  intro i hi
  rw [Block.shiftOut_extra] at hi
  rw [Block.shiftOut_br, BitVec.getLsbD_shiftLeft]
  by_cases hin : i < n
  · simp [hin]
  · rw [hz (i - n) (by omega), Bool.and_false]

/-- The refill (R129) puts its word over the shifted register, from bit `n - EXTRA` up. -/
theorem Block.consumed_getLsbD (n : Nat) (b : Block) (i : Nat) :
    (b.consumed n).br.getLsbD i =
      ((b.shiftOut n).br.getLsbD i || ((b.inp.read16 b.pos).setWidth 32 <<< (n - b.extra).toNat).getLsbD i) :=
  BitVec.getLsbD_or

/-- Below the refill word nothing changes. -/
theorem Block.consumed_getLsbD_below {i : Nat} (h : (i : Int) + b.extra < n) :
    (b.consumed n).br.getLsbD i = (b.shiftOut n).br.getLsbD i := by
  rw [Block.consumed_getLsbD, BitVec.getLsbD_shiftLeft]
  simp [show i < (n - b.extra).toNat by omega]

/-- Above the refill word nothing changes: the valid bits stay. -/
theorem Block.consumed_getLsbD_above {i : Nat} (he : b.extra < n) (h : (n : Int) + 16 ≤ i + b.extra) :
    (b.consumed n).br.getLsbD i = (b.shiftOut n).br.getLsbD i := by
  have hw : (b.inp.read16 b.pos).getLsbD (i - (n - b.extra).toNat) = false := BitVec.getLsbD_of_ge _ _ (by omega)
  rw [Block.consumed_getLsbD, BitVec.getLsbD_shiftLeft, BitVec.getLsbD_setWidth, hw]
  simp

/-- Where the shifted register holds a 0, bit `j` of the refill word shows. -/
theorem Block.consumed_getLsbD_word {i j : Nat} (hi : i < 32) (he : b.extra < n) (hij : (i : Int) + b.extra = j + n)
    (hz : (b.shiftOut n).br.getLsbD i = false) :
    (b.consumed n).br.getLsbD i = (b.inp.read16 b.pos).getLsbD j := by
  rw [Block.consumed_getLsbD, hz, BitVec.getLsbD_shiftLeft, BitVec.getLsbD_setWidth,
    show i - (n - b.extra).toNat = j by omega]
  simp [hi, show ¬ i < (n - b.extra).toNat by omega, show j < 32 by omega]

theorem Block.ZerosBelow.consumed (hz : b.ZerosBelow) (n : Nat) : (b.consumed n).ZerosBelow := by
  intro i hi
  have hlt : (i : Int) + (b.extra - n + 16) < 16 := hi
  rw [Block.consumed_getLsbD_below (by omega)]
  exact hz.shiftOut n i (by rw [Block.shiftOut_extra]; omega)

/-! ### READ_BITS (R130) -/

theorem Block.readBits_of_consume {u : Unit} (h : b.consume n = .ok u b') : b.readBits n = .ok (b.topBits n) b' := by
  rw [Block.readBits, h, Res.bind_ok]

theorem Block.readBits_of_consume_raised (h : b.consume n = .raised b') : b.readBits n = .raised b' := by
  rw [Block.readBits, h, Res.bind_raised]

@[simp] theorem Block.shiftOut_zero (b : Block) : b.shiftOut 0 = b := by
  simp [Block.shiftOut]

theorem Block.consume_zero (h : 0 ≤ b.extra) : b.consume 0 = .ok () b := by
  rw [Block.consume_within h, Block.shiftOut_zero]

end Sys2Proof.Machine

namespace Sys2Proof.Claims

open Sys2Proof.Machine

/-- Settles O8: the outcomes of PRIME, and the append of its two words bit by bit. -/
theorem primeLoadsTwoWords : Obligations.PrimeLoadsTwoWords := by
  intro b hp
  refine ⟨fun h => ⟨_, Block.prime_ok (Block.le_remaining h), fun k hk => Block.primed_streamBit hk⟩, fun ⟨h2, h4⟩ => ?_,
    fun h => Block.prime_short_first ((Block.remaining_lt_iff hp).mpr h)⟩
  exact Block.prime_short_second (Block.le_remaining h2) ((Block.remaining_lt_iff hp).mpr h4)

/-- Settles O9: a shift keeps the zeros, and a refill word is put above them. -/
theorem consumeKeepsTheRegisterForm : Obligations.ConsumeKeepsTheRegisterForm := by
  intro b b' n hn h0 h16 (hz : b.ZerosBelow) hc
  obtain ⟨he, rfl⟩ | ⟨he, -, rfl⟩ := Block.consume_ok_cases hc
  · have hx : (b.shiftOut n).extra = b.extra - n := rfl
    exact ⟨by omega, by omega, hz.shiftOut n, fun h => by omega, fun _ => ⟨rfl, rfl⟩⟩
  · have hx : (b.consumed n).extra = b.extra - n + 16 := rfl
    exact ⟨by omega, by omega, hz.consumed n, fun _ => ⟨by omega, by omega, hx, rfl⟩, fun h => by omega⟩

/-- Settles O10: the valid bits lie above the refill word, and the word lies where the shifted register is 0. -/
theorem consumeShiftsTheStream : Obligations.ConsumeShiftsTheStream := by
  intro b b' n e hn hx h16 hz hc
  have zeros : b.ZerosBelow := fun i hi => hz i (by omega)
  obtain ⟨he, rfl⟩ | ⟨he, -, rfl⟩ := Block.consume_ok_cases hc
  · exact ⟨fun k hk => Block.shiftOut_streamBit (by omega), fun h => by omega⟩
  · refine ⟨fun k hk => ?_, fun hen j hj => ?_⟩
    · rw [Block.consumed_getLsbD_above he (by omega), Block.shiftOut_streamBit (by omega)]
    · exact Block.consumed_getLsbD_word (by omega) he (by omega)
        (zeros.shiftOut n _ (by rw [Block.shiftOut_extra]; omega))

/-- Settles O11: a missing word is the only way CONSUME raises, and it raises then. -/
theorem consumeRaisesForAMissingWord : Obligations.ConsumeRaisesForAMissingWord := by
  intro b n hp
  have short (h : b.extra < n ∧ b.inLen < b.pos + 2) : b.consume n = .raised ((b.shiftOut n).fail .truncatedInput) :=
    Block.consume_short h.1 ((Block.remaining_lt_iff hp).mpr h.2)
  refine ⟨⟨fun ⟨b', h⟩ => ?_, fun h => ⟨_, short h⟩⟩, short⟩
  obtain ⟨he, hr, -⟩ := Block.consume_raised_cases h
  exact ⟨he, (Block.remaining_lt_iff hp).mp hr⟩

/-- Settles O6: a read that fails is `raise`, and one that answers has advanced inside the input. -/
theorem cursorReadsAreBounded : Obligations.CursorReadsAreBounded := by
  intro b hp
  have short {n : Nat} (h : b.inLen < b.pos + n) : b.remaining < n := (Block.remaining_lt_iff hp).mpr h
  exact ⟨fun h => Block.readByte_short (short h), fun h => Block.readU16_short (short h),
    fun h => Block.readU32_short (short h), fun n h => Block.readRaw_short (short h),
    fun _ _ => b.readByte_advances.pos_le_of_ok hp, fun _ _ => b.readU16_advances.pos_le_of_ok hp,
    fun _ _ => b.readU32_advances.pos_le_of_ok hp, fun n _ _ => (b.readRaw_advances n).pos_le_of_ok hp⟩

/-- Settles O12: READ_BITS is the top bits of `BR` beside the CONSUME, whose outcome it passes on. -/
theorem readBitsTakesTheTopBits : Obligations.ReadBitsTakesTheTopBits := by
  intro b n hn
  rw [← Block.topBits_eq_div]
  exact ⟨fun _ h => Block.readBits_of_consume h, fun _ h => Block.readBits_of_consume_raised h,
    Block.topBits_lt (by omega), fun h => Block.readBits_of_consume (Block.consume_zero h)⟩

end Sys2Proof.Claims
end

section
/-! PROOFS. The Huffman table family (41_huffman_table.md): the loaded code lengths (O13), what the Kraft sum decides (O14),
what a build writes (O16, O17), and the lookup of a symbol in the table (O18, O19, O23). -/

namespace Sys2Proof.Machine

variable {b b' : Block} {lt : Memory}

/-! ### The code lengths (R150) -/

theorem lenOf_eq (lt : Memory) (s : Nat) :
    lenOf lt s = if s % 2 = 0 then (lt.read (s / 2)).toNat % 16 else (lt.read (s / 2)).toNat / 16 := by
  have hbyte := (lt.read (s / 2)).isLt
  rw [lenOf, BitVec.extractLsb'_toNat, BitVec.extractLsb'_toNat, Nat.shiftRight_eq_div_pow, Nat.shiftRight_eq_div_pow]
  split <;> omega

/-! ### The outcome of a build, by the Kraft sum (R157) -/

/-- The used symbols fill as many slots as the Kraft sum counts. -/
theorem slotsOf_codeOrder (lt : Memory) : slotsOf lt (codeOrder lt) = Claims.kraft lt :=
  slotsOf_eq_sum (codeOrder_nodup lt) fun _ => mem_codeOrder

/-- Everything BUILD_TABLE can do (R152 to R154), with the sum of R157 as what decides it. -/
theorem Block.buildTable_kraft_cases (draw : Nat) (b : Block) :
    (Claims.kraft b.lentab = 32768 ∧
      b.buildTable draw = .ok () { b with fc := 32768, dectab := builtTable b.lentab }) ∨
    (Claims.kraft b.lentab < 32768 ∧ ∃ fc, fc ≤ 32768 ∧
      b.buildTable draw = .raised ({ b with fc := fc, dectab := DecTab.free draw }.fail .huffmanTableUnderflow)) ∨
    (32768 < Claims.kraft b.lentab ∧ ∃ fc, fc ≤ 32768 ∧
      b.buildTable draw = .raised ({ b with fc := fc, dectab := DecTab.free draw }.fail .invalidHuffmanTable)) := by
  rw [← slotsOf_codeOrder, ← builtTable_eq]
  obtain ⟨hk, hb⟩ | ⟨hk, hb⟩ | h := b.buildTable_cases draw
  · exact .inl ⟨hk, hb⟩
  · exact .inr (.inl ⟨hk, _, Nat.le_of_lt hk, hb⟩)
  · exact .inr (.inr h)

theorem Block.buildTable_ok_cases {draw : Nat} {u : Unit} (h : b.buildTable draw = .ok u b') :
    Claims.kraft b.lentab = 32768 ∧ b' = { b with fc := 32768, dectab := builtTable b.lentab } := by
  obtain ⟨hk, hb⟩ | ⟨-, fc, -, hb⟩ | ⟨-, fc, -, hb⟩ := b.buildTable_kraft_cases draw <;> rw [h] at hb <;> cases hb
  exact ⟨hk, rfl⟩

theorem Block.buildTable_raised_cases {draw : Nat} (h : b.buildTable draw = .raised b') :
    ∃ fc dectab e, fc ≤ 32768 ∧ (e = .invalidHuffmanTable ∨ e = .huffmanTableUnderflow) ∧
      b' = { b with fc := fc, dectab := dectab }.fail e := by
  obtain ⟨-, hb⟩ | ⟨-, fc, hfc, hb⟩ | ⟨-, fc, hfc, hb⟩ := b.buildTable_kraft_cases draw <;> rw [h] at hb <;> cases hb
  · exact ⟨fc, _, _, hfc, .inr rfl, rfl⟩
  · exact ⟨fc, _, _, hfc, .inl rfl, rfl⟩

/-! ### The lookup of a symbol (R127, R155) -/

theorem Block.peek15_eq_div (b : Block) : b.peek15 = b.br.toNat / 2 ^ 17 := by
  rw [Block.peek15, BitVec.toNat_ushiftRight, Nat.shiftRight_eq_div_pow]

/-- The first `len` bits of the lookup index are the first `len` bits of `BR`. -/
theorem Block.peek15_div {len : Nat} (h : len ≤ 15) (b : Block) :
    b.peek15 / 2 ^ (15 - len) = b.br.toNat / 2 ^ (32 - len) := by
  rw [Block.peek15_eq_div, Nat.div_div_eq_div_mul, ← Nat.pow_add, show 17 + (15 - len) = 32 - len by omega]

theorem Block.nextSym_toNat (b : Block) : b.nextSym.toNat = (b.dectab.read (b.br.toNat / 2 ^ 17)).toNat % 512 := by
  rw [Block.nextSym, BitVec.toNat_setWidth, Block.peek15_eq_div]

/-- DECODE_SYMBOL without its refill word: the symbol is written and its code shifted out, then it raises. -/
theorem Block.decodeSymbol_short (h : b.extra < lenOf b.lentab b.nextSym.toNat) (hr : b.remaining < 2) :
    b.decodeSymbol =
      .raised (({ b with sym := b.nextSym }.shiftOut (lenOf b.lentab b.nextSym.toNat)).fail .truncatedInput) := by
  rw [Block.decodeSymbol_eq]
  exact Block.consume_short h hr

theorem tokenStep_of_decodeSymbol_raised {s : State} (h : s.blk.decodeSymbol = .raised b) :
    tokenStep s = .next { s with blk := b } :=
  tokenStep_truncated (by rw [Block.fetchToken, h, Res.bind_raised])

end Sys2Proof.Machine

namespace Sys2Proof.Claims

open Sys2Proof.Machine

/-- Settles O13: byte `i` of the loaded table is input byte `POS + i`. -/
theorem lengthTableIsLoaded : Obligations.LengthTableIsLoaded := by
  intro b hp
  refine ⟨fun h => ⟨_, Block.loadLentab_ok (Block.le_remaining h), fun s hs => ?_⟩,
    fun h => Block.loadLentab_short ((Block.remaining_lt_iff hp).mpr h)⟩
  rw [lenOf_eq, Memory.read_slice, if_pos (show s / 2 < 256 by omega)]

/-- Settles O14: each of the three outcomes comes with its own range of the sum, and excludes the other two. -/
theorem kraftSumDecidesTheBuild : Obligations.KraftSumDecidesTheBuild := by
  intro b draw
  obtain ⟨hk, hb⟩ | ⟨hk, fc, -, hb⟩ | ⟨hk, fc, -, hb⟩ := b.buildTable_kraft_cases draw <;> rw [hb]
  · simp [hk]
  · simp [hk, hk.ne, hk.not_gt]
  · simp [hk, hk.ne', hk.not_gt]

/-- Settles O16: the table is that of the used symbols, each in its own run. -/
theorem buildFillsEverySlot : Obligations.BuildFillsEverySlot := by
  intro b b' draw hbuild
  obtain ⟨hk, rfl⟩ := Block.buildTable_ok_cases hbuild
  rw [← slotsOf_codeOrder] at hk
  refine ⟨rfl, builtTable_wf hk, fun i hi => ?_⟩
  obtain ⟨hsym, hused, hlen⟩ := builtTable_entries hk hi
  refine ⟨hsym, BitVec.eq_of_toNat_eq ?_, hused, hlen⟩
  rw [BitVec.extractLsb'_toNat, Nat.shiftRight_eq_div_pow, Nat.div_eq_of_lt hsym]
  rfl

/-- Settles O17: both errors are raised over a write of `FC` and `DECTAB`. -/
theorem failedBuildFrame : Obligations.FailedBuildFrame := by
  intro b b' draw hbuild
  obtain ⟨fc, dectab, e, hfc, he, rfl⟩ := Block.buildTable_raised_cases hbuild
  exact ⟨rfl, hfc, he⟩

/-- Settles O18: the slots of a symbol are those that begin with its code (O15), and both lookups begin with it. -/
theorem symbolDependsOnItsCodeOnly : Obligations.SymbolDependsOnItsCodeOnly := by
  intro b b' x y draw hbuild hx hy s hbits
  have hs : x.dectab.read x.peek15 = BitVec.ofNat 16 s := by simp [s]
  obtain ⟨-, -, entries⟩ := buildFillsEverySlot b b' draw hbuild
  obtain ⟨hlt, -, hused, hlen⟩ := hx ▸ entries x.peek15 x.peek15_lt
  obtain ⟨-, -, slots⟩ := codesAreCanonicalPrefixes b b' draw s hbuild hlt hused
  have hfirst := (slots x.peek15 x.peek15_lt).mp (hx ▸ hs)
  rw [hs, hy, slots y.peek15 y.peek15_lt, Block.peek15_div hlen, ← hbits, ← Block.peek15_div hlen, hfirst]

/-- Settles O19: the index is the top 15 bits of `BR`, and the symbol the low 9 of the entry. -/
theorem decodeSymbolLooksUpAndConsumes : Obligations.DecodeSymbolLooksUpAndConsumes :=
  fun b => ⟨b.nextSym, b.nextSym_toNat, b.decodeSymbol_eq⟩

/-- Settles O23: the raise of the refill ends the step before a token is selected. -/
theorem symbolWithoutRefillWordFails : Obligations.SymbolWithoutRefillWordFails := by
  intro s hhost hstate hp hshort sym hextra
  have hraised := Block.decodeSymbol_short hextra ((Block.remaining_lt_iff hp).mpr hshort)
  have hstep := tokenStep_of_decodeSymbol_raised hraised
  rw [← blockStep_decoding hstate, ← step_no_move hhost] at hstep
  exact ⟨_, hstep, ⟨rfl, rfl, rfl, rfl⟩, rfl, rfl⟩

end Sys2Proof.Claims
end

section
/-! PROOFS. The token step by the selected row of rule R100 (O20, O22), the literals and the end marker (O24 to O26). -/

namespace Sys2Proof.Machine

variable {s t : State} {b b' : Block} {n rem : Nat} {sym : BitVec 9} {ext : Option Byte} {rest : List HostMove}

/-! ### TOKEN_STEP, by what DECODE_SYMBOL answers (R180, R100) -/

/-- A block step in `DECODING` is a TOKEN_STEP on the state whose move, if there was one, is taken. -/
theorem step_decoding (hr : Claims.BlockRuns s rest) (hs : s.blk.state = .decoding) :
    step s = tokenStep { s with host := rest } := by
  rw [step_of_blockRuns hr, blockStep_decoding (s := { s with host := rest }) hs]

theorem tokenStep_of_decodeSymbol_ok (h : s.blk.decodeSymbol = .ok () b) :
    tokenStep s = exec (selectToken b.sym b.remaining (b.extByte s.cfg (symObl b.sym))) { s with blk := b } :=
  tokenStep_fetched (by rw [Block.fetchToken, h, Res.bind_ok])

theorem selectToken_wellFormed (sym : BitVec 9) (rem : Nat) (ext : Option Byte) :
    (selectToken sym rem ext).wellFormed = true := by
  by_cases hlit : sym.toNat < 256
  · rw [selectToken_lit hlit]; rfl
  by_cases heob : sym = eobSym ∧ rem = 0
  · obtain ⟨rfl, rfl⟩ := heob
    rw [selectToken_eob]; rfl
  by_cases hl : symLn sym = 15
  · rw [selectToken_extended (by omega) hl]
    split <;> rfl
  · rw [selectToken_matchPlain (by omega) heob hl]
    exact decide_eq_true hl

/-- Rows 3 to 5 of R100 all run MATCH_COMMON with the nibbles of the symbol (R186 to R188). -/
theorem exec_selectToken_match (h : 256 ≤ sym.toNat) (hne : ¬ (sym = eobSym ∧ rem = 0)) :
    exec (selectToken sym rem ext) s = s.finish (s.blk.matchCommon s.cfg (symObl sym) (symLn sym)) := by
  by_cases hl : symLn sym = 15
  · rw [selectToken_extended h hl, hl]
    split <;> rfl
  · rw [selectToken_matchPlain h hne hl]; rfl

theorem tokenStep_literal (hs : s.blk.decodeSymbol = .ok () b) (hlit : b.sym.toNat < 256) :
    tokenStep s = execLit (BitVec.ofNat 8 b.sym.toNat) { s with blk := b } := by
  rw [tokenStep_of_decodeSymbol_ok hs, selectToken_lit hlit, BitVec.ofNat_toNat]; rfl

theorem tokenStep_endMarker (hs : s.blk.decodeSymbol = .ok () b) (hsym : b.sym = eobSym) (hrem : b.remaining = 0) :
    tokenStep s = .next { s with blk := { b with state := .done } } := by
  have hsel (ext : Option Byte) : selectToken b.sym b.remaining ext = .eob := by rw [hsym, hrem, selectToken_eob]
  rw [tokenStep_of_decodeSymbol_ok hs, hsel]; rfl

theorem tokenStep_match (hs : s.blk.decodeSymbol = .ok () b) (h : 256 ≤ b.sym.toNat)
    (hne : ¬ (b.sym = eobSym ∧ b.remaining = 0)) :
    tokenStep s = .next { s with blk := (b.matchCommon s.cfg (symObl b.sym) (symLn b.sym)).block } := by
  rw [tokenStep_of_decodeSymbol_ok hs, exec_selectToken_match h hne]; rfl

theorem eq_eobSym_iff : sym = eobSym ↔ sym.toNat = 256 := BitVec.toNat_inj.symm

/-- The selection of R100 and the meanings of the selected tokens make up TOKEN_STEP as R180 writes it. -/
theorem tokenStep_eq_tokenRule (s : State) :
    tokenStep s = .next { s with blk := (Claims.tokenRule s.cfg s.blk).block } := by
  rw [Claims.tokenRule]
  cases hs : s.blk.decodeSymbol with
  | raised b => exact tokenStep_of_decodeSymbol_raised hs
  | ok u b =>
    rw [Res.bind_ok]
    by_cases hlit : b.sym.toNat < 256
    · rw [if_pos hlit]
      by_cases hc : b.olen + 1 ≤ s.cfg.outMax
      · rw [Block.checkCapacity_ok hc]
        exact (tokenStep_literal hs hlit).trans (execLit_fits _ hc)
      · rw [Block.checkCapacity_fails (by omega)]
        exact (tokenStep_literal hs hlit).trans (execLit_overflows _ (Nat.not_le.mp hc))
    rw [if_neg hlit]
    by_cases heob : b.sym.toNat = 256 ∧ b.inLen - b.pos = 0
    · rw [if_pos heob]
      exact tokenStep_endMarker hs (eq_eobSym_iff.mpr heob.1) heob.2
    · rw [if_neg heob, tokenStep_match hs (by omega) (by rw [eq_eobSym_iff]; exact heob), symObl_eq_ofNat (by omega),
        symLn_eq_ofNat, show b.sym.toNat % 16 = (b.sym.toNat - 256) % 16 by omega]
      rfl

/-! ### An operation of a token leaves `STATE` alone or fails (R13) -/

/-- The operation leaves `STATE` as it is in `b`, or has raised. -/
def Res.StaysOrFails {α : Type} (b : Block) (r : Res α) : Prop := r.block.state = b.state ∨ r.block.state = .failed

theorem Res.StaysOrFails.bind {α β : Type} {r : Res α} {f : α → Block → Res β} (h : r.StaysOrFails b)
    (hf : ∀ a b', (f a b').StaysOrFails b') : (r.bind f).StaysOrFails b := by
  cases r with
  | raised b' => exact h
  | ok a b' =>
    obtain hstay | hfail := hf a b'
    · exact h.imp hstay.trans hstay.trans
    · exact .inr hfail

theorem Res.StaysOrFails.ne_done {α : Type} {r : Res α} (h : r.StaysOrFails b) (hb : b.state ≠ .done) :
    r.block.state ≠ .done := by
  obtain hstay | hfail := h
  · rwa [hstay]
  · rw [hfail]; nofun

theorem Block.consume_staysOrFails (n : Nat) (b : Block) : (b.consume n).StaysOrFails b := by
  cases h : b.consume n with
  | ok u b' => obtain ⟨-, rfl⟩ | ⟨-, -, rfl⟩ := Block.consume_ok_cases h <;> exact .inl rfl
  | raised b' => obtain ⟨-, -, rfl⟩ := Block.consume_raised_cases h; exact .inr rfl

theorem Block.decodeSymbol_staysOrFails (b : Block) : b.decodeSymbol.StaysOrFails b :=
  Block.consume_staysOrFails _ { b with sym := b.nextSym }

theorem Block.offset_staysOrFails (obl : BitVec 4) (b : Block) : (b.offset obl).StaysOrFails b := by
  refine Res.StaysOrFails.bind ?_ fun _ _ => .inl rfl
  exact (b.consume_staysOrFails _).bind fun _ _ => .inl rfl

theorem Block.length_staysOrFails (ln : BitVec 4) (b : Block) : (b.length ln).StaysOrFails b := by
  cases h : b.length ln with
  | ok u b' => obtain ⟨-, rfl⟩ | ⟨-, -, -, rfl⟩ | ⟨-, -, -, -, rfl⟩ := Block.length_ok_cases h <;> exact .inl rfl
  | raised b' =>
    obtain ⟨-, ⟨-, rfl⟩ | ⟨-, -, -, rfl⟩ | ⟨-, -, -, rfl⟩⟩ := Block.length_raised_cases h <;> exact .inr rfl

theorem Block.matchOperands_staysOrFails (c : Config) (obl ln : BitVec 4) (b : Block) :
    (b.matchOperands c obl ln).StaysOrFails b := by
  rw [Block.matchOperands]
  split
  · exact (b.length_staysOrFails ln).bind fun _ b' => b'.offset_staysOrFails obl
  · exact (b.offset_staysOrFails obl).bind fun _ b' => b'.length_staysOrFails ln

theorem Block.matchCopy_staysOrFails (c : Config) (b : Block) : (b.matchCopy c).StaysOrFails b := by
  cases h : b.matchCopy c with
  | ok u b' =>
    obtain ⟨-, -, rfl⟩ := Block.matchCopy_ok_cases h
    obtain ⟨out, hcopy⟩ := b.copy_frame b.mlen
    rw [hcopy]
    exact .inl rfl
  | raised b' => obtain ⟨-, rfl⟩ | ⟨-, -, rfl⟩ := Block.matchCopy_raised_cases h <;> exact .inr rfl

theorem Block.matchCommon_staysOrFails (c : Config) (obl ln : BitVec 4) (b : Block) :
    (b.matchCommon c obl ln).StaysOrFails b :=
  (b.matchOperands_staysOrFails c obl ln).bind fun _ b' => b'.matchCopy_staysOrFails c

theorem execLit_ne_done {v : Byte} (h : execLit v s = .next t) (hs : s.blk.state ≠ .done) : t.blk.state ≠ .done := by
  by_cases hc : s.blk.olen + 1 ≤ s.cfg.outMax
  · rw [execLit_fits v hc] at h; cases h; exact hs
  · rw [execLit_overflows v (by omega)] at h; cases h; nofun

/-! ### What enters `DONE` (R182, R220) -/

/-- A TOKEN_STEP enters `DONE` only as EOB. -/
theorem tokenStep_done (h : tokenStep s = .next t) (ht : t.blk.state = .done) (hs : s.blk.state ≠ .done) :
    ∃ b, s.blk.decodeSymbol = .ok () b ∧ b.sym = eobSym ∧ b.remaining = 0 ∧ t.blk = { b with state := .done } := by
  have hsymbol := s.blk.decodeSymbol_staysOrFails.ne_done hs
  cases hd : s.blk.decodeSymbol with
  | raised b =>
    rw [tokenStep_of_decodeSymbol_raised hd] at h; cases h
    rw [hd] at hsymbol
    exact absurd ht hsymbol
  | ok u b =>
    rw [hd, Res.block_ok] at hsymbol
    by_cases hlit : b.sym.toNat < 256
    · rw [tokenStep_literal hd hlit] at h
      exact absurd ht (execLit_ne_done h hsymbol)
    by_cases heob : b.sym = eobSym ∧ b.remaining = 0
    · obtain ⟨hsym, hrem⟩ := heob
      rw [tokenStep_endMarker hd hsym hrem] at h; cases h
      exact ⟨b, rfl, hsym, hrem, rfl⟩
    · rw [tokenStep_match hd (by omega) heob] at h; cases h
      exact absurd ht ((b.matchCommon_staysOrFails _ _ _).ne_done hsymbol)

theorem SetupOutcome.ne_done (h : SetupOutcome n b b') : b'.state ≠ .done := by
  cases h <;> nofun

theorem blockStep_done_of_decoding (h : blockStep s = .next t) (ht : t.blk.state = .done) (hs : s.blk.state ≠ .done) :
    s.blk.state = .decoding ∧ tokenStep s = .next t := by
  cases hst : s.blk.state with
  | idle => rw [blockStep_idle hst] at h; cases h; exact absurd ht hs
  | setup => rw [blockStep_setup hst] at h; cases h; exact absurd ht (s.blk.setup_outcome s.draw).ne_done
  | decoding => exact ⟨rfl, blockStep_decoding hst ▸ h⟩
  | done => exact absurd hst hs
  | failed => rw [blockStep_failed hst] at h; cases h; exact absurd ht hs

theorem exec_start_done (h : exec .start s = .next t) (ht : t.blk.state = .done) : s.blk.state = .done := by
  by_cases hb : s.blk.state.busy = true
  · rw [exec_start_busy hb] at h; cases h; exact ht
  · by_cases hl : s.blk.inLen ≤ s.cfg.inMax
    · rw [exec_start_accepted (by simpa using hb) hl] at h; cases h; cases ht
    · rw [exec_start_refused (by simpa using hb) (by omega)] at h; cases h; exact ht

theorem exec_reset_ne_done (h : exec .reset s = .next t) : t.blk.state ≠ .done := by
  cases h; nofun

theorem writeCtrl_done {v : Word} (h : writeCtrl v s = .next t) (ht : t.blk.state = .done) : s.blk.state = .done := by
  cases h1 : v.getLsbD 1 with
  | true => rw [writeCtrl_command (decodeCtrl_reset h1)] at h; exact absurd ht (exec_reset_ne_done h)
  | false =>
    cases h0 : v.getLsbD 0 with
    | true => rw [writeCtrl_command (decodeCtrl_start h1 h0)] at h; exact exec_start_done h ht
    | false => rw [writeCtrl_none (decodeCtrl_none h1 h0)] at h; cases h; exact ht

theorem writeReg_done {r : HostReg} {v : Word} (h : s.writeReg r v = .next t) (ht : t.blk.state = .done) :
    s.blk.state = .done := by
  cases r with
  | ctrl => exact writeCtrl_done h ht
  | inLen => simp only [State.writeReg] at h; split at h <;> cases h <;> exact ht
  | status => cases h; exact ht
  | outLen => cases h; exact ht
  | inPos => cases h; exact ht
  | reserved k => cases h; exact ht

theorem writeInWindow_done {i : Nat} {v : Byte} (h : s.writeInWindow i v = .next t) (ht : t.blk.state = .done) :
    s.blk.state = .done := by
  simp only [State.writeInWindow] at h
  split at h
  · split at h
    · cases h
    · cases h; exact ht
  · cases h

/-- No access of the host enters `DONE`: a move that does lets the block run. -/
theorem hostStep_done {m : HostMove} (h : hostStep m s = .next t) (ht : t.blk.state = .done) (hs : s.blk.state ≠ .done) :
    blockStep s = .next t := by
  cases m with
  | run => exact h
  | writeReg r v => exact absurd (writeReg_done h ht) hs
  | readReg r => cases h; exact absurd ht hs
  | writeIn i v => exact absurd (writeInWindow_done h ht) hs
  | readIn i => simp only [hostStep] at h; split at h <;> cases h; exact absurd ht hs
  | writeOut i v => simp only [hostStep] at h; split at h <;> cases h; exact absurd ht hs
  | readOut i => simp only [hostStep] at h; split at h <;> cases h; exact absurd ht hs
  | assertReset => exact absurd ht (exec_reset_ne_done h)

end Sys2Proof.Machine

namespace Sys2Proof.Claims

open Sys2Proof.Machine

/-- Settles O22: rows 1 and 2 of the selection are the first two branches of the rule, and the three match forms its last. -/
theorem stepIsTheTokenRule : Obligations.StepIsTheTokenRule := by
  intro s hhost hs
  rw [step_no_move hhost, blockStep_decoding hs, tokenStep_eq_tokenRule]

/-- Settles O26: no access of the host and no other step of the block enters `DONE`, and a token does so only as EOB. -/
theorem doneOnlyThroughEndMarker : Obligations.DoneOnlyThroughEndMarker := by
  intro s t h ht hs
  have token {rest : List HostMove} (hrun : blockStep { s with host := rest } = .next t) :
      s.blk.state = .decoding ∧ ∃ b, s.blk.decodeSymbol = .ok () b ∧ b.sym = 256#9 ∧ b.inLen - b.pos = 0 ∧
        t.blk = { b with state := .done } := by
    obtain ⟨hd, htoken⟩ := blockStep_done_of_decoding hrun ht hs
    exact ⟨hd, tokenStep_done (s := { s with host := rest }) htoken ht hs⟩
  cases hhost : s.host with
  | nil => rw [step_no_move hhost] at h; exact token h
  | cons m rest => rw [step_move hhost] at h; exact token (hostStep_done h ht hs)

/-- Settles O20: the step is a TOKEN_STEP, which fetches by DECODE_SYMBOL and the selection. -/
theorem stepRunsTheDecodedToken : Obligations.StepRunsTheDecodedToken := by
  intro s rest hr hs
  rw [step_decoding hr hs]
  exact ⟨fun b h => ⟨tokenStep_of_decodeSymbol_ok (s := { s with host := rest }) h, selectToken_wellFormed _ _ _⟩,
    fun b h => tokenStep_of_decodeSymbol_raised (s := { s with host := rest }) h⟩

/-- Settles O24, by the two outcomes of the capacity check. -/
theorem literalAppendsItsByte : Obligations.LiteralAppendsItsByte :=
  fun _ v hw => ⟨execLit_fits v, fun h => execLit_overflows v (Nat.lt_succ_of_le h), Memory.read_write hw _ v⟩

/-- Settles O25: row 2 of the selection looks at the symbol and the remaining count alone. -/
theorem endMarkerEndsTheDecode : Obligations.EndMarkerEndsTheDecode := by
  refine ⟨fun s => rfl, fun s b hhost hs hd hsym hrem => ?_⟩
  rw [step_no_move hhost, blockStep_decoding hs]
  exact tokenStep_endMarker hd hsym hrem

end Sys2Proof.Claims
end

section
/-! PROOFS. The operand reads of a match (O31, O32), the copy engine (O34), what a match that completes leaves (O27 to O29), and
that the order of its reads shows only on a refill (O33). -/

namespace Sys2Proof.Machine

variable {s : State} {b b' : Block} {c : Config} {n len k wordAt : Nat} {obl ln : BitVec 4} {ext : List Byte}

/-! ### LENGTH that raises (R185) -/

theorem Block.length_noByte (hl : ln.toNat = 15) (hr : b.remaining < 1) :
    b.length ln = .raised (b.fail .truncatedInput) := by
  rw [Block.length, if_neg (by rw [hl]; decide), Block.lengthExt, Block.readByte_short hr]; rfl

/-- Behind the byte 255 LENGTH is the length word (R185). -/
theorem Block.length_long (hl : ln.toNat = 15) (hr : 1 ≤ b.remaining) (hb : b.inp.read b.pos = byteEsc) :
    b.length ln = ({ b with pos := b.pos + 1 }.lengthWord).bind fun e b => .ok () { b with mlen := e + 15 + 3 } := by
  rw [Block.length, if_neg (by rw [hl]; decide), Block.lengthExt, Block.readByte_ok hr, Res.bind_ok, if_pos hb]

theorem Block.length_noWord (hl : ln.toNat = 15) (h1 : 1 ≤ b.remaining) (h3 : b.remaining < 3)
    (hb : b.inp.read b.pos = byteEsc) : b.length ln = .raised ({ b with pos := b.pos + 1 }.fail .truncatedInput) := by
  rw [Block.length_long hl h1 hb, Block.lengthWord, Block.readU16_short (by simp [Block.remaining] at h3 ⊢; omega)]; rfl

theorem Block.length_badWord (hl : ln.toNat = 15) (h3 : 3 ≤ b.remaining) (hb : b.inp.read b.pos = byteEsc)
    (hv : (b.inp.read16 (b.pos + 1)).toNat < 15) :
    b.length ln = .raised ({ b with pos := b.pos + 3 }.fail .invalidFormat) := by
  rw [Block.length_long hl (by omega) hb, Block.lengthWord, Block.readU16_ok (by simp [Block.remaining] at h3 ⊢; omega),
    Res.bind_ok, if_pos hv]; rfl

/-! ### COPY (R190, R193) -/

/-- Each byte COPY appends is the one that stands `MOFF` before it in the output. -/
theorem Block.copy_read_periodic (hw : b.out.wf) (h1 : 1 ≤ b.moff) (ho : b.moff ≤ b.olen) {i : Nat} (hi : i < n) :
    (b.copy n).out.read (b.olen + i) = (b.copy n).out.read (b.olen + i - b.moff) := by
  induction n generalizing b i with
  | zero => omega
  | succ n ih =>
    have hw' : (b.outAppend (b.outRead (b.olen - b.moff))).out.wf := Memory.write_wf hw _ _
    have hnew := Block.outAppend_olen (b.outRead (b.olen - b.moff)) b
    rw [Block.copy_succ]
    cases i with
    | zero =>
      rw [Block.copy_read_outside hw' n _ (by omega), Block.copy_read_outside hw' n _ (by omega),
        Block.outAppend_read hw, Block.outAppend_read hw, if_pos (Nat.add_zero _), if_neg (by omega)]
      rfl
    | succ i =>
      have hstep := ih hw' h1 (by rw [hnew, Block.outAppend_moff]; omega) (Nat.lt_of_succ_lt_succ hi)
      rwa [hnew, Block.outAppend_moff, Nat.add_right_comm b.olen 1 i, Nat.add_assoc b.olen i 1] at hstep

/-- So the bytes it appends repeat the last `MOFF` bytes there were (R193). -/
theorem Block.copy_read_pattern (hw : b.out.wf) (h1 : 1 ≤ b.moff) (ho : b.moff ≤ b.olen) {i : Nat} (hi : i < n) :
    (b.copy n).out.read (b.olen + i) = b.out.read (b.olen - b.moff + i % b.moff) := by
  induction i using Nat.strong_induction_on with
  | _ i ih =>
    rw [Block.copy_read_periodic hw h1 ho hi]
    by_cases hlt : i < b.moff
    · rw [Block.copy_read_outside hw n _ (by omega), Nat.mod_eq_of_lt hlt, Nat.sub_add_comm ho]
    · rw [Nat.add_sub_assoc (by omega), ih (i - b.moff) (by omega) (by omega), ← Nat.mod_eq_sub_mod (by omega)]

/-! ### The operand reads of a match that are served (R184, R185, R189) -/

/-- The block OFFSET leaves when its refill word, where it needs one, is the input word at `wordAt` (R184, R128). -/
def Block.offsetRead (obl : BitVec 4) (wordAt : Nat) (b : Block) : Block :=
  { b with
    moff := Claims.offsetHere b obl
    pos := b.pos + Claims.refillBytes b obl
    extra := b.extra - obl.toNat + (if Claims.refills b obl then 16 else 0)
    br := (b.br <<< obl.toNat) |||
      (if Claims.refills b obl then (b.inp.read16 wordAt).setWidth 32 <<< (obl.toNat - b.extra).toNat else 0) }

theorem refills_eq_true (h : b.extra < obl.toNat) : Claims.refills b obl = true := decide_eq_true h

theorem refills_eq_false (h : (obl.toNat : Int) ≤ b.extra) : Claims.refills b obl = false :=
  decide_eq_false (Int.not_lt.mpr h)

/-- OFFSET whose CONSUME needs no refill: the shift, the subtraction and `MOFF` (R184, R128). -/
theorem Block.offset_within (h : (obl.toNat : Int) ≤ b.extra) :
    b.offset obl = .ok () { b with
      br := b.br <<< obl.toNat, extra := b.extra - obl.toNat, moff := b.topBits obl.toNat + 2 ^ obl.toNat } :=
  Block.offset_of_consume (Block.consume_within h)

theorem Block.offset_served (h : Claims.refillBytes b obl ≤ b.remaining) :
    b.offset obl = .ok () (b.offsetRead obl b.pos) := by
  have htop := b.topBits_eq_div obl.toNat
  rw [Claims.refillBytes] at h
  rw [Block.offsetRead, Claims.refillBytes, Claims.offsetHere, ← htop]
  by_cases he : (obl.toNat : Int) ≤ b.extra
  · rw [Block.offset_within he, refills_eq_false he]
    simp
  · have he : b.extra < obl.toNat := Int.not_le.mp he
    rw [refills_eq_true he] at h ⊢
    rw [Block.offset_of_consume (Block.consume_refills he h)]
    rfl

theorem Block.offset_short (h : b.remaining < Claims.refillBytes b obl) :
    b.offset obl = .raised ((b.shiftOut obl.toNat).fail .truncatedInput) := by
  rw [Claims.refillBytes] at h
  by_cases he : (obl.toNat : Int) ≤ b.extra
  · rw [refills_eq_false he] at h
    exact absurd h (Nat.not_lt_zero _)
  · have he : b.extra < obl.toNat := Int.not_le.mp he
    rw [refills_eq_true he] at h
    rw [Block.offset, Block.readBits_of_consume_raised (Block.consume_short he h), Res.bind_raised]

theorem offsetHere_pos (b : Block) (obl : BitVec 4) : 1 ≤ Claims.offsetHere b obl :=
  Nat.le_add_left_of_le (Nat.two_pow_pos _)

/-- The block the operand reads of a match leave, with `extBytes` extension bytes read and the refill word, where there is one,
taken at `wordAt`. -/
def Block.operandsRead (obl : BitVec 4) (len extBytes wordAt : Nat) (b : Block) : Block :=
  { b.offsetRead obl wordAt with mlen := len, pos := b.pos + extBytes + Claims.refillBytes b obl }

/-- In either order the operand reads answer the length of the tier whose extension bytes stand at their place, and the offset
`BR` begins with. -/
theorem Block.matchOperands_of_tier (ht : LengthTier len ln.toNat ext)
    (hin : b.pos + ext.length + Claims.refillBytes b obl ≤ b.inLen)
    (hext : ∀ k v, ext[k]? = some v → b.inp.read (Claims.extAt c b obl + k) = v) :
    b.matchOperands c obl ln =
      .ok () (b.operandsRead obl len ext.length (if c.lenExtFirst then b.pos + ext.length else b.pos)) := by
  rw [Block.matchOperands]
  cases hc : c.lenExtFirst with
  | true =>
    simp only [Claims.extAt, hc, if_true] at hext ⊢
    rw [ht.length (by omega) hext, Res.bind_ok]
    exact Block.offset_served (b := { b with pos := b.pos + ext.length, mlen := len }) (Block.le_remaining hin)
  | false =>
    simp only [Claims.extAt, hc, Bool.false_eq_true, if_false] at hext ⊢
    rw [Nat.add_right_comm] at hin
    rw [Block.offset_served (Block.le_remaining (by omega)), Res.bind_ok, ht.length (b := b.offsetRead obl b.pos) hin hext,
      Block.operandsRead, Nat.add_right_comm b.pos]
    rfl

/-- A match whose operand reads are served, whose offset is within the output and whose length fits completes (R190 to R193). -/
theorem matchDone_of_operandsRead
    (ho : s.blk.matchOperands s.cfg obl ln = .ok () (s.blk.operandsRead obl len k wordAt)) (hw : s.blk.out.wf)
    (hb : Claims.offsetHere s.blk obl ≤ s.blk.olen) (hc : s.blk.olen + len ≤ s.cfg.outMax) :
    ∃ t, s.finish (s.blk.matchCommon s.cfg obl ln) = .next t ∧ Claims.MatchDone s t obl len k wordAt := by
  have hcommon : s.blk.matchCommon s.cfg obl ln = .ok () ((s.blk.operandsRead obl len k wordAt).copy len) := by
    rw [Block.matchCommon, ho, Res.bind_ok]
    exact Block.matchCopy_ok hb hc
  have happended {i : Nat} (hi : i < len) :=
    Block.copy_read_pattern (b := s.blk.operandsRead obl len k wordAt) hw (offsetHere_pos s.blk obl) hb hi
  have hkept := Block.copy_read_outside (b := s.blk.operandsRead obl len k wordAt) hw len
  obtain ⟨out, hcopy⟩ := (s.blk.operandsRead obl len k wordAt).copy_frame len
  rw [hcopy] at hcommon happended hkept
  rw [hcommon]
  exact ⟨_, rfl, {
    moff := rfl, mlen := rfl, pos := rfl, extra := rfl, br := rfl, olen := rfl
    appended := fun _ => happended, kept := hkept, frame := rfl }⟩

/-- A match of any tier completes when its extension bytes, its refill word, its offset and its length fit. -/
theorem matchDone_of_tier (ht : LengthTier len ln.toNat ext) (hw : s.blk.out.wf)
    (hin : s.blk.pos + ext.length + Claims.refillBytes s.blk obl ≤ s.blk.inLen)
    (hext : ∀ k v, ext[k]? = some v → s.blk.inp.read (Claims.extAt s.cfg s.blk obl + k) = v)
    (hb : Claims.offsetHere s.blk obl ≤ s.blk.olen) (hc : s.blk.olen + len ≤ s.cfg.outMax) :
    ∃ t, s.finish (s.blk.matchCommon s.cfg obl ln) = .next t ∧
      Claims.MatchDone s t obl len ext.length (if s.cfg.lenExtFirst then s.blk.pos + ext.length else s.blk.pos) :=
  matchDone_of_operandsRead (Block.matchOperands_of_tier ht hin hext) hw hb hc

/-! ### The order of the operand reads (R189) -/

theorem SameDecode.refl (b : Block) : SameDecode b b :=
  ⟨rfl, rfl, rfl, fun _ _ => rfl, rfl, rfl, fun _ _ => rfl, fun _ => ⟨rfl, rfl⟩, fun _ _ _ => rfl, fun _ _ _ => rfl⟩

/-- Both answer the same, or both fail and show the same. -/
abbrev Res.Agree {α : Type} (r q : Res α) : Prop := Res.Same Eq r q

theorem Res.Agree.refl {α : Type} (r : Res α) : Res.Agree r r := by
  cases r with
  | ok a b => exact .ok rfl
  | raised b => exact .raised (.refl b)

/-- Two blocks that differ in the bit register and the operands only fail alike. -/
theorem Res.Agree.fail {e : ErrKind} {mlen moff : Nat} {br : Word} {extra : Int} :
    Res.Agree (.raised (b.fail e) : Res Unit)
      (.raised ({ b with br := br, extra := extra, mlen := mlen, moff := moff }.fail e)) := by
  have stream : SameStream b { b with br := br, extra := extra, mlen := mlen, moff := moff } :=
    { (SameDecode.refl b).sameStream with }
  exact .raised (stream.fail e)

/-- LENGTH neither reads nor writes the bit register and `MOFF`. -/
theorem Block.length_ok_of_registers (h : b.length ln = .ok () b') (br : Word) (extra : Int) (moff : Nat) :
    { b with br := br, extra := extra, moff := moff }.length ln =
      .ok () { b' with br := br, extra := extra, moff := moff } := by
  obtain ⟨hl, rfl⟩ | ⟨hl, hr, hb, rfl⟩ | ⟨hl, hr, hb, hv, rfl⟩ := Block.length_ok_cases h
  · exact Block.length_short_form hl
  · exact Block.length_x8 hl hr hb
  · exact Block.length_x16 hl hr hb hv

theorem Block.length_raised_of_registers (h : b.length ln = .raised b') (br : Word) (extra : Int) (moff : Nat) :
    { b with br := br, extra := extra, moff := moff }.length ln =
      .raised { b' with br := br, extra := extra, moff := moff } := by
  obtain ⟨hl, ⟨hr, rfl⟩ | ⟨h1, h3, hb, rfl⟩ | ⟨h3, hb, hv, rfl⟩⟩ := Block.length_raised_cases h
  · exact Block.length_noByte hl hr
  · exact Block.length_noWord hl h1 h3 hb
  · exact Block.length_badWord hl h3 hb hv

theorem Block.length_raised_fail (h : b.length ln = .raised b') : ∃ pos e, b' = { b with pos := pos }.fail e := by
  obtain ⟨-, ⟨-, rfl⟩ | ⟨-, -, -, rfl⟩ | ⟨-, -, -, rfl⟩⟩ := Block.length_raised_cases h <;> exact ⟨_, _, rfl⟩

/-- An offset without a refill moves no cursor, so LENGTH reads the same bytes before and after it. -/
theorem Block.length_offset_agree_within (he : (obl.toNat : Int) ≤ b.extra) :
    Res.Agree ((b.length ln).bind fun _ b => b.offset obl) ((b.offset obl).bind fun _ b => b.length ln) := by
  rw [Block.offset_within he, Res.bind_ok]
  cases h : b.length ln with
  | ok u b' =>
    obtain ⟨pos, mlen, err, state, hf⟩ := b.length_frame ln
    rw [h, Res.block_ok] at hf
    rw [Block.length_ok_of_registers h, Res.bind_ok]
    subst hf
    rw [Block.offset_within (b := { b with pos := pos, mlen := mlen, err := err, state := state }) he]
    exact .refl _
  | raised b' =>
    obtain ⟨pos, e, rfl⟩ := Block.length_raised_fail h
    rw [Block.length_raised_of_registers h, Res.bind_raised]
    exact .fail

/-- A length without an extension moves no cursor, so OFFSET finds the same refill word before and after it. -/
theorem Block.length_offset_agree_short_form (hl : ln.toNat < 15) :
    Res.Agree ((b.length ln).bind fun _ b => b.offset obl) ((b.offset obl).bind fun _ b => b.length ln) := by
  rw [Block.length_short_form hl, Res.bind_ok]
  by_cases hr : Claims.refillBytes b obl ≤ b.remaining
  · rw [Block.offset_served (b := { b with mlen := ln.toNat + 3 }) hr, Block.offset_served hr, Res.bind_ok,
      Block.length_short_form hl]
    exact .refl _
  · have hr : b.remaining < Claims.refillBytes b obl := Nat.not_le.mp hr
    rw [Block.offset_short (b := { b with mlen := ln.toNat + 3 }) hr, Block.offset_short hr, Res.bind_raised]
    exact .fail

theorem Block.matchCommon_agree (h : ln.toNat < 15 ∨ (obl.toNat : Int) ≤ b.extra) :
    Res.Agree (b.matchCommon { c with lenExtFirst := true } obl ln)
      (b.matchCommon { c with lenExtFirst := false } obl ln) := by
  have operands : Res.Agree (b.matchOperands { c with lenExtFirst := true } obl ln)
      (b.matchOperands { c with lenExtFirst := false } obl ln) := by
    obtain hl | he := h
    · exact Block.length_offset_agree_short_form hl
    · exact Block.length_offset_agree_within he
  refine operands.bind fun _ a a' _ _ ha => ?_
  subst ha
  exact Res.Agree.refl _

theorem Res.Agree.observe {α : Type} {r q : Res α} (h : Res.Agree r q) : r.block.observe = q.block.observe :=
  (h.block fun _ _ he => he ▸ .refl _).observe

end Sys2Proof.Machine

namespace Sys2Proof.Claims

open Sys2Proof.Machine

/-- Settles O27: the tier without extension bytes. -/
theorem matchPlainCompletes : Obligations.MatchPlainCompletes := by
  intro s obl ln hw hl hin hb hc
  have done := matchDone_of_tier (.nibble hl rfl) hw hin nofun hb hc
  rw [List.length_nil, Nat.add_zero s.blk.pos, ite_self] at done
  exact done

/-- Settles O28: the tier of one extension byte. -/
theorem matchX8Completes : Obligations.MatchX8Completes := by
  intro s obl hw hin he hb hc
  refine matchDone_of_tier (ln := 15) (.byte he rfl) hw hin ?_ hb hc
  exact fun
    | 0, _, h => Option.some.inj h
    | _ + 1, _, h => nomatch h

/-- Settles O29: the tier of the byte 255 and a length word. -/
theorem matchX16Completes : Obligations.MatchX16Completes := by
  intro s obl hw hin he hv hb hc
  have hword := Memory.read16_toNat s.blk.inp (extAt s.cfg s.blk obl + 1)
  refine matchDone_of_tier (ln := 15) (.word (hword ▸ hv) (by omega)) hw hin ?_ hb hc
  exact fun
    | 0, _, h => he.trans (Option.some.inj h)
    | 1, _, h => Option.some.inj h
    | 2, _, h => Option.some.inj h
    | _ + 3, _, h => nomatch h

/-- Settles O31: the field is below `2^OBL`. -/
theorem offsetAssembly : Obligations.OffsetAssembly := by
  refine fun b obl => ⟨fun b' h => ?_, fun h => Block.offset_of_consume (Block.consume_zero h)⟩
  obtain ⟨hpos, hlt⟩ := Block.offset_moff h
  obtain ⟨b₁, -, rfl⟩ := Block.offset_ok_cases h
  have hfield : b.topBits obl.toNat < 2 ^ obl.toNat := Block.topBits_lt (by omega)
  refine ⟨congrArg (· + _) (b.topBits_eq_div _), Nat.le_add_left _ _, ?_, hpos, Nat.le_of_lt_succ hlt⟩
  rw [Nat.pow_succ, Nat.mul_two]
  exact Nat.add_lt_add_right hfield _

/-- Settles O32, by the outcomes of the two reads and of the check on the length word. -/
theorem lengthAssembly : Obligations.LengthAssembly := by
  intro b ln hp
  have short {n : Nat} (h : b.inLen < b.pos + n) : b.remaining < n := (Block.remaining_lt_iff hp).mpr h
  refine ⟨Block.length_short_form, fun hl => ⟨fun h => Block.length_noByte hl (short h),
    fun h hb => Block.length_x8 hl (Block.le_remaining h) hb, fun h hb => ⟨fun h3 => ?_, fun h3 hv => ?_, fun h3 hv => ?_⟩⟩⟩
  · exact Block.length_noWord hl (Block.le_remaining h) (short h3) hb
  · exact Block.length_badWord hl (Block.le_remaining h3) hb hv
  · rw [Nat.sub_add_cancel hv]
    exact Block.length_x16 hl (Block.le_remaining h3) hb hv

/-- Settles O33: where only one of the two reads moves the cursor, they commute up to what no observation shows. -/
theorem orderShowsOnlyOnARefill : Obligations.OrderShowsOnlyOnARefill := by
  intro s t f i obl ln hi ht hf
  obtain ⟨rfl, hl⟩ | ⟨rfl | rfl, he⟩ := hi <;> cases ht <;> cases hf
  · exact (Block.matchCommon_agree (.inl (by bv_omega))).observe
  · exact (Block.matchCommon_agree (.inr he)).observe
  · exact (Block.matchCommon_agree (.inr he)).observe

/-- Settles O34: each appended byte repeats the one a period before it. -/
theorem copyRepeatsThePattern : Obligations.CopyRepeatsThePattern := by
  intro b n hw h1 ho
  refine ⟨?_, fun i hi => Block.copy_read_pattern hw h1 ho hi, fun a ha => Block.copy_read_outside hw n a ha⟩
  obtain ⟨out, hcopy⟩ := b.copy_frame n
  rw [hcopy]

end Sys2Proof.Claims
end

section
/-! PROOFS. The control family (43_control.md): the commands (O36, O37), the states that wait (O41), the host's accesses (O47,
O55, O56), and the transitions of `STATE` (O40). -/

namespace Sys2Proof.Machine

variable {s t : State} {b b' : Block} {c : Config} {n : Nat} {m : HostMove} {rest : List HostMove}

/-! ### The classes of states -/

theorem ControlState.busy_eq_false_iff {c : ControlState} : c.busy = false ↔ c ≠ .setup ∧ c ≠ .decoding := by
  cases c <;> decide

theorem ControlState.not_busy_of_ended {c : ControlState} (h : c.ended = true) : c.busy = false := by
  revert h
  cases c <;> decide

/-! ### A step always answers, but for three moves of the host (R229) -/

theorem tokenStep_next (s : State) : ∃ t, tokenStep s = .next t := by
  cases hf : s.blk.fetchToken s.cfg with
  | ok i b => rw [tokenStep_fetched hf]; exact exec_next i _
  | raised b => exact ⟨_, tokenStep_truncated hf⟩

theorem blockStep_next (s : State) : ∃ t, blockStep s = .next t := by
  cases hs : s.blk.state with
  | idle => exact ⟨_, blockStep_idle hs⟩
  | setup => exact ⟨_, blockStep_setup hs⟩
  | decoding => rw [blockStep_decoding hs]; exact tokenStep_next s
  | done => exact ⟨_, blockStep_done hs⟩
  | failed => exact ⟨_, blockStep_failed hs⟩

theorem writeReg_next (r : HostReg) (v : Word) (s : State) : ∃ t, s.writeReg r v = .next t := by
  cases r with
  | ctrl =>
    cases hd : decodeCtrl v with
    | ok i => obtain ⟨t, ht⟩ := exec_next i s; exact ⟨t, (writeCtrl_command hd).trans ht⟩
    | error e => exact ⟨s, writeCtrl_none hd⟩
  | inLen => simp only [State.writeReg]; split <;> exact ⟨_, rfl⟩
  | status => exact ⟨_, rfl⟩
  | outLen => exact ⟨_, rfl⟩
  | inPos => exact ⟨_, rfl⟩
  | reserved k => exact ⟨_, rfl⟩

/-! ### Accesses to the windows (R229, R42) -/

theorem writeInWindow_outside {i : Nat} (v : Byte) (h : s.cfg.inMax ≤ i) :
    s.writeInWindow i v = .fault .outsideInWindow := by
  rw [State.writeInWindow, if_neg (Nat.not_lt.mpr h)]

theorem writeInWindow_busy {i : Nat} (v : Byte) (h : i < s.cfg.inMax) (hb : s.blk.state.busy = true) :
    s.writeInWindow i v = .refused .inputWriteWhileBusy := by
  rw [State.writeInWindow, if_pos h, if_pos hb]

theorem writeInWindow_writes {i : Nat} (v : Byte) (h : i < s.cfg.inMax) (hb : s.blk.state.busy = false) :
    s.writeInWindow i v = .next { s with blk := { s.blk with inp := s.blk.inp.write i v } } := by
  rw [State.writeInWindow, if_pos h, if_neg (by rw [hb]; nofun)]

/-- A write to `IN` that answers changes a byte of `IN` and no register. -/
theorem writeInWindow_state {i : Nat} {v : Byte} (h : s.writeInWindow i v = .next t) : t.blk.state = s.blk.state := by
  obtain hi | hi := Nat.lt_or_ge i s.cfg.inMax
  · cases hb : s.blk.state.busy with
    | true => rw [writeInWindow_busy v hi hb] at h; cases h
    | false => rw [writeInWindow_writes v hi hb] at h; cases h; rfl
  · rw [writeInWindow_outside v hi] at h; cases h

theorem hostStep_readIn {i : Nat} (h : i < s.cfg.inMax) :
    hostStep (.readIn i) s = .next (s.deliver ((s.blk.inp.read i).setWidth 32)) := if_pos h

theorem hostStep_readIn_outside {i : Nat} (h : s.cfg.inMax ≤ i) : hostStep (.readIn i) s = .fault .outsideInWindow :=
  if_neg (Nat.not_lt.mpr h)

theorem hostStep_writeOut {i : Nat} (v : Byte) (h : i < s.cfg.outMax) : hostStep (.writeOut i v) s = .next s := if_pos h

theorem hostStep_writeOut_outside {i : Nat} (v : Byte) (h : s.cfg.outMax ≤ i) :
    hostStep (.writeOut i v) s = .fault .outsideOutWindow := if_neg (Nat.not_lt.mpr h)

theorem hostStep_readOut {i : Nat} (h : i < s.cfg.outMax) :
    hostStep (.readOut i) s = .next (s.deliver ((s.readOutWindow i).setWidth 32)) := if_pos h

theorem hostStep_readOut_outside {i : Nat} (h : s.cfg.outMax ≤ i) : hostStep (.readOut i) s = .fault .outsideOutWindow :=
  if_neg (Nat.not_lt.mpr h)

/-- The 32-bit word a window read delivers is the number of its byte. -/
theorem byte_setWidth_toNat (v : Byte) : (v.setWidth 32).toNat = v.toNat := BitVec.toNat_setWidth_of_le (by decide)

theorem readOutWindow_ended {i : Nat} (hi : i < s.blk.olen) (h : s.blk.state.ended = true) :
    s.readOutWindow i = s.blk.out.read i :=
  if_pos ⟨ControlState.not_busy_of_ended h, hi⟩

/-! ### The transitions of `STATE` (R220) -/

/-- A START leaves `STATE` alone, or is accepted (R221). -/
theorem exec_start_state (h : exec .start s = .next t) :
    t.blk.state = s.blk.state ∨
      (s.blk.state.busy = false ∧ s.blk.inLen ≤ s.cfg.inMax ∧ t.blk.state = .setup) := by
  cases hb : s.blk.state.busy with
  | true => rw [exec_start_busy hb] at h; cases h; exact .inl rfl
  | false =>
    by_cases hl : s.blk.inLen ≤ s.cfg.inMax
    · rw [exec_start_accepted hb hl] at h; cases h; exact .inr ⟨rfl, hl, rfl⟩
    · rw [exec_start_refused hb (by omega)] at h; cases h; exact .inl rfl

theorem exec_reset_state (h : exec .reset s = .next t) : t.blk.state = .idle := by
  cases h; rfl

theorem SetupOutcome.state (h : SetupOutcome n b b') : b'.state = .decoding ∨ b'.state = .failed := by
  cases h with
  | noLengths => exact .inr rfl
  | noTable e he hr hfc => exact .inr rfl
  | noWords hk hp hp' => exact .inr rfl
  | primed hk hr => exact .inl rfl

/-- A TOKEN_STEP leaves `STATE` alone, ends the decode or fails. -/
theorem TokenOutcome.state (h : TokenOutcome c b b') :
    b'.state = b.state ∨ b'.state = .done ∨ b'.state = .failed := by
  have stays {r : Res Unit} (hr : r.StaysOrFails b) : r.block.state = b.state ∨ r.block.state = .done ∨
      r.block.state = .failed := hr.imp id .inr
  have symbol {r : Res Unit} (hs : b.decodeSymbol = r) : r.StaysOrFails b := hs ▸ b.decodeSymbol_staysOrFails
  have operands {b₁ : Block} {obl ln} {r : Res Unit} (hs : b.decodeSymbol = .ok () b₁)
      (ho : b₁.matchOperands c obl ln = r) : r.StaysOrFails b := by
    have both := (symbol hs).bind fun _ b' => b'.matchOperands_staysOrFails c obl ln
    rwa [Res.bind_ok, ho] at both
  cases h with
  | symbolRaised hs => exact stays (symbol hs)
  | appended v hs hc => exact stays (symbol hs)
  | literalOverflows hs => exact .inr (.inr rfl)
  | ended hs => exact .inr (.inl rfl)
  | operandsRaised hs ho => exact stays (operands hs ho)
  | checkRaised e hs ho he => exact .inr (.inr rfl)
  | @copied b₁ b₂ obl ln hs ho hc =>
    obtain ⟨out, hcopy⟩ := b₂.copy_frame b₂.mlen
    rw [hcopy]
    exact stays (operands hs ho)

/-- The transitions of a block step: it leaves `SETUP`, and it waits outside `SETUP` and `DECODING`. -/
theorem blockStep_state (h : blockStep s = .next t) :
    (t.blk.state = s.blk.state ∧ s.blk.state ≠ .setup) ∨
    (s.blk.state = .setup ∧ (t.blk.state = .decoding ∨ t.blk.state = .failed)) ∨
    (s.blk.state = .decoding ∧ (t.blk.state = .done ∨ t.blk.state = .failed)) := by
  cases hs : s.blk.state with
  | idle => rw [blockStep_idle hs] at h; cases h; exact .inl ⟨hs, nofun⟩
  | setup =>
    rw [blockStep_setup hs] at h; cases h
    exact .inr (.inl ⟨rfl, (s.blk.setup_outcome s.draw).state⟩)
  | decoding =>
    rw [blockStep_decoding hs] at h
    obtain ⟨b, rfl, ho⟩ := tokenStep_cases h
    obtain hstay | hend := ho.state
    · exact .inl ⟨hstay.trans hs, nofun⟩
    · exact .inr (.inr ⟨rfl, hend⟩)
  | done => rw [blockStep_done hs] at h; cases h; exact .inl ⟨hs, nofun⟩
  | failed => rw [blockStep_failed hs] at h; cases h; exact .inl ⟨hs, nofun⟩

/-- Of the host's moves only the run of the block, a `CTRL` write and the reset input can change `STATE`. -/
theorem hostStep_state (h : hostStep m s = .next t) :
    t.blk.state = s.blk.state ∨ m = .run ∨ (∃ v, m = .writeReg .ctrl v) ∨ m = .assertReset := by
  cases m with
  | run => exact .inr (.inl rfl)
  | writeReg r v =>
    cases r with
    | ctrl => exact .inr (.inr (.inl ⟨v, rfl⟩))
    | inLen => simp only [hostStep, State.writeReg] at h; split at h <;> cases h <;> exact .inl rfl
    | status => cases h; exact .inl rfl
    | outLen => cases h; exact .inl rfl
    | inPos => cases h; exact .inl rfl
    | reserved k => cases h; exact .inl rfl
  | readReg r => cases h; exact .inl rfl
  | writeIn i v => exact .inl (writeInWindow_state h)
  | readIn i => simp only [hostStep] at h; split at h <;> cases h; exact .inl rfl
  | writeOut i v => simp only [hostStep] at h; split at h <;> cases h; exact .inl rfl
  | readOut i => simp only [hostStep] at h; split at h <;> cases h; exact .inl rfl
  | assertReset => exact .inr (.inr (.inr rfl))

/-- A RESET that comes next is run on the state whose move is taken (R222). -/
theorem step_of_resetComes (h : Claims.ResetComes s) : ∃ rest, step s = exec .reset { s with host := rest } := by
  obtain ⟨v, rest, hh, hv⟩ | ⟨rest, hh⟩ := h
  · exact ⟨rest, (step_move hh).trans (writeCtrl_command (decodeCtrl_reset hv))⟩
  · exact ⟨rest, step_move hh⟩

/-- So is a START that comes next (R221). -/
theorem step_of_startComes (h : Claims.StartComes s) : ∃ rest, step s = exec .start { s with host := rest } := by
  obtain ⟨v, rest, hh, h1, h0⟩ := h
  exact ⟨rest, (step_move hh).trans (writeCtrl_command (decodeCtrl_start h1 h0))⟩

/-- A step that changes `STATE` is a RESET, a START or a step of the block. -/
theorem step_state (h : step s = .next t) :
    t.blk.state = s.blk.state ∨ Claims.ResetComes s ∨ Claims.StartComes s ∨ ∃ rest, Claims.BlockRuns s rest := by
  cases hh : s.host with
  | nil => exact .inr (.inr (.inr ⟨[], .inl ⟨hh, rfl⟩⟩))
  | cons m rest =>
    rw [step_move hh] at h
    obtain hsame | rfl | ⟨v, rfl⟩ | rfl := hostStep_state h
    · exact .inl hsame
    · exact .inr (.inr (.inr ⟨rest, .inr hh⟩))
    · cases h1 : v.getLsbD 1 with
      | true => exact .inr (.inl (.inl ⟨v, rest, hh, h1⟩))
      | false =>
        cases h0 : v.getLsbD 0 with
        | true => exact .inr (.inr (.inl ⟨v, rest, hh, h1, h0⟩))
        | false =>
          have hnone : step s = .next { s with host := rest } := (step_move hh).trans (writeCtrl_none (decodeCtrl_none h1 h0))
          rw [step_move hh, h] at hnone
          cases hnone
          exact .inl rfl
    · exact .inr (.inl (.inr ⟨rest, hh⟩))

end Sys2Proof.Machine

namespace Sys2Proof.Claims

open Sys2Proof.Machine

/-- Settles O36, by the three outcomes of START. -/
theorem startBeginsADecode : Obligations.StartBeginsADecode := by
  refine fun s => ⟨fun hs => exec_start_busy ?_, fun hs hl => exec_start_refused (ControlState.busy_eq_false_iff.mpr hs) hl,
    fun hs hl => exec_start_accepted (ControlState.busy_eq_false_iff.mpr hs) hl⟩
  rw [ControlState.busy_iff, decide_eq_true hs]

/-- Settles O37: RESET puts `Block.reset` in place, and the reset input is the same instruction. -/
theorem resetReturnsToIdle : Obligations.ResetReturnsToIdle :=
  fun _ => ⟨_, rfl, rfl, rfl, rfl, rfl, rfl, rfl, rfl, rfl, rfl, fun _ hh => step_move hh⟩

/-- Settles O41, by the three states that wait. -/
theorem terminalStatesWait : Obligations.TerminalStatesWait := by
  intro s rest hr hs
  rw [step_of_blockRuns hr]
  obtain hs | hs | hs := hs
  · exact blockStep_done hs
  · exact blockStep_failed hs
  · exact blockStep_idle hs

/-- Settles O47: the only answers that are no next state are those of the window accesses. -/
theorem onlyTheHostCanStopTheModel : Obligations.OnlyTheHostCanStopTheModel := by
  intro s
  cases hh : s.host with
  | nil => rw [step_no_move hh]; exact .inl (blockStep_next s)
  | cons m rest =>
    rw [step_move hh]
    cases m with
    | run => exact .inl (blockStep_next _)
    | writeReg r v => exact .inl (writeReg_next r v _)
    | readReg r => exact .inl ⟨_, rfl⟩
    | writeIn i v =>
      obtain hi | hi := Nat.lt_or_ge i s.cfg.inMax
      · cases hb : s.blk.state.busy with
        | true => exact .inr (.inr (.inr (.inr (.inr ⟨i, v, rest, rfl, rfl, writeInWindow_busy v hi hb⟩))))
        | false => exact .inl ⟨_, writeInWindow_writes v hi hb⟩
      · exact .inr (.inl ⟨i, v, rest, rfl, hi, writeInWindow_outside v hi⟩)
    | readIn i =>
      obtain hi | hi := Nat.lt_or_ge i s.cfg.inMax
      · exact .inl ⟨_, hostStep_readIn hi⟩
      · exact .inr (.inr (.inl ⟨i, rest, rfl, hi, hostStep_readIn_outside hi⟩))
    | writeOut i v =>
      obtain hi | hi := Nat.lt_or_ge i s.cfg.outMax
      · exact .inl ⟨_, hostStep_writeOut v hi⟩
      · exact .inr (.inr (.inr (.inl ⟨i, v, rest, rfl, hi, hostStep_writeOut_outside v hi⟩)))
    | readOut i =>
      obtain hi | hi := Nat.lt_or_ge i s.cfg.outMax
      · exact .inl ⟨_, hostStep_readOut hi⟩
      · exact .inr (.inr (.inr (.inr (.inl ⟨i, rest, rfl, hi, hostStep_readOut_outside hi⟩))))
    | assertReset => exact .inl ⟨_, rfl⟩

/-- Settles O55: `IN_LEN` and START look at `BUSY` first, and so does a write to `IN`. -/
theorem hostWritesWhileBusy : Obligations.HostWritesWhileBusy := by
  intro s rest hb
  refine ⟨fun v hh => ?_, fun v hh h1 => ?_, fun i v hh hi => ?_⟩
  · rw [step_writeReg hh]
    exact if_pos hb
  · rw [step_writeReg hh]
    cases h0 : v.getLsbD 0 with
    | true => exact (writeCtrl_command (decodeCtrl_start h1 h0)).trans (exec_start_busy hb)
    | false => exact writeCtrl_none (decodeCtrl_none h1 h0)
  · rw [step_move hh]
    exact writeInWindow_busy v hi hb

/-- Settles O56: each access is one of the window moves, at an index inside. -/
theorem hostWindows : Obligations.HostWindows := by
  intro s i rest hw
  refine ⟨fun v hh hi hb => ?_, fun hh hi => ?_, fun v hh hi => ?_, fun hh hi => ?_⟩
  · rw [step_move hh]
    exact ⟨_, writeInWindow_writes v hi hb, rfl, Memory.read_write hw i v⟩
  · rw [step_move hh]
    exact ⟨_, hostStep_readIn hi, rfl, rfl, byte_setWidth_toNat _⟩
  · rw [step_move hh]
    exact hostStep_writeOut v hi
  · rw [step_move hh]
    refine ⟨_, hostStep_readOut hi, rfl, rfl, fun ho he => ?_⟩
    rw [State.deliver_rdata, byte_setWidth_toNat, readOutWindow_ended (s := { s with host := rest }) ho he]

/-- Settles O40: only a RESET, a START and a step of the block change `STATE`, and each has its own transitions. -/
theorem controlTransitions : Obligations.ControlTransitions := by
  intro s t h
  have reset (hr : ResetComes s) : t.blk.state = .idle := by
    obtain ⟨rest, hr⟩ := step_of_resetComes hr
    exact exec_reset_state (hr ▸ h)
  refine ⟨?_, reset, fun ⟨rest, hr⟩ => ?_⟩
  · obtain hsame | hr | hstart | ⟨rest, hr⟩ := step_state h
    · exact .inl hsame
    · exact .inr (.inl ⟨hr, reset hr⟩)
    · obtain ⟨rest, hs⟩ := step_of_startComes hstart
      obtain hsame | ⟨hb, hl, ht⟩ := exec_start_state (hs ▸ h)
      · exact .inl hsame
      · obtain ⟨hns, hnd⟩ := ControlState.busy_eq_false_iff.mp hb
        exact .inr (.inr (.inl ⟨hstart, hns, hnd, hl, ht⟩))
    · obtain ⟨hsame, -⟩ | ⟨hs, ht⟩ | ⟨hs, ht⟩ := blockStep_state (step_of_blockRuns hr ▸ h)
      · exact .inl hsame
      · exact .inr (.inr (.inr (.inl ⟨⟨rest, hr⟩, hs, ht⟩)))
      · exact .inr (.inr (.inr (.inr ⟨⟨rest, hr⟩, hs, ht⟩)))
  · obtain ⟨hsame, hns⟩ | ⟨-, ht | ht⟩ | ⟨-, ht | ht⟩ := blockStep_state (step_of_blockRuns hr ▸ h)
    · rwa [hsame]
    all_goals rw [ht]; nofun

end Sys2Proof.Claims
end

section
/-! PROOFS. The outcome of SETUP by input length and Kraft sum (O39), and the shortest input that decodes (O59). -/

namespace Sys2Proof.Machine

variable {s t : State} {b b' : Block} {lt : Memory} {n draw : Nat}

/-! ### The code lengths SETUP loads (R151) -/

theorem lenOf_slice (m : Memory) {u : Nat} (hu : u < nsym) : lenOf (m.slice 0 256) u = lenOf m u := by
  have hbyte : u / 2 < 256 := Nat.div_lt_of_lt_mul hu
  rw [lenOf_eq, lenOf_eq, Memory.read_slice, if_pos hbyte, Nat.zero_add]

theorem kraft_congr {lt lt' : Memory} (h : ∀ u, u < nsym → lenOf lt u = lenOf lt' u) :
    Claims.kraft lt = Claims.kraft lt' := by
  rw [Claims.kraft, Claims.kraft]
  exact congrArg List.sum (List.map_congr_left fun u hu => by rw [h u (List.mem_range.mp hu)])

theorem kraft_slice (m : Memory) : Claims.kraft (m.slice 0 256) = Claims.kraft m := kraft_congr fun _ => lenOf_slice m

/-! ### BUILD_TABLE, by the Kraft sum (R157) -/

theorem Block.buildTable_complete (hk : Claims.kraft b.lentab = 32768) :
    b.buildTable draw = .ok () { b with fc := 32768, dectab := builtTable b.lentab } := by
  obtain ⟨-, hb⟩ | ⟨hlt, -⟩ | ⟨hlt, -⟩ := b.buildTable_kraft_cases draw
  · exact hb
  · omega
  · omega

theorem Block.buildTable_incomplete (hk : Claims.kraft b.lentab < 32768) : ∃ fc,
    b.buildTable draw = .raised ({ b with fc := fc, dectab := DecTab.free draw }.fail .huffmanTableUnderflow) := by
  obtain ⟨heq, -⟩ | ⟨-, fc, -, hb⟩ | ⟨hlt, -⟩ := b.buildTable_kraft_cases draw
  · omega
  · exact ⟨fc, hb⟩
  · omega

theorem Block.buildTable_oversubscribed (hk : 32768 < Claims.kraft b.lentab) : ∃ fc,
    b.buildTable draw = .raised ({ b with fc := fc, dectab := DecTab.free draw }.fail .invalidHuffmanTable) := by
  obtain ⟨heq, -⟩ | ⟨hlt, -⟩ | ⟨-, fc, -, hb⟩ := b.buildTable_kraft_cases draw
  · omega
  · omega
  · exact ⟨fc, hb⟩

/-! ### SETUP, by what its three parts answer (R223) -/

/-- The block LOAD_LENTAB leaves. -/
def Block.lengthsLoaded (b : Block) : Block := { b with pos := b.pos + 256, lentab := b.inp.slice b.pos 256 }

/-- The block a BUILD_TABLE over those lengths leaves when the code is complete. -/
def Block.tableBuilt (b : Block) : Block :=
  { b.lengthsLoaded with fc := 32768, dectab := builtTable b.lengthsLoaded.lentab }

@[simp] theorem Block.tableBuilt_pos (b : Block) : b.tableBuilt.pos = b.pos + 256 := rfl

theorem Block.setup_noLengths (h : b.remaining < 256) : b.setup draw = .raised (b.fail .truncatedInput) := by
  rw [Block.setup, Block.loadLentab_short h]; rfl

theorem Block.setup_loaded (h : 256 ≤ b.remaining) :
    b.setup draw = (b.lengthsLoaded.buildTable draw).bind fun _ b =>
      b.prime.bind fun _ b => .ok () { b with state := .decoding } := by
  rw [Block.setup, Block.loadLentab_ok h, Res.bind_ok, Block.lengthsLoaded]

theorem Block.setup_noTable (h : 256 ≤ b.remaining) (hb : b.lengthsLoaded.buildTable draw = .raised b') :
    b.setup draw = .raised b' := by
  rw [Block.setup_loaded h, hb]; rfl

theorem Block.setup_built (h : 256 ≤ b.remaining) (hk : Claims.kraft b.lengthsLoaded.lentab = 32768) :
    b.setup draw = b.tableBuilt.prime.bind fun _ b => .ok () { b with state := .decoding } := by
  rw [Block.setup_loaded h, Block.buildTable_complete hk, Res.bind_ok, Block.tableBuilt]

/-- SETUP over an input it reads from its first byte on. -/
theorem Block.kraft_lengthsLoaded (hp : b.pos = 0) : Claims.kraft b.lengthsLoaded.lentab = Claims.kraft b.inp := by
  show Claims.kraft (b.inp.slice b.pos 256) = _
  rw [hp, kraft_slice]

theorem SetupOutcome.keepsOutput (h : SetupOutcome n b b') : b'.olen = b.olen ∧ b'.out = b.out := by
  cases h with
  | noLengths => exact ⟨rfl, rfl⟩
  | noTable e he hr hfc => exact ⟨rfl, rfl⟩
  | noWords hk hp hp' => exact ⟨rfl, rfl⟩
  | primed hk hr => exact ⟨rfl, rfl⟩

/-- With less than 260 bytes left SETUP fails, whatever the lengths are (R224). -/
theorem SetupOutcome.failed (h : SetupOutcome n b b') (hl : b.inLen < b.pos + 260) : b'.state = .failed := by
  cases h with
  | noLengths => rfl
  | noTable e he hr hfc => rfl
  | noWords hk hp hp' => rfl
  | primed hk hr => omega

/-! ### A run that has failed (R227) -/

/-- A run of one step more begins with that step. -/
theorem run_succ {M : Host.Core} {s t : M.State} (h : M.step s = .next t) (n : Nat) : M.run (n + 1) s = M.run n t := by
  rw [Host.Core.run, h]

/-- A failed block that the host leaves alone stays as it is. -/
theorem run_failed (hh : s.host = []) (hs : s.blk.state = .failed) (n : Nat) : core.run n s = .next s := by
  induction n with
  | zero => rfl
  | succ n ih => exact (run_succ (M := core) ((step_no_move hh).trans (blockStep_failed hs)) n).trans ih

end Sys2Proof.Machine

namespace Sys2Proof.Claims

open Sys2Proof.Machine

/-- Settles O39: each clause is the outcome of the first check of SETUP that fails, the last of a SETUP in which none does. -/
theorem inputLengthClasses : Obligations.InputLengthClasses := by
  intro s hh hs hp k
  have hrem : s.blk.remaining = s.blk.inLen := by rw [Block.remaining, hp, Nat.sub_zero]
  have hrem' : s.blk.tableBuilt.remaining = s.blk.inLen - 256 := by
    show s.blk.inLen - (s.blk.pos + 256) = _
    rw [hp]
  have hk : kraft s.blk.lengthsLoaded.lentab = k := Block.kraft_lengthsLoaded hp
  have outcome := s.blk.setup_outcome s.draw
  refine ⟨setupStep s, (step_no_move hh).trans (blockStep_setup hs), outcome.keepsOutput.1, outcome.keepsOutput.2,
    outcome.keepsInput.inp, outcome.keepsInput.inLen, ?_, ?_, ?_, ?_, ?_, ?_⟩ <;> rw [setupStep_blk]
  · intro hl
    rw [Block.setup_noLengths (by omega)]
    exact ⟨rfl, rfl, hp⟩
  · intro hl hk'
    obtain ⟨fc, hb⟩ := Block.buildTable_oversubscribed (b := s.blk.lengthsLoaded) (draw := s.draw) (hk ▸ hk')
    rw [Block.setup_noTable (by omega) hb]
    exact ⟨rfl, rfl, congrArg (· + 256) hp⟩
  · intro hl hk'
    obtain ⟨fc, hb⟩ := Block.buildTable_incomplete (b := s.blk.lengthsLoaded) (draw := s.draw) (hk ▸ hk')
    rw [Block.setup_noTable (by omega) hb]
    exact ⟨rfl, rfl, congrArg (· + 256) hp⟩
  · intro hl hl' hk'
    rw [Block.setup_built (by omega) (hk.trans hk'), Block.prime_short_first (by omega)]
    exact ⟨rfl, rfl, congrArg (· + 256) hp⟩
  · intro hl hl' hk'
    rw [Block.setup_built (by omega) (hk.trans hk'), Block.prime_short_second (by omega) (by omega)]
    exact ⟨rfl, rfl, congrArg (· + 256 + 2) hp⟩
  · intro hl hk'
    rw [Block.setup_built (by omega) (hk.trans hk'), Block.prime_ok (by omega)]
    refine ⟨rfl, rfl, congrArg (· + 256 + 4) hp, rfl, ?_, rfl, fun u hu => ?_⟩
    · show s.blk.tableBuilt.primed.br = _
      rw [Block.primed, Block.tableBuilt_pos, hp]; rfl
    · show lenOf (s.blk.inp.slice s.blk.pos 256) u = _
      rw [hp]
      exact lenOf_slice _ hu

/-- Settles O59: below 260 bytes SETUP fails (O39), and at 260 bytes an EOB is decoded from the bits PRIME loaded, with no byte
left (O25). -/
theorem shortestInputThatDecodes : Obligations.ShortestInputThatDecodes := by
  intro s hh hs hp ho
  have hstep : step s = .next (setupStep s) := (step_no_move hh).trans (blockStep_setup hs)
  refine ⟨fun hl n t hrun => ?_, fun hl hk => ?_⟩
  · cases n with
    | zero => cases hrun; rw [hs]; nofun
    | succ n =>
      have hfail : (setupStep s).blk.state = .failed := (s.blk.setup_outcome s.draw).failed (by omega)
      rw [run_succ (M := core) hstep] at hrun
      cases hrun.symm.trans (run_failed (s := setupStep s) hh hfail n)
      rw [hfail]; nofun
  · obtain ⟨u, hu, holen, hout, -, hinLen, -, -, -, -, -, decodes⟩ := inputLengthClasses s hh hs hp
    obtain ⟨hd, -, hpos, hextra, -⟩ := decodes (by omega) hk
    refine ⟨u, hu, hd, fun hsym => ?_⟩
    have huhost : u.host = [] := by
      obtain ⟨-, h⟩ := parametersAreFixed s u hu
      rw [h, hh, List.tail_nil]
    have hnext : u.blk.nextSym = 256#9 := BitVec.eq_of_toNat_eq (by rw [Block.nextSym, BitVec.toNat_setWidth, hsym]; rfl)
    have hlen := lenOf_lt u.blk.lentab u.blk.nextSym.toNat
    have hsymbol := u.blk.decodeSymbol_eq
    rw [Block.consume_within (by show _ ≤ u.blk.extra; omega)] at hsymbol
    obtain ⟨-, eob⟩ := endMarkerEndsTheDecode
    have hrem : u.blk.inLen - u.blk.pos = 0 := by omega
    exact ⟨_, eob u _ huhost hd hsymbol hnext hrem, rfl, holen.trans ho, hpos, hout⟩

end Sys2Proof.Claims
end

section
/-! PROOFS. Every run ends (O50): each step that is no access of the host uses up at least one bit of the input (R231). -/

namespace Sys2Proof.Machine

variable {s t : State} {b b' : Block} {c : Config} {n k : Nat} {obl ln : BitVec 4} {m : HostMove} {rest : List HostMove}

/-! ### A token uses up at least one bit (R231) -/

/-- The input bits that are not used up yet, less the 16 that `BR` always holds: those not yet loaded, and `EXTRA`. -/
def Block.bitsLeft (b : Block) : Nat := 8 * b.remaining + b.extra.toNat

/-- The operation uses up at least `k` bits of the input, with no count left below 0, or it has raised. -/
def Res.Spends {α : Type} (k : Nat) (b : Block) : Res α → Prop
  | .ok _ b' => 0 ≤ b'.extra ∧ b'.bitsLeft + k ≤ b.bitsLeft
  | .raised b' => b'.state = .failed

theorem Res.Spends.mono {α : Type} {r : Res α} (h : r.Spends k b) (hn : n ≤ k) : r.Spends n b := by
  cases r with
  | ok a b' => exact ⟨h.1, Nat.le_trans (Nat.add_le_add_left hn _) h.2⟩
  | raised b' => exact h

theorem Res.Spends.bind {α β : Type} {r : Res α} {f : α → Block → Res β} (h : r.Spends k b)
    (hf : ∀ a b', 0 ≤ b'.extra → (f a b').Spends 0 b') : (r.bind f).Spends k b := by
  cases r with
  | raised b' => exact h
  | ok a b' =>
    obtain ⟨hx, hk⟩ := h
    have h₂ := hf a b' hx
    rw [Res.bind_ok]
    generalize f a b' = q at h₂ ⊢
    cases q with
    | raised b'' => exact h₂
    | ok a' b'' => exact ⟨h₂.1, Nat.le_trans (Nat.add_le_add_right h₂.2 k) hk⟩

/-- CONSUME of `n` bits: a refill moves 16 bits from the input to `EXTRA`. -/
theorem Block.consume_spends (hx : 0 ≤ b.extra) (hn : n ≤ 15) : (b.consume n).Spends n b := by
  cases h : b.consume n with
  | ok u b' =>
    obtain ⟨he, rfl⟩ | ⟨he, hr, rfl⟩ := Block.consume_ok_cases h
    · have hk : (b.shiftOut n).bitsLeft = 8 * b.remaining + (b.extra - n).toNat := rfl
      refine ⟨?_, ?_⟩
      · rw [Block.shiftOut_extra]; omega
      · rw [hk, Block.bitsLeft]; omega
    · have hx' : (b.consumed n).extra = b.extra - n + 16 := rfl
      have hr' : (b.consumed n).remaining = b.remaining - 2 := Nat.sub_add_eq _ _ _
      refine ⟨?_, ?_⟩
      · rw [hx']; omega
      · rw [Block.bitsLeft, Block.bitsLeft, hx', hr']; omega
  | raised b' => obtain ⟨-, -, rfl⟩ := Block.consume_raised_cases h; rfl

theorem Block.offset_spends (obl : BitVec 4) (hx : 0 ≤ b.extra) : (b.offset obl).Spends 0 b := by
  refine Res.Spends.bind ?_ fun _ _ hx => ⟨hx, Nat.le_refl _⟩
  exact ((Block.consume_spends hx (by omega)).mono (Nat.zero_le _)).bind fun _ _ hx => ⟨hx, Nat.le_refl _⟩

theorem Block.length_spends (ln : BitVec 4) (hx : 0 ≤ b.extra) : (b.length ln).Spends 0 b := by
  cases h : b.length ln with
  | ok u b' =>
    have hle : b'.extra = b.extra ∧ b'.remaining ≤ b.remaining := by
      obtain ⟨-, rfl⟩ | ⟨-, -, -, rfl⟩ | ⟨-, -, -, -, rfl⟩ := Block.length_ok_cases h
      · exact ⟨rfl, Nat.le_refl _⟩
      · exact ⟨rfl, Nat.sub_le_sub_left (Nat.le_add_right _ _) _⟩
      · exact ⟨rfl, Nat.sub_le_sub_left (Nat.le_add_right _ _) _⟩
    obtain ⟨he, hr⟩ := hle
    refine ⟨he ▸ hx, ?_⟩
    rw [Block.bitsLeft, Block.bitsLeft, he]
    omega
  | raised b' => obtain ⟨-, ⟨-, rfl⟩ | ⟨-, -, -, rfl⟩ | ⟨-, -, -, rfl⟩⟩ := Block.length_raised_cases h <;> rfl

theorem Block.matchOperands_spends (c : Config) (obl ln : BitVec 4) (hx : 0 ≤ b.extra) :
    (b.matchOperands c obl ln).Spends 0 b := by
  rw [Block.matchOperands]
  split
  · exact (b.length_spends ln hx).bind fun _ _ hx => Block.offset_spends obl hx
  · exact (b.offset_spends obl hx).bind fun _ _ hx => Block.length_spends ln hx

/-- What the count of the token steps rests on while decoding: `EXTRA` is not below 0, and every entry of `DECTAB` is a symbol
with a code of at least one bit (R50 (a), (e)). -/
structure Block.Counted (b : Block) : Prop where
  extra : 0 ≤ b.extra
  entries : ∀ i, i < tsize → (b.dectab.read i).toNat < nsym ∧ 1 ≤ lenOf b.lentab (b.dectab.read i).toNat

/-- DECODE_SYMBOL of a counted block uses up the code of its symbol, so at least one bit. -/
theorem Block.Counted.decodeSymbol_spends (h : b.Counted) : b.decodeSymbol.Spends 1 b := by
  obtain ⟨hsym, hlen⟩ := h.entries b.peek15 b.peek15_lt
  have hnext : b.nextSym.toNat = (b.dectab.read b.peek15).toNat := by
    rw [Block.nextSym, BitVec.toNat_setWidth, Nat.mod_eq_of_lt hsym]
  rw [← hnext] at hlen
  have hlen' := lenOf_lt b.lentab b.nextSym.toNat
  rw [Block.decodeSymbol_eq]
  exact (Block.consume_spends (b := { b with sym := b.nextSym }) h.extra (Nat.le_of_lt_succ hlen')).mono hlen

/-- A token that leaves the block decoding has used up at least one bit. -/
theorem TokenOutcome.spent (ho : TokenOutcome c b b') (h : b.Counted) (hd : b'.state = .decoding) :
    0 ≤ b'.extra ∧ b'.bitsLeft < b.bitsLeft := by
  have symbol {r : Res Unit} (hs : b.decodeSymbol = r) : r.Spends 1 b := hs ▸ h.decodeSymbol_spends
  have operands {b₁ : Block} {obl ln} {r : Res Unit} (hs : b.decodeSymbol = .ok () b₁)
      (ho : b₁.matchOperands c obl ln = r) : r.Spends 1 b := by
    have both := (symbol hs).bind fun _ b' hx => b'.matchOperands_spends c obl ln hx
    rwa [Res.bind_ok, ho] at both
  cases ho with
  | symbolRaised hs => cases (symbol hs).symm.trans hd
  | appended v hs hc => exact symbol hs
  | literalOverflows hs => cases hd
  | ended hs => cases hd
  | operandsRaised hs ho => cases (operands hs ho).symm.trans hd
  | checkRaised e hs ho he => cases hd
  | @copied b₁ b₂ obl ln hs ho hc =>
    obtain ⟨out, hcopy⟩ := b₂.copy_frame b₂.mlen
    rw [hcopy]
    exact operands hs ho

/-- A token appends at most 65538 bytes, the longest match there is (R185). -/
theorem TokenOutcome.olen_le (h : TokenOutcome c b b') : b'.olen ≤ b.olen + 65538 := by
  have symbol {r : Res Unit} (hs : b.decodeSymbol = r) : r.block.olen = b.olen := hs ▸ b.decodeSymbol_keeps_output.2
  have operands {b₁ : Block} {obl ln} {r : Res Unit} (hs : b.decodeSymbol = .ok () b₁)
      (ho : b₁.matchOperands c obl ln = r) : r.block.olen = b.olen :=
    ho ▸ (b₁.matchOperands_keeps_output c obl ln).2.trans (symbol hs)
  cases h with
  | symbolRaised hs => exact (symbol hs).le.trans (Nat.le_add_right _ _)
  | appended v hs hc => exact Nat.add_le_add (symbol hs).le (by decide)
  | literalOverflows hs => exact (symbol hs).le.trans (Nat.le_add_right _ _)
  | ended hs => exact (symbol hs).le.trans (Nat.le_add_right _ _)
  | operandsRaised hs ho => exact (operands hs ho).le.trans (Nat.le_add_right _ _)
  | checkRaised e hs ho he => exact (operands hs ho).le.trans (Nat.le_add_right _ _)
  | copied hs ho hc =>
    rw [Block.copy_olen]
    exact Nat.add_le_add (operands hs ho).le (Block.matchOperands_ok ho).2

/-! ### What a running decode still has before it -/

/-- The steps of the block a decode still has before it, at most (R231): in `SETUP` that step and a token for each bit behind
the code lengths, in `DECODING` a token for each bit that is left; and one more token, which ends the decode. -/
def Block.stepsLeft (b : Block) : Nat :=
  match b.state with
  | .setup => 8 * (b.inLen - 256) + 2
  | .decoding => b.bitsLeft + 1
  | .idle | .done | .failed => 0

theorem Block.stepsLeft_setup (h : b.state = .setup) : b.stepsLeft = 8 * (b.inLen - 256) + 2 := by
  rw [Block.stepsLeft, h]

theorem Block.stepsLeft_decoding (h : b.state = .decoding) : b.stepsLeft = b.bitsLeft + 1 := by
  rw [Block.stepsLeft, h]

theorem Block.stepsLeft_done (h : b.state = .done) : b.stepsLeft = 0 := by
  rw [Block.stepsLeft, h]

theorem Block.stepsLeft_failed (h : b.state = .failed) : b.stepsLeft = 0 := by
  rw [Block.stepsLeft, h]

/-- A decode is under way or has ended: SETUP reads the input from its start, and the tokens are counted. -/
structure Block.Launched (b : Block) : Prop where
  notIdle : b.state ≠ .idle
  setupStart : b.state = .setup → b.pos = 0
  counted : b.state = .decoding → b.Counted

theorem Block.Launched.of_done (h : b.state = .done) : b.Launched := by
  constructor <;> rw [h] <;> nofun

theorem Block.Launched.of_failed (h : b.state = .failed) : b.Launched := by
  constructor <;> rw [h] <;> nofun

theorem Block.Launched.of_decoding (h : b.state = .decoding) (hc : b.Counted) : b.Launched := by
  refine ⟨?_, ?_, fun _ => hc⟩ <;> rw [h] <;> nofun

theorem Block.Launched.busy (h : b.Launched) (he : b.state.ended = false) : b.state.busy = true := by
  cases hs : b.state with
  | idle => exact absurd hs h.notIdle
  | setup => rfl
  | decoding => rfl
  | done => rw [hs] at he; cases he
  | failed => rw [hs] at he; cases he

/-- SETUP that completes leaves a token step for each of the 8*(INLEN - 260) bits behind PRIME and the 16 in `EXTRA`. -/
theorem SetupOutcome.launched (ho : SetupOutcome n b b') (hp : b.pos = 0) :
    b'.Launched ∧ b'.stepsLeft < 8 * (b.inLen - 256) + 2 := by
  obtain hd | hf := ho.state
  · cases ho with
    | noLengths => cases hd
    | noTable e he hr hfc => cases hd
    | noWords hk hp hp' => cases hd
    | @primed br hk hr =>
      refine ⟨.of_decoding rfl ⟨(by decide : (0 : Int) ≤ 16), fun i hi => ?_⟩, ?_⟩
      · obtain ⟨hsym, hlen, -⟩ := builtTable_entries hk hi
        exact ⟨hsym, hlen⟩
      · rw [Block.stepsLeft_decoding rfl]
        show 8 * (b.inLen - (b.pos + 260)) + 16 + 1 < _
        omega
  · exact ⟨.of_failed hf, by rw [Block.stepsLeft_failed hf]; exact Nat.succ_pos _⟩

theorem TokenOutcome.launched (ho : TokenOutcome c b b') (hd : b.state = .decoding) (h : b.Counted) :
    b'.Launched ∧ b'.stepsLeft < b.bitsLeft + 1 := by
  obtain hd' | hend | hf := ho.state
  · rw [hd] at hd'
    obtain ⟨hx, hlt⟩ := ho.spent h hd'
    obtain ⟨-, hlentab, hdectab, -⟩ := ho.keepsTables
    refine ⟨.of_decoding hd' ⟨hx, ?_⟩, ?_⟩
    · rw [hlentab, hdectab]; exact h.entries
    · rw [Block.stepsLeft_decoding hd']; exact Nat.succ_lt_succ hlt
  · exact ⟨.of_done hend, by rw [Block.stepsLeft_done hend]; exact Nat.succ_pos _⟩
  · exact ⟨.of_failed hf, by rw [Block.stepsLeft_failed hf]; exact Nat.succ_pos _⟩

/-- A step of a block that has not ended uses up at least one of the steps left. -/
theorem blockStep_launched (hl : s.blk.Launched) (he : s.blk.state.ended = false) (h : blockStep s = .next t) :
    t.blk.Launched ∧ t.blk.stepsLeft < s.blk.stepsLeft := by
  cases hs : s.blk.state with
  | idle => exact absurd hs hl.notIdle
  | setup =>
    rw [blockStep_setup hs] at h; cases h
    rw [Block.stepsLeft_setup hs]
    exact (s.blk.setup_outcome s.draw).launched (hl.setupStart hs)
  | decoding =>
    rw [blockStep_decoding hs] at h
    obtain ⟨b, rfl, ho⟩ := tokenStep_cases h
    rw [Block.stepsLeft_decoding hs]
    exact ho.launched hs (hl.counted hs)
  | done => rw [hs] at he; cases he
  | failed => rw [hs] at he; cases he

/-! ### The host's accesses in between (R229, R230) -/

/-- A move that leaves a decode alone is a run of the block, or an access that answers and changes nothing of it. -/
theorem hostStep_leavesDecodeAlone (hm : Claims.LeavesDecodeAlone s.cfg m) (hb : s.blk.state.busy = true) (hr : m ≠ .run) :
    ∃ t, hostStep m s = .next t ∧ t.blk = s.blk := by
  cases m with
  | run => exact absurd rfl hr
  | writeReg r v =>
    obtain ⟨rfl, h1⟩ := hm
    cases h0 : v.getLsbD 0 with
    | true => exact ⟨s, (writeCtrl_command (decodeCtrl_start h1 h0)).trans (exec_start_busy hb), rfl⟩
    | false => exact ⟨s, writeCtrl_none (decodeCtrl_none h1 h0), rfl⟩
  | readReg r => exact ⟨_, rfl, rfl⟩
  | writeIn i v => cases hm
  | readIn i => exact ⟨_, hostStep_readIn hm, rfl⟩
  | writeOut i v => cases hm
  | readOut i => exact ⟨_, hostStep_readOut hm, rfl⟩
  | assertReset => cases hm

theorem accesses_run (rest : List HostMove) : Claims.accesses (.run :: rest) = Claims.accesses rest := by
  rw [Claims.accesses, Claims.accesses, List.filter_cons_of_neg (by simp)]

theorem accesses_access (hm : m ≠ .run) (rest : List HostMove) :
    Claims.accesses (m :: rest) = Claims.accesses rest + 1 := by
  rw [Claims.accesses, Claims.accesses, List.filter_cons_of_pos (by simp [hm]), List.length_cons]

/-- A decode under way that the host leaves alone to its end. -/
structure Unattended (s : State) : Prop where
  moves : ∀ m ∈ s.host, Claims.LeavesDecodeAlone s.cfg m
  launched : s.blk.Launched

/-- The steps of the machine such a decode has before it, at most. -/
def stepsBound (s : State) : Nat := s.blk.stepsLeft + Claims.accesses s.host

/-- What is left of the moves still leaves the decode alone. -/
theorem Unattended.next (h : Unattended s) (ht : step s = .next t) (hl : t.blk.Launched) : Unattended t := by
  obtain ⟨hcfg, hhost⟩ := Claims.parametersAreFixed s t ht
  refine ⟨fun m hm => ?_, hl⟩
  rw [hhost] at hm
  rw [hcfg]
  exact h.moves m (List.mem_of_mem_tail hm)

/-- Until the decode has ended, every step answers and lowers the bound. -/
theorem Unattended.progress (h : Unattended s) (he : s.blk.state.ended = false) :
    ∃ t, step s = .next t ∧ Unattended t ∧ stepsBound t < stepsBound s := by
  have block {rest : List HostMove} (hr : Claims.BlockRuns s rest) (ha : Claims.accesses s.host = Claims.accesses rest) :
      ∃ t, step s = .next t ∧ Unattended t ∧ stepsBound t < stepsBound s := by
    obtain ⟨t, ht⟩ := blockStep_next { s with host := rest }
    obtain ⟨hl, hlt⟩ := blockStep_launched (s := { s with host := rest }) h.launched he ht
    obtain ⟨-, hhost⟩ := blockStep_keeps_cfg_host ht
    rw [← step_of_blockRuns hr] at ht
    refine ⟨t, ht, h.next ht hl, ?_⟩
    rw [stepsBound, stepsBound, ha, hhost]
    exact Nat.add_lt_add_right hlt _
  cases hh : s.host with
  | nil => exact block (.inl ⟨hh, rfl⟩) (by rw [hh])
  | cons m rest =>
    by_cases hm : m = .run
    · subst hm
      exact block (.inr hh) (by rw [hh, accesses_run])
    · have alone := h.moves m (by rw [hh]; exact List.mem_cons_self)
      obtain ⟨t, ht, hblk⟩ := hostStep_leavesDecodeAlone (s := { s with host := rest }) alone (h.launched.busy he) hm
      obtain ⟨-, hhost⟩ := hostStep_keeps_cfg_host ht
      rw [← step_move hh] at ht
      refine ⟨t, ht, h.next ht (hblk ▸ h.launched), ?_⟩
      rw [stepsBound, stepsBound, hblk, hhost, hh, accesses_access hm]
      exact Nat.lt_succ_self _

/-- So the decode ends within the bound. -/
theorem Unattended.ends (h : Unattended s) :
    ∃ n t, n ≤ stepsBound s ∧ core.run n s = .next t ∧ t.blk.state.ended = true := by
  induction hk : stepsBound s using Nat.strong_induction_on generalizing s with
  | _ k ih =>
    cases he : s.blk.state.ended with
    | true => exact ⟨0, s, Nat.zero_le _, rfl, he⟩
    | false =>
      obtain ⟨t, ht, hunatt, hlt⟩ := h.progress he
      obtain ⟨n, u, hn, hrun, hend⟩ := ih (stepsBound t) (hk ▸ hlt) hunatt rfl
      exact ⟨n + 1, u, by omega, (run_succ (M := core) ht n).trans hrun, hend⟩

end Sys2Proof.Machine

namespace Sys2Proof.Claims

open Sys2Proof.Machine

/-- Settles O50: the bits that are left and the accesses to come bound the steps (`Unattended.ends`). -/
theorem everyRunEnds : Obligations.EveryRunEnds := by
  refine ⟨fun s hm hs hp => ?_, fun s t rest hr hs h => ?_⟩
  · have launched : s.blk.Launched := by
      refine ⟨?_, fun _ => hp, ?_⟩ <;> rw [hs] <;> nofun
    have hrun := Unattended.ends ⟨hm, launched⟩
    rwa [stepsBound, Block.stepsLeft_setup hs] at hrun
  · rw [step_decoding hr hs] at h
    obtain ⟨b, rfl, ho⟩ := tokenStep_cases h
    exact ho.olen_le

end Sys2Proof.Claims
end

section
/-! PROOFS. The exceptions family (60_exceptions.md): the first error of a match (O30), that a failing token appends nothing
(O42), and the `done` output (O57). -/

namespace Sys2Proof.Machine

variable {s t : State} {b b' b₁ : Block} {c : Config} {obl ln : BitVec 4} {n : Nat} {e₁ e₂ : Option (ErrKind × Nat)}

/-! ### The errors of a match, read by read (R260) -/

/-- LENGTH reads a length word behind its extension byte at `p` (R185). -/
def Block.longAt (ln : BitVec 4) (p : Nat) (b : Block) : Bool := decide (ln = 15) && decide (b.inp.read p = 0xFF#8)

/-- How many extension bytes LENGTH takes from `p` on. -/
def Block.extBytesAt (ln : BitVec 4) (p : Nat) (b : Block) : Nat :=
  if b.longAt ln p then 3 else if decide (ln = 15) then 1 else 0

/-- The length LENGTH reads from `p` on. -/
def Block.lengthAt (ln : BitVec 4) (p : Nat) (b : Block) : Nat :=
  if b.longAt ln p then (b.inp.read16 (p + 1)).toNat + 3
  else if decide (ln = 15) then (b.inp.read p).toNat + 18 else ln.toNat + 3

/-- The error of a LENGTH that reads from `p` on, with `POS` after its last successful read. -/
def Block.extError (ln : BitVec 4) (p : Nat) (b : Block) : Option (ErrKind × Nat) :=
  if decide (ln = 15) && decide (b.inLen < p + 1) then some (.truncatedInput, p)
  else if b.longAt ln p && decide (b.inLen < p + 3) then some (.truncatedInput, p + 1)
  else if b.longAt ln p && decide ((b.inp.read16 (p + 1)).toNat < 15) then some (.invalidFormat, p + 3)
  else none

/-- The error of an OFFSET whose refill word, where it needs one, stands at `p`. -/
def Block.wordError (obl : BitVec 4) (p : Nat) (b : Block) : Option (ErrKind × Nat) :=
  if Claims.refills b obl && decide (b.inLen < p + 2) then some (.truncatedInput, p) else none

/-- The error of the two checks of a match, on the block its operand reads leave. -/
def Block.checkError (c : Config) (b : Block) : Option (ErrKind × Nat) :=
  if b.moff > b.olen then some (.invalidFormat, b.pos)
  else if b.olen + b.mlen > c.outMax then some (.outputOverflow, b.pos) else none

/-- The block the operand reads of a match leave when none of them raises. -/
def Block.matchRead (c : Config) (obl ln : BitVec 4) (b : Block) : Block :=
  let extBytes := b.extBytesAt ln (Claims.extAt c b obl)
  b.operandsRead obl (b.lengthAt ln (Claims.extAt c b obl)) extBytes
    (if c.lenExtFirst then b.pos + extBytes else b.pos)

/-- The first error of the operand reads of a match, in the order `LEN_EXT_FIRST` fixes (R189). -/
def Block.operandError (c : Config) (obl ln : BitVec 4) (b : Block) : Option (ErrKind × Nat) :=
  let p := Claims.extAt c b obl
  if c.lenExtFirst then (b.extError ln p).or (b.wordError obl (b.pos + b.extBytesAt ln p))
  else (b.wordError obl b.pos).or (b.extError ln p)

/-- The order of R260: the operand reads, then the checks. -/
theorem firstMatchError_eq (c : Config) (b : Block) (obl ln : BitVec 4) :
    Claims.firstMatchError c b obl ln = (b.operandError c obl ln).or ((b.matchRead c obl ln).checkError c) := rfl

/-! ### Operations that report such an error -/

/-- From the block `b`, the operation raises the error with its `POS` and with the output of `b`, or, where there is none,
answers `b'`. -/
inductive Res.Reports (b b' : Block) : Option (ErrKind × Nat) → Res Unit → Prop
  | ok : Reports b b' none (.ok () b')
  | raised {x : Block} {k : ErrKind} (hk : k.isRaised = true) (hout : x.out = b.out) (holen : x.olen = b.olen) :
      Reports b b' (some (k, x.pos)) (.raised (x.fail k))

/-- Of two operations in a row the first error is that of the first, and else that of the second. -/
theorem Res.Reports.bind {r : Res Unit} {f : Unit → Block → Res Unit} (h : Res.Reports b b₁ e₁ r)
    (hout : b₁.out = b.out) (holen : b₁.olen = b.olen) (hf : Res.Reports b₁ b' e₂ (f () b₁)) :
    Res.Reports b b' (e₁.or e₂) (r.bind f) := by
  cases h with
  | raised hk ho hl => exact .raised hk ho hl
  | ok =>
    generalize hr : f () b₁ = r at hf
    rw [Res.bind_ok, hr]
    cases hf with
    | ok => exact .ok
    | raised hk ho hl => exact .raised hk (ho.trans hout) (hl.trans holen)

theorem Block.remaining_lt (hn : 0 < n) (h : b.inLen < b.pos + n) : b.remaining < n := by
  rw [Block.remaining]; omega

theorem Block.le_remaining_of_not_lt (h : ¬ b.inLen < b.pos + n) : n ≤ b.remaining :=
  Block.le_remaining (Nat.le_of_not_lt h)

/-- LENGTH behind the byte 255 (R185): the length word may be missing, or below 15. -/
theorem Block.length_reports_long (hln : ln = 15) (hbyte : 1 ≤ b.remaining) (hb : b.inp.read b.pos = byteEsc) :
    Res.Reports b { b with pos := b.pos + 3, mlen := (b.inp.read16 (b.pos + 1)).toNat + 3 }
      (if decide (b.inLen < b.pos + 3) then some (.truncatedInput, b.pos + 1)
        else if decide ((b.inp.read16 (b.pos + 1)).toNat < 15) then some (.invalidFormat, b.pos + 3) else none)
      (b.length ln) := by
  have hl : ln.toNat = 15 := congrArg BitVec.toNat hln
  by_cases hw : b.inLen < b.pos + 3
  · rw [if_pos (decide_eq_true hw), Block.length_noWord hl hbyte (Block.remaining_lt (by decide) hw) hb]
    exact .raised (x := { b with pos := b.pos + 1 }) rfl rfl rfl
  have hword : 3 ≤ b.remaining := Block.le_remaining_of_not_lt hw
  rw [decide_eq_false hw, if_neg Bool.false_ne_true]
  by_cases hv : (b.inp.read16 (b.pos + 1)).toNat < 15
  · rw [if_pos (decide_eq_true hv), Block.length_badWord hl hword hb hv]
    exact .raised (x := { b with pos := b.pos + 3 }) rfl rfl rfl
  · rw [decide_eq_false hv, if_neg Bool.false_ne_true, Block.length_x16 hl hword hb (Nat.le_of_not_lt hv)]
    exact .ok

/-- LENGTH (R185), by the nibble and the extension byte. -/
theorem Block.length_reports (ln : BitVec 4) (b : Block) :
    Res.Reports b { b with pos := b.pos + b.extBytesAt ln b.pos, mlen := b.lengthAt ln b.pos }
      (b.extError ln b.pos) (b.length ln) := by
  rw [Block.extBytesAt, Block.lengthAt, Block.extError]
  by_cases hln : ln = 15
  case neg =>
    have hlong : b.longAt ln b.pos = false := by rw [Block.longAt, decide_eq_false hln]; rfl
    rw [hlong, decide_eq_false hln, Block.length_short_form (by bv_omega)]
    exact .ok
  have hl : ln.toNat = 15 := congrArg BitVec.toNat hln
  rw [decide_eq_true hln, Bool.true_and]
  by_cases h : b.inLen < b.pos + 1
  · rw [if_pos (decide_eq_true h), Block.length_noByte hl (Block.remaining_lt (by decide) h)]
    exact .raised rfl rfl rfl
  have hbyte : 1 ≤ b.remaining := Block.le_remaining_of_not_lt h
  rw [decide_eq_false h, if_neg Bool.false_ne_true]
  by_cases hb : b.inp.read b.pos = byteEsc
  · have hlong : b.longAt ln b.pos = true := by rw [Block.longAt, decide_eq_true hln, decide_eq_true hb]; rfl
    rw [hlong, Bool.true_and, Bool.true_and]
    exact Block.length_reports_long hln hbyte hb
  · have hlong : b.longAt ln b.pos = false := by rw [Block.longAt, decide_eq_false hb, Bool.and_false]
    rw [hlong, Block.length_x8 hl hbyte hb]
    exact .ok

/-- OFFSET (R184), by whether it needs a refill word and the input holds it. -/
theorem Block.offset_reports (obl : BitVec 4) (b : Block) :
    Res.Reports b (b.offsetRead obl b.pos) (b.wordError obl b.pos) (b.offset obl) := by
  cases hr : Claims.refills b obl with
  | false =>
    have hbytes : Claims.refillBytes b obl = 0 := by rw [Claims.refillBytes, hr]; rfl
    rw [Block.wordError, hr, Block.offset_served (hbytes ▸ Nat.zero_le _)]
    exact .ok
  | true =>
    have hbytes : Claims.refillBytes b obl = 2 := by rw [Claims.refillBytes, hr]; rfl
    rw [Block.wordError, hr, Bool.true_and]
    by_cases h : b.inLen < b.pos + 2
    · rw [if_pos (decide_eq_true h), Block.offset_short (hbytes ▸ Block.remaining_lt (by decide) h)]
      exact .raised (x := b.shiftOut obl.toNat) rfl rfl rfl
    · rw [decide_eq_false h, if_neg Bool.false_ne_true, Block.offset_served (hbytes ▸ Block.le_remaining_of_not_lt h)]
      exact .ok

/-- The operand reads (R183), in either order: the second read goes on where the first one ended. -/
theorem Block.matchOperands_reports (c : Config) (obl ln : BitVec 4) (b : Block) :
    Res.Reports b (b.matchRead c obl ln) (b.operandError c obl ln) (b.matchOperands c obl ln) := by
  rw [Block.matchRead, Block.operandError, Block.matchOperands, Claims.extAt]
  cases hc : c.lenExtFirst with
  | true => exact (b.length_reports ln).bind rfl rfl (Block.offset_reports obl _)
  | false =>
    rw [Block.operandsRead, Nat.add_right_comm]
    exact (b.offset_reports obl).bind rfl rfl (Block.length_reports ln _)

/-- The end of a match (R190 to R192): bounds before capacity. -/
theorem Block.matchCopy_reports (c : Config) (b : Block) :
    Res.Reports b (b.copy b.mlen) (b.checkError c) (b.matchCopy c) := by
  rw [Block.checkError]
  by_cases hb : b.moff > b.olen
  · rw [if_pos hb, Block.matchCopy, Block.checkBounds_fails hb]
    exact .raised rfl rfl rfl
  rw [if_neg hb]
  by_cases hc : b.olen + b.mlen > c.outMax
  · rw [if_pos hc, Block.matchCopy, Block.checkBounds_ok (Nat.le_of_not_lt hb), Res.bind_ok, Block.checkCapacity_fails hc]
    exact .raised rfl rfl rfl
  · rw [if_neg hc, Block.matchCopy_ok (Nat.le_of_not_lt hb) (Nat.le_of_not_lt hc)]
    exact .ok

/-- A match reports the first of its errors (R260), and otherwise copies. -/
theorem Block.matchCommon_reports (c : Config) (obl ln : BitVec 4) (b : Block) :
    Res.Reports b ((b.matchRead c obl ln).copy (b.matchRead c obl ln).mlen) (Claims.firstMatchError c b obl ln)
      (b.matchCommon c obl ln) := by
  rw [firstMatchError_eq]
  exact (b.matchOperands_reports c obl ln).bind rfl rfl (Block.matchCopy_reports c _)

/-! ### A match that meets no error -/

theorem Block.matchRead_mlen_ge (c : Config) (obl ln : BitVec 4) (b : Block) : 3 ≤ (b.matchRead c obl ln).mlen := by
  show 3 ≤ b.lengthAt ln (Claims.extAt c b obl)
  rw [Block.lengthAt]
  split
  · exact Nat.le_add_left _ _
  split
  · exact Nat.le_add_left_of_le (by decide)
  · exact Nat.le_add_left _ _

theorem Block.copy_state (n : Nat) (b : Block) : (b.copy n).state = b.state := by
  obtain ⟨out, h⟩ := b.copy_frame n; rw [h]

theorem Block.copy_err (n : Nat) (b : Block) : (b.copy n).err = b.err := by
  obtain ⟨out, h⟩ := b.copy_frame n; rw [h]

/-- Rows 3 to 5 of R100 all mean MATCH_COMMON (R186 to R188). -/
theorem exec_matchInstr (s : State) (b : Block) (obl ln : BitVec 4) :
    exec (Claims.matchInstr c b obl ln) s = s.finish (s.blk.matchCommon s.cfg obl ln) := by
  rw [Claims.matchInstr]
  by_cases hln : ln = 15
  · rw [if_neg (not_not.mpr hln), hln]
    split <;> rfl
  · rw [if_pos hln]; rfl

/-! ### A token that fails (R258, R259) -/

theorem Block.decodeSymbol_ok_state {u : Unit} (h : b.decodeSymbol = .ok u b') : b'.state = b.state := by
  obtain ⟨-, rfl⟩ | ⟨-, -, rfl⟩ := Block.consume_ok_cases h <;> rfl

theorem Block.decodeSymbol_raised_err (h : b.decodeSymbol = .raised b') : b'.err = .truncatedInput := by
  obtain ⟨-, -, rfl⟩ := Block.consume_raised_cases h
  rfl

/-- A match that ends in `FAILED` has reported one of its errors. -/
theorem Block.matchCommon_failed (hs : b.state ≠ .failed) (h : (b.matchCommon c obl ln).block.state = .failed) :
    (b.matchCommon c obl ln).block.out = b.out ∧ (b.matchCommon c obl ln).block.olen = b.olen ∧
      (b.matchCommon c obl ln).block.err.isRaised = true := by
  have reports := b.matchCommon_reports c obl ln
  generalize b.matchCommon c obl ln = r, Claims.firstMatchError c b obl ln = e at h reports ⊢
  cases reports with
  | ok => rw [Res.block_ok, Block.copy_state] at h; exact absurd h hs
  | raised hk hout holen => exact ⟨hout, holen, hk⟩

/-- A TOKEN_STEP that ends in `FAILED` leaves the output alone and records one of the kinds R13 lists. -/
theorem tokenStep_failed (h : tokenStep s = .next t) (hs : s.blk.state = .decoding) (ht : t.blk.state = .failed) :
    t.blk.out = s.blk.out ∧ t.blk.olen = s.blk.olen ∧ t.blk.err.isRaised = true := by
  obtain ⟨hout, holen⟩ := s.blk.decodeSymbol_keeps_output
  cases hd : s.blk.decodeSymbol with
  | raised b =>
    rw [tokenStep_of_decodeSymbol_raised hd] at h; cases h
    rw [hd] at hout holen
    exact ⟨hout, holen, congrArg ErrKind.isRaised (Block.decodeSymbol_raised_err hd)⟩
  | ok u b =>
    rw [hd, Res.block_ok] at hout holen
    have hstate : b.state = .decoding := (Block.decodeSymbol_ok_state hd).trans hs
    have hne : b.state ≠ .failed := by rw [hstate]; nofun
    rw [← hout, ← holen]
    by_cases hlit : b.sym.toNat < 256
    · rw [tokenStep_literal hd hlit] at h
      by_cases hc : b.olen + 1 ≤ s.cfg.outMax
      · rw [execLit_fits _ hc] at h; cases h
        exact absurd ht hne
      · rw [execLit_overflows _ (Nat.lt_of_not_le hc)] at h; cases h
        exact ⟨rfl, rfl, rfl⟩
    by_cases heob : b.sym = eobSym ∧ b.remaining = 0
    · obtain ⟨hsym, hrem⟩ := heob
      rw [tokenStep_endMarker hd hsym hrem] at h; cases h
      cases ht
    · rw [tokenStep_match hd (Nat.le_of_not_lt hlit) heob] at h; cases h
      exact Block.matchCommon_failed hne ht

end Sys2Proof.Machine

namespace Sys2Proof.Claims

open Sys2Proof.Machine

/-- Settles O30: the operand reads and the checks each report their first error, and a row of them the first of the row. -/
theorem matchReportsItsFirstError : Obligations.MatchReportsItsFirstError := by
  intro s obl ln _ hs
  have reports := s.blk.matchCommon_reports s.cfg obl ln
  rw [exec_matchInstr]
  generalize s.blk.matchCommon s.cfg obl ln = r, firstMatchError s.cfg s.blk obl ln = e at reports ⊢
  cases reports with
  | raised hk hout holen => exact ⟨_, rfl, ⟨rfl, rfl, hout, holen⟩, rfl⟩
  | ok =>
    refine ⟨_, rfl, (Block.copy_state _ _).trans hs, Block.copy_err _ _, ?_⟩
    have hgrow := s.blk.matchRead_mlen_ge s.cfg obl ln
    show s.blk.olen < (Block.copy _ _).olen
    rw [Block.copy_olen]
    exact Nat.lt_add_of_pos_right (by omega)

/-- Settles O42, by the outcomes of a TOKEN_STEP. -/
theorem failingTokenAppendsNothing : Obligations.FailingTokenAppendsNothing := by
  intro s t rest hr hs h ht
  rw [step_decoding hr hs] at h
  obtain ⟨hout, holen, hkind⟩ := tokenStep_failed h hs ht
  exact ⟨⟨ht, rfl, hout, holen⟩, hkind, by rw [ht]; rfl⟩

/-- Settles O57: a state in which `done` is 1 is not busy, so a START that is not refused is accepted. -/
theorem doneOutputLevel : Obligations.DoneOutputLevel := by
  refine ⟨fun b => decide_eq_true_iff, fun s t hd hl h => ?_, fun s t h => ?_⟩
  · have hbusy : s.blk.state.busy = false := ControlState.not_busy_of_ended hd
    rw [exec_start_accepted hbusy hl] at h; cases h
    rfl
  · cases h; rfl

end Sys2Proof.Claims
end
